-- ==== Sys2Proof/Word.lean ====
section
/-! DEFINITION. The word types of huffman_encoder whose width the spec fixes (00_scope.md R7, 10_state.md R20).
Values whose width is a parameter (CNT_W, OUT_W: 00_scope.md R8) are natural numbers, bounded by an invariant
(log entry 2). -/

namespace Sys2Proof

/-- A symbol or a byte of IBUF and OBUF, SYM_W = 8 bits (00_scope.md R7). -/
abbrev Byte := BitVec 8

/-- A node number, or the tag of a heap entry, NODE_W = 9 bits (00_scope.md R7). -/
abbrev NodeNo := BitVec 9

/-- A word of CBITS: bit j is the j-th bit of the path from the root (10_state.md R40). -/
abbrev Path := BitVec 255

end Sys2Proof
end

