-- ==== Sys2Proof/Config.lean ====
section
/-! DEFINITION. The parameters an implementation fixes (00_scope.md R8) and the free values, constants without a body. -/

namespace Sys2Proof

/-- The open parameters of 00_scope.md R8. A state carries one, and no step changes it (10_state.md R45). -/
structure Config where
  /-- CNT_W: bits in a count, a frequency, the input length and an input index. -/
  cntW : Nat
  /-- IBUF_CAP: bytes in IBUF. -/
  ibufCap : Nat
  /-- OBUF_CAP: bytes in OBUF. -/
  obufCap : Nat
deriving DecidableEq, Repr, Inhabited

/-- The spec's suggested defaults (00_scope.md R8). DESIGN CHOICE, log entry 1. -/
def Config.default : Config := { cntW := 32, ibufCap := 65536, obufCap := 131072 }

/-- OUT_W, the smallest w with 2^w > OBUF_CAP (00_scope.md R8). -/
def Config.outW (c : Config) : Nat := if c.obufCap = 0 then 0 else Nat.log2 c.obufCap + 1

/-- NSYM = 256: entries in FREQ, ORD, CLEN, CBITS (00_scope.md R7). -/
def numSymbols : Nat := 256

/-- PQ_CAP = 256: entries in HEAP (00_scope.md R7). -/
def queueCap : Nat := 256

/-- NODE_CAP = 511: entries in NODE (00_scope.md R7). -/
def nodeCap : Nat := 511

/-- CODE_MAX = 255: bits in the longest code (00_scope.md R7). -/
def codeMax : Nat := 255

/-- FREE VALUE: what a memory word holds that no reset clears and nothing has written since reset number `resets`
(70_reset_and_hazards.md R262, log entry 3). The reader takes as many low bits as the word is wide. -/
opaque Config.unwritten (resets space index : Nat) : Nat

/-- FREE VALUE: what a host read of a word that is not meaningful returns (20_memory.md R65, log entry 4). -/
opaque Config.notMeaningful (epoch space index : Nat) : Nat

/-- FREE VALUE: what a hidden register holds between commands (10_state.md R44, log entry 6). -/
opaque Config.hiddenWord (epoch register : Nat) : Nat

end Sys2Proof
end

