-- ==== Sys2Proof/Syntax.lean ====
section
/-! DEFINITION. The nine commands and the one word format (30_encoding.md R90, R94). -/

namespace Sys2Proof

/-- The commands of 30_encoding.md R94, in the table's order. A command has no operand: R93. -/
inductive Instr where
  /-- 0x00, 45_compress.md R203 -/
  | nop
  /-- 0x01, 45_compress.md R201 -/
  | compress
  /-- 0x02, 40_frequency_table.md R121 -/
  | freqCount
  /-- 0x03, 42_tree_builder.md R153 -/
  | treeBuild
  /-- 0x04, 43_code_assigner.md R166 -/
  | codeAssign
  /-- 0x05, 44_bit_packer.md R181 -/
  | pack
  /-- 0x06, 41_priority_queue.md R134 -/
  | pqClear
  /-- 0x07, 41_priority_queue.md R135 -/
  | pqInsert
  /-- 0x08, 41_priority_queue.md R136 -/
  | pqExtractMin
deriving DecidableEq, Repr

/-- Format C, the one command format (30_encoding.md R90). -/
structure FormatC where
  /-- Bits 3:0, the operation. -/
  op : BitVec 4
  /-- Bits 7:4, which must be 0. -/
  zero : BitVec 4
deriving DecidableEq, Repr

end Sys2Proof
end

