-- ==== Sys2Proof/WellFormed.lean ====
section
/-! DEFINITION. What makes a command word and a parameter set well formed. An Instr has no operand (30_encoding.md
R93), so every Instr is well formed; what can be ill formed is the word and the parameters. -/

namespace Sys2Proof

/-- The field `zero` is 0b0000 (30_encoding.md R90). -/
def FormatC.zeroOk (f : FormatC) : Bool := f.zero == 0

/-- The operation is one of the nine (30_encoding.md R94). -/
def FormatC.opOk (f : FormatC) : Bool := decide (f.op.toNat ≤ 8)

/-- A command word that selects a command (30_encoding.md R91, R95). -/
def FormatC.wf (f : FormatC) : Bool := f.zeroOk && f.opOk

/-- CNT_W ≥ 1 (00_scope.md R8). -/
def Config.cntOk (c : Config) : Bool := decide (1 ≤ c.cntW)

/-- 1 ≤ IBUF_CAP (00_scope.md R8). -/
def Config.ibufNonempty (c : Config) : Bool := decide (1 ≤ c.ibufCap)

/-- IBUF_CAP ≤ 2^CNT_W − 1 (00_scope.md R8). -/
def Config.ibufFits (c : Config) : Bool := decide (c.ibufCap < 2 ^ c.cntW)

/-- OBUF_CAP ≥ 6 (00_scope.md R8). -/
def Config.obufOk (c : Config) : Bool := decide (6 ≤ c.obufCap)

/-- The constraints of 00_scope.md R8 together. -/
def Config.wf (c : Config) : Bool := c.cntOk && c.ibufNonempty && c.ibufFits && c.obufOk

end Sys2Proof
end

