-- ==== Sys2Proof/Decode.lean ====
section
/-! DEFINITION. The decoder and the encoder of command words (30_encoding.md R90 to R96). A command is the low 8 bits
of a host write to CMD; there is no instruction memory (20_memory.md R74). -/

namespace Sys2Proof

/-- One row of the opcode map: the command, its mask and its match value (opcode_table.json, 30_encoding.md R94). -/
structure OpcodeRow where
  mask : BitVec 8
  value : BitVec 8
  instr : Instr
deriving DecidableEq, Repr

/-- The opcode map of 30_encoding.md R94. -/
def opcodeMap : List OpcodeRow :=
  [ ⟨0xFF#8, 0x00#8, .nop⟩,
    ⟨0xFF#8, 0x01#8, .compress⟩,
    ⟨0xFF#8, 0x02#8, .freqCount⟩,
    ⟨0xFF#8, 0x03#8, .treeBuild⟩,
    ⟨0xFF#8, 0x04#8, .codeAssign⟩,
    ⟨0xFF#8, 0x05#8, .pack⟩,
    ⟨0xFF#8, 0x06#8, .pqClear⟩,
    ⟨0xFF#8, 0x07#8, .pqInsert⟩,
    ⟨0xFF#8, 0x08#8, .pqExtractMin⟩ ]

/-- Whether a word selects a row: all bits under the mask are compared (30_encoding.md R91). -/
def OpcodeRow.selects (r : OpcodeRow) (w : BitVec 8) : Bool := w &&& r.mask == r.value

/-- Why a word selects no command: the 247 words of 30_encoding.md R95. -/
inductive DecodeError where
  /-- The upper field is not zero. -/
  | upperFieldNotZero
  /-- The upper field is zero and the operation is 9 to 15. -/
  | operationReserved
deriving DecidableEq, Repr

/-- The fields of a command word (30_encoding.md R90). -/
def FormatC.ofWord (w : BitVec 8) : FormatC := { op := w.extractLsb' 0 4, zero := w.extractLsb' 4 4 }

/-- The word with the given fields (30_encoding.md R90). -/
def FormatC.word (f : FormatC) : BitVec 8 := f.zero ++ f.op

/-- Total on the 256 words, rejecting a reserved word by name (30_encoding.md R91, R95). -/
def decode (w : BitVec 8) : Except DecodeError Instr :=
  match opcodeMap.find? (fun r => r.selects w) with
  | some r => .ok r.instr
  | none => if (FormatC.ofWord w).zeroOk then .error .operationReserved else .error .upperFieldNotZero

/-- The command a word selects, if it selects one. -/
def decode? (w : BitVec 8) : Option Instr :=
  match decode w with
  | .ok i => some i
  | .error _ => none

/-- The fields of a command's word (30_encoding.md R94). -/
def Instr.fields : Instr → FormatC
  | .nop => ⟨0, 0⟩
  | .compress => ⟨1, 0⟩
  | .freqCount => ⟨2, 0⟩
  | .treeBuild => ⟨3, 0⟩
  | .codeAssign => ⟨4, 0⟩
  | .pack => ⟨5, 0⟩
  | .pqClear => ⟨6, 0⟩
  | .pqInsert => ⟨7, 0⟩
  | .pqExtractMin => ⟨8, 0⟩

/-- The encoder: a command's word. -/
def encode (i : Instr) : BitVec 8 := i.fields.word

/-- The word a host write to CMD presents: the low 8 bits of the written value (30_encoding.md R90, R91). -/
def commandWord (value : Nat) : BitVec 8 := BitVec.ofNat 8 value

/-- The command of a host write whose low `nbits` bits are those of `w` and whose bits above are 0. -/
def tableValue (nbits w : Nat) : Nat := w % 2 ^ nbits

/-- The command the decoder reads from an instruction of the opcode table. -/
def decodeTableWord (nbits w : Nat) : Option Instr := decode? (commandWord (tableValue nbits w))

end Sys2Proof
end

