-- ==== Sys2Proof/Machine/State.lean ====
section
/-! DEFINITION. The machine's state as plain data (10_state.md), the reasons a step can stop, and the state after
reset (70_reset_and_hazards.md R261, R262). A memory is a list of (index, word) pairs in rising order of index; a word
that is not listed reads as Space.unlisted says (Machine/Ops.lean). -/

namespace Sys2Proof.Machine

/-- The error codes of the field ERR (60_exceptions.md R230). -/
inductive ErrCode where
  /-- 0 NONE: the command completed. -/
  | noError
  /-- 1 EMPTY_INPUT (R231). -/
  | emptyInput
  /-- 2 MISSING_CODE (R232). -/
  | missingCode
  /-- 3 ILLEGAL_CMD (R233). -/
  | illegalCmd
  /-- 4 PQ_FULL (R234). -/
  | pqFull
  /-- 5 NO_TREE (R235). -/
  | noTree
  /-- 6 LEN_RANGE (R236). -/
  | lenRange
  /-- 7 OUT_OVERFLOW (R237). -/
  | outOverflow
deriving DecidableEq, Repr

/-- The values of the field PHASE (10_state.md R30). Values 6 and 7 are never taken. -/
inductive Phase where
  | idle
  | freq
  | tree
  | code
  | pack
  | pq
deriving DecidableEq, Repr

/-- The fields of register STATUS (10_state.md R28). The reserved bits read 0 and are no field. -/
structure Status where
  busy : Bool
  done : Bool
  treeValid : Bool
  resEmpty : Bool
  err : ErrCode
  phase : Phase
deriving DecidableEq, Repr

/-- One HuffmanNode of NODE, a tagged variant (10_state.md R36). The word fields a variant does not use are 0 in the
word the host sees (R36, 20_memory.md R61, log entry 14). -/
inductive HuffNode where
  | leaf (sym : Byte) (freq : Nat)
  | internal (freq : Nat) (left right : NodeNo)
deriving DecidableEq, Repr

/-- One entry of HEAP: a frequency and a tag (10_state.md R38). -/
structure HeapEntry where
  freq : Nat
  node : NodeNo
deriving DecidableEq, Repr

/-- One entry of the walk stack STK (10_state.md R42). -/
structure StkEntry where
  node : NodeNo
  len : Byte
  path : Path
deriving DecidableEq, Repr

/-- The hidden registers of 10_state.md R42 and R43. Between commands their contents are unspecified (R44). -/
structure Hidden where
  /-- STK, the entries of known content. -/
  stk : List (Nat × StkEntry)
  /-- SP -/
  sp : BitVec 9
  /-- ACC -/
  acc : BitVec 8
  /-- ACCN -/
  accn : BitVec 3
  /-- BITCNT, CNT_W + 8 bits -/
  bitcnt : Nat
  /-- WP, OUT_W bits -/
  wp : Nat
  /-- the input index, CNT_W bits -/
  inputIdx : Nat
  /-- the symbol index -/
  symIdx : BitVec 9
  /-- the bit index -/
  bitIdx : BitVec 8
deriving DecidableEq, Repr

/-- FREE VALUES in every hidden register: no entry of STK is known, and each register holds any value (10_state.md R44,
log entry 6). -/
def Hidden.any (c : Config) (epoch : Nat) : Hidden where
  stk := []
  sp := BitVec.ofNat 9 (Config.hiddenWord epoch 0)
  acc := BitVec.ofNat 8 (Config.hiddenWord epoch 1)
  accn := BitVec.ofNat 3 (Config.hiddenWord epoch 2)
  bitcnt := Config.hiddenWord epoch 3 % 2 ^ (c.cntW + 8)
  wp := Config.hiddenWord epoch 4 % 2 ^ c.outW
  inputIdx := Config.hiddenWord epoch 5 % 2 ^ c.cntW
  symIdx := BitVec.ofNat 9 (Config.hiddenWord epoch 6)
  bitIdx := BitVec.ofNat 8 (Config.hiddenWord epoch 7)

/-- What the host can do to the block (70_reset_and_hazards.md R274). -/
inductive HostEvent where
  /-- HostRead(space, index), 20_memory.md R62. -/
  | read (space index : Nat)
  /-- HostWrite(space, index, value), 20_memory.md R62; to REG index 0 it issues a command. -/
  | write (space index value : Nat)
  /-- `rst` at a clock edge while no command runs, 70_reset_and_hazards.md R260. -/
  | rst
  /-- A write of this value to CMD and `rst` before that command completes, 70_reset_and_hazards.md R263. -/
  | commandCutByRst (value : Nat)
  /-- `rst` together with an access of the host in one clock cycle (93_implementation_defined.md I22). -/
  | rstWithAccess (space index : Nat)
deriving DecidableEq, Repr

/-- The host's side, the model's own fields (log entry 8). -/
structure HostPort where
  /-- The events still to be served, the next one first. -/
  pending : List HostEvent
  /-- The words HostRead has returned, newest first. -/
  reads : List Nat
deriving DecidableEq, Repr

/-- The plain counters the free values are applied to, the model's own fields (log entries 3 and 4). -/
structure FreeCount where
  /-- Resets so far. -/
  resets : Nat
  /-- Commands accepted and host writes of CLEN or CBITS so far. -/
  epoch : Nat
deriving DecidableEq, Repr

/-- The state of the block (10_state.md), the parameters it was built with (log entry 1) and the host's side. -/
structure State where
  /-- CNT_W, IBUF_CAP, OBUF_CAP: 00_scope.md R8, 10_state.md R45. -/
  cfg : Config
  /-- STATUS, register 1: R28. -/
  status : Status
  /-- LEN, register 2, CNT_W bits: R22. -/
  len : Nat
  /-- ARG_FREQ, register 3, CNT_W bits: R23. -/
  argFreq : Nat
  /-- ARG_NODE, register 4: R23. -/
  argNode : NodeNo
  /-- RES_FREQ, register 5, CNT_W bits: R24. -/
  resFreq : Nat
  /-- RES_NODE, register 6: R24. -/
  resNode : NodeNo
  /-- ERR_SYM, register 7: R25. -/
  errSym : Byte
  /-- ERR_IDX, register 8, CNT_W bits: R25. -/
  errIdx : Nat
  /-- K, register 9: R26. -/
  k : BitVec 9
  /-- NN, register 10: R26. -/
  nn : BitVec 9
  /-- ROOT, register 11: R26. -/
  root : NodeNo
  /-- HSIZE, register 12: R26. -/
  hsize : BitVec 9
  /-- HDR_LEN, register 13: R27. -/
  hdrLen : BitVec 17
  /-- PAD_BITS, register 14: R27. -/
  padBits : BitVec 3
  /-- PAY_LEN, register 15, OUT_W bits: R27. -/
  payLen : Nat
  /-- OUT_LEN, register 16, OUT_W bits: R27. -/
  outLen : Nat
  /-- IBUF: R32. -/
  ibuf : List Host.Cell
  /-- OBUF: R41. -/
  obuf : List Host.Cell
  /-- FREQ: R33. -/
  freq : List (Nat × Nat)
  /-- ORD: R34. -/
  ord : List Host.Cell
  /-- NODE: R36. -/
  node : List (Nat × HuffNode)
  /-- HEAP: R38. -/
  heap : List (Nat × HeapEntry)
  /-- CLEN: R39. -/
  clen : List Host.Cell
  /-- CBITS: R40. -/
  cbits : List (Nat × Path)
  /-- The hidden registers: R42 to R44. -/
  hidden : Hidden
  /-- The host's side: log entry 8. -/
  host : HostPort
  /-- The counters of the free values: log entries 3 and 4. -/
  free : FreeCount
deriving DecidableEq, Repr

/-- The block never traps and never hangs (00_scope.md R16, 70_reset_and_hazards.md R272): no step ends in a fault.
An error of a command is a result in ERR (60_exceptions.md R230), a next state. -/
inductive Fault where
deriving DecidableEq, Repr

/-- Why a step gives no next state. -/
inductive Refusal where
  /-- Raised by no arm of exec: every command has its meaning. Safe. -/
  | notModelled (mnemonic : String)
  /-- Raised by a step in a state with BUSY = 1, unless the host reads STATUS or drives `rst`: a model that executes
  commands atomically "must refuse (give no meaning to) a host trace that accesses the block during a command"
  (70_reset_and_hazards.md R267, 93_implementation_defined.md I13). Safe. -/
  | accessDuringCommand
  /-- Raised by a step that serves `rst` together with a host access in the same cycle
  (93_implementation_defined.md I22: refuse). Safe. -/
  | rstWithAccess
deriving DecidableEq, Repr

/-- The reset state of a block built with the parameters `c`, after `resets` resets (70_reset_and_hazards.md R261,
R262): every register 0, every word of FREQ and CLEN 0, the other memories with nothing known. -/
def State.resetOf (c : Config) (resets epoch : Nat) (host : HostPort) : State where
  cfg := c
  status := { busy := false, done := false, treeValid := false, resEmpty := false, err := .noError, phase := .idle }
  len := 0
  argFreq := 0
  argNode := 0
  resFreq := 0
  resNode := 0
  errSym := 0
  errIdx := 0
  k := 0
  nn := 0
  root := 0
  hsize := 0
  hdrLen := 0
  padBits := 0
  payLen := 0
  outLen := 0
  ibuf := []
  obuf := []
  freq := []
  ord := []
  node := []
  heap := []
  clen := []
  cbits := []
  hidden := Hidden.any c epoch
  host := host
  free := { resets := resets, epoch := epoch }

/-- The machine right after reset, with the spec's suggested parameters (log entry 1) and no host event yet (log
entry 8). -/
def State.reset : State := State.resetOf Config.default 0 0 { pending := [], reads := [] }

end Sys2Proof.Machine
end

