-- ==== Sys2Proof/Machine/Ops.lean ====
section
/-! DEFINITION. The named operations over memories and registers, acceptance and completion of a command
(45_compress.md R200), and the entry of an error, `raise` (60_exceptions.md R239). -/

namespace Sys2Proof.Machine

/-! ## A memory as a sorted list -/

/-- The word listed at an index, if one is. -/
def Mem.find? {α : Type} : List (Nat × α) → Nat → Option α
  | [], _ => none
  | (i, v) :: m, a => if i = a then some v else Mem.find? m a

/-- List the word `v` at index `a`, keeping the order of the indices. -/
def Mem.put {α : Type} : List (Nat × α) → Nat → α → List (Nat × α)
  | [], a, v => [(a, v)]
  | (i, w) :: m, a, v =>
    if a < i then (a, v) :: (i, w) :: m
    else if a = i then (a, v) :: m
    else (i, w) :: Mem.put m a v

/-- Take index `a` out of the list. -/
def Mem.remove {α : Type} : List (Nat × α) → Nat → List (Nat × α)
  | [], _ => []
  | (i, w) :: m, a => if i = a then Mem.remove m a else (i, w) :: Mem.remove m a

/-- Write where an unlisted word reads as `zero`: that value is not listed. -/
def Mem.store {α : Type} [DecidableEq α] (zero : α) (m : List (Nat × α)) (a : Nat) (v : α) : List (Nat × α) :=
  if v = zero then Mem.remove m a else Mem.put m a v

/-- The indices rise strictly. -/
def Mem.sorted {α : Type} : List (Nat × α) → Bool
  | [] => true
  | (a, _) :: m => (m.all fun e => decide (a < e.1)) && Mem.sorted m

/-- The canonical form: rising indices, all below `size`, every word `ok`, and no word listed that equals what an
unlisted one reads as (`zero`, where reset clears the space). -/
def Mem.wf {α : Type} [DecidableEq α] (size : Nat) (ok : α → Bool) (zero : Option α) (m : List (Nat × α)) : Bool :=
  Mem.sorted m && m.all fun e => decide (e.1 < size) && ok e.2 && decide (zero ≠ some e.2)

/-! ## The spaces of 20_memory.md R60 -/

/-- The nine spaces (20_memory.md R60). -/
inductive Space where
  | reg
  | ibuf
  | obuf
  | freq
  | ord
  | node
  | heap
  | clen
  | cbits
deriving DecidableEq, Repr

/-- A space's number (20_memory.md R60). -/
def Space.number : Space → Nat
  | .reg => 0
  | .ibuf => 1
  | .obuf => 2
  | .freq => 3
  | .ord => 4
  | .node => 5
  | .heap => 6
  | .clen => 7
  | .cbits => 8

/-- The space of a number; numbers above 8 do not exist (20_memory.md R60, R64). -/
def Space.ofNumber? : Nat → Option Space
  | 0 => some .reg
  | 1 => some .ibuf
  | 2 => some .obuf
  | 3 => some .freq
  | 4 => some .ord
  | 5 => some .node
  | 6 => some .heap
  | 7 => some .clen
  | 8 => some .cbits
  | _ => none

/-- How many words a space has (20_memory.md R60). -/
def Space.words (c : Config) : Space → Nat
  | .reg => 17
  | .ibuf => c.ibufCap
  | .obuf => c.obufCap
  | .freq => numSymbols
  | .ord => numSymbols
  | .node => nodeCap
  | .heap => queueCap
  | .clen => numSymbols
  | .cbits => numSymbols

/-- What an unlisted word reads as: 0 in the two spaces reset clears, any value in the others
(70_reset_and_hazards.md R262, log entry 3). The reader takes as many low bits as the word is wide. -/
def Space.unlisted (sp : Space) (resets index : Nat) : Nat :=
  match sp with
  | .freq => 0
  | .clen => 0
  | _ => Config.unwritten resets sp.number index

/-! ## Values of parameter width -/

/-- A value as a CNT_W-bit register or word holds it (00_scope.md R8, R11). -/
def cntTrunc (c : Config) (v : Nat) : Nat := v % 2 ^ c.cntW

/-- A value as an OUT_W-bit register holds it (00_scope.md R8, R11). -/
def outTrunc (c : Config) (v : Nat) : Nat := v % 2 ^ c.outW

/-! ## Word layouts the host sees -/

/-- A HEAP word (20_memory.md R61). -/
def HeapEntry.word (c : Config) (e : HeapEntry) : Nat := e.node.toNat * 2 ^ c.cntW + e.freq

/-- The entry a HEAP word holds (20_memory.md R61). -/
def HeapEntry.ofWord (c : Config) (w : Nat) : HeapEntry :=
  { freq := cntTrunc c w, node := BitVec.ofNat 9 (w / 2 ^ c.cntW) }

/-- A NODE word; the fields a variant does not use are 0 (20_memory.md R61, 10_state.md R36). -/
def HuffNode.word (c : Config) : HuffNode → Nat
  | .leaf sym freq => 2 ^ (c.cntW + 26) + sym.toNat * 2 ^ (c.cntW + 18) + freq
  | .internal freq left right => left.toNat * 2 ^ (c.cntW + 9) + right.toNat * 2 ^ c.cntW + freq

/-- The node a NODE word holds (20_memory.md R61). -/
def HuffNode.ofWord (c : Config) (w : Nat) : HuffNode :=
  if w / 2 ^ (c.cntW + 26) % 2 = 1 then
    .leaf (BitVec.ofNat 8 (w / 2 ^ (c.cntW + 18))) (cntTrunc c w)
  else
    .internal (cntTrunc c w) (BitVec.ofNat 9 (w / 2 ^ (c.cntW + 9))) (BitVec.ofNat 9 (w / 2 ^ c.cntW))

/-- A node's frequency, in both variants (10_state.md R36). -/
def HuffNode.freq : HuffNode → Nat
  | .leaf _ freq => freq
  | .internal freq _ _ => freq

/-! ## Reading a word of a memory, as a command does (20_memory.md R63, R70) -/

/-- IBUF[i]. -/
def State.ibufAt (s : State) (i : Nat) : Byte :=
  (Mem.find? s.ibuf i).getD (BitVec.ofNat 8 (Space.unlisted .ibuf s.free.resets i))

/-- OBUF[i]. -/
def State.obufAt (s : State) (i : Nat) : Byte :=
  (Mem.find? s.obuf i).getD (BitVec.ofNat 8 (Space.unlisted .obuf s.free.resets i))

/-- FREQ[i] of a FREQ memory; an unlisted word is 0 after whichever reset. -/
def freqWord (freq : List (Nat × Nat)) (i : Nat) : Nat := (Mem.find? freq i).getD (Space.unlisted .freq 0 i)

/-- FREQ[i]. -/
def State.freqAt (s : State) (i : Nat) : Nat := freqWord s.freq i

/-- ORD[j]. -/
def State.ordAt (s : State) (j : Nat) : Byte :=
  (Mem.find? s.ord j).getD (BitVec.ofNat 8 (Space.unlisted .ord s.free.resets j))

/-- NODE[n]. -/
def State.nodeAt (s : State) (n : Nat) : HuffNode :=
  (Mem.find? s.node n).getD (HuffNode.ofWord s.cfg (Space.unlisted .node s.free.resets n))

/-- What an unlisted HEAP word holds. -/
def State.heapFill (s : State) (i : Nat) : HeapEntry :=
  HeapEntry.ofWord s.cfg (Space.unlisted .heap s.free.resets i)

/-- HEAP[i]. -/
def State.heapAt (s : State) (i : Nat) : HeapEntry := (Mem.find? s.heap i).getD (s.heapFill i)

/-- CLEN[i] of a CLEN memory; an unlisted word is 0 after whichever reset. -/
def clenWord (clen : List Host.Cell) (i : Nat) : Byte :=
  (Mem.find? clen i).getD (BitVec.ofNat 8 (Space.unlisted .clen 0 i))

/-- CLEN[i]. -/
def State.clenAt (s : State) (i : Nat) : Byte := clenWord s.clen i

/-- CBITS[i]. -/
def State.cbitsAt (s : State) (i : Nat) : Path :=
  (Mem.find? s.cbits i).getD (BitVec.ofNat 255 (Space.unlisted .cbits s.free.resets i))

/-! ## Writing a word of a memory that reset clears -/

/-- FREQ[i] <- v. -/
def storeFreq (freq : List (Nat × Nat)) (i v : Nat) : List (Nat × Nat) :=
  Mem.store (Space.unlisted .freq 0 i) freq i v

/-- CLEN[i] <- v. -/
def storeClen (clen : List Host.Cell) (i : Nat) (v : Byte) : List Host.Cell :=
  Mem.store (BitVec.ofNat 8 (Space.unlisted .clen 0 i)) clen i v

/-! ## A command from acceptance to completion -/

/-- How the pseudocode of a command ended: it fell off its end, or it raised an error and is complete. -/
inductive Ran where
  | finished (s : State)
  | raised (s : State)
deriving DecidableEq, Repr

/-- What follows in the pseudocode runs only if nothing was raised (45_compress.md R204). -/
def Ran.andThen : Ran → (State → Ran) → Ran
  | .finished s, f => f s
  | .raised s, _ => .raised s

/-- The phase advances (45_compress.md R201). -/
def State.enterPhase (p : Phase) (s : State) : State := { s with status.phase := p }

/-- Acceptance (45_compress.md R200). The epoch of the free values advances (log entry 4). -/
def State.accept (p : Phase) (s : State) : State :=
  { s with
    status := { s.status with busy := true, done := false, err := .noError, phase := p }
    errSym := 0
    errIdx := 0
    free := { s.free with epoch := s.free.epoch + 1 } }

/-- Completion (45_compress.md R200). The hidden registers are unspecified from here on (10_state.md R44). -/
def State.finish (s : State) : State :=
  { s with
    status := { s.status with busy := false, done := true, phase := .idle }
    hidden := Hidden.any s.cfg s.free.epoch }

/-- The entry of an error: `raise E(sym, idx)` (60_exceptions.md R239). There is no return: the report stays until the
next acceptance clears it (R240). -/
def State.raise (e : ErrCode) (sym : Byte) (idx : Nat) (s : State) : State :=
  { s with
    status := { s.status with err := e, busy := false, done := true, phase := .idle }
    errSym := sym
    errIdx := cntTrunc s.cfg idx
    hidden := Hidden.any s.cfg s.free.epoch }

/-- `raise` as an end of the pseudocode. -/
def raise (e : ErrCode) (sym : Byte) (idx : Nat) (s : State) : Ran := .raised (s.raise e sym idx)

/-- Completion is reached by falling off the end of the pseudocode or by raise (45_compress.md R200). -/
def Ran.complete : Ran → State
  | .finished s => s.finish
  | .raised s => s

/-- A command as one transition from acceptance to completion (45_compress.md R200). -/
def runCommand (p : Phase) (body : State → Ran) (s : State) : Host.Outcome State Fault Refusal :=
  .next (body (s.accept p)).complete

/-- An accepted reserved word does nothing but fail (30_encoding.md R95, 60_exceptions.md R233). -/
def illegalCommand (s : State) : Host.Outcome State Fault Refusal :=
  runCommand .idle (raise .illegalCmd 0 0) s

/-! ## Groups of registers and memories a command writes together -/

/-- The four result registers are zeroed (10_state.md R27). -/
def State.clearResults (s : State) : State := { s with hdrLen := 0, padBits := 0, payLen := 0, outLen := 0 }

/-- The registers an extract-minimum writes (10_state.md R24). -/
def State.setResult (empty : Bool) (e : HeapEntry) (s : State) : State :=
  { s with status.resEmpty := empty, resFreq := e.freq, resNode := e.node }

/-- TREE_VALID <- v. -/
def State.setTreeValid (v : Bool) (s : State) : State := { s with status.treeValid := v }

/-- HEAP and HSIZE. -/
def State.setQueue (heap : List (Nat × HeapEntry)) (hsize : BitVec 9) (s : State) : State :=
  { s with heap := heap, hsize := hsize }

/-- FREQ, ORD and K (10_state.md R35). -/
def State.setTable (freq : List (Nat × Nat)) (ord : List Host.Cell) (k : BitVec 9) (s : State) : State :=
  { s with freq := freq, ord := ord, k := k }

/-- NODE, NN and ROOT. -/
def State.setTree (node : List (Nat × HuffNode)) (nn : BitVec 9) (root : NodeNo) (s : State) : State :=
  { s with node := node, nn := nn, root := root }

/-- CLEN and CBITS. -/
def State.setCodes (clen : List Host.Cell) (cbits : List (Nat × Path)) (s : State) : State :=
  { s with clen := clen, cbits := cbits }

/-- OBUF and the four result registers (44_bit_packer.md R188). -/
def State.setContainer (obuf : List Host.Cell) (hdrLen padBits payLen outLen : Nat) (s : State) : State :=
  { s with
    obuf := obuf
    hdrLen := BitVec.ofNat 17 hdrLen
    padBits := BitVec.ofNat 3 padBits
    payLen := outTrunc s.cfg payLen
    outLen := outTrunc s.cfg outLen }

/-- The state `rst` leaves: the reset state, for the same parameters, with new free values in the memories no reset
clears; the host's side is not the block's (70_reset_and_hazards.md R260 to R263, log entry 10). -/
def State.afterRst (s : State) : State :=
  State.resetOf s.cfg (s.free.resets + 1) (s.free.epoch + 1) s.host

end Sys2Proof.Machine
end

