-- ==== Sys2Proof/Machine/Operands.lean ====
section
/-! DEFINITION. The implicit operands of the commands (30_encoding.md R93): the input, the code table and the entry to
insert, as they stand when the command reads them; and the two text encodings of numbers and bits (30_encoding.md R101
to R103). -/

namespace Sys2Proof.Machine

/-- The input S = IBUF[0..N−1] with N = LEN, in increasing index order (00_scope.md R14, 20_memory.md R68). -/
def State.input (s : State) : List Byte := (List.range s.len).map s.ibufAt

/-- The length in bits of the code of a symbol, 0 when it has none (10_state.md R39). -/
def State.codeLen (s : State) (b : Byte) : Nat := (s.clenAt b.toNat).toNat

/-- Bit j of the code of a symbol (10_state.md R40). -/
def State.codeBit (s : State) (b : Byte) (j : Nat) : Bool := (s.cbitsAt b.toNat).getLsbD j

/-- The code of a symbol as a bit string, first bit first (30_encoding.md R99). -/
def State.code (s : State) (b : Byte) : List Bool := (List.range (s.codeLen b)).map (s.codeBit b)

/-- The operand of PQ_INSERT (10_state.md R23). -/
def State.argEntry (s : State) : HeapEntry := { freq := s.argFreq, node := s.argNode }

/-- The symbols in increasing order, 0 to 255. -/
def allSymbols : List Byte := (List.range numSymbols).map (BitVec.ofNat 8)

/-- The ASCII byte of a decimal digit (30_encoding.md R101). -/
def asciiDigit (d : Nat) : Byte := BitVec.ofNat 8 (0x30 + d)

/-- `,` (30_encoding.md R101). -/
def asciiComma : Byte := 0x2C#8

/-- `:` (30_encoding.md R101). -/
def asciiColon : Byte := 0x3A#8

/-- `;` (30_encoding.md R101). -/
def asciiSemicolon : Byte := 0x3B#8

/-- The character of a code bit (30_encoding.md R103). -/
def asciiBit (b : Bool) : Byte := if b then asciiDigit 1 else asciiDigit 0

/-- `dec` with a bound on the number of digits. -/
def decUpTo : Nat → Nat → List Byte
  | 0, n => [asciiDigit (n % 10)]
  | digits + 1, n => if n < 10 then [asciiDigit n] else decUpTo digits (n / 10) ++ [asciiDigit (n % 10)]

/-- `dec(n)`, the decimal digit string of a number (30_encoding.md R102). -/
def dec (n : Nat) : List Byte := decUpTo n n

end Sys2Proof.Machine
end

