-- ==== Sys2Proof/Machine/BitPacker.lean ====
section
/-! DEFINITION. bit_packer: the command PACK (44_bit_packer.md). -/

namespace Sys2Proof.Machine

/-- Pass 1: the first input byte without a code and its index, the scan starting at index i (44_bit_packer.md R181). -/
def firstMissing (codeLen : Byte → Nat) : Nat → List Byte → Option (Byte × Nat)
  | _, [] => none
  | i, b :: rest => if codeLen b = 0 then some (b, i) else firstMissing codeLen (i + 1) rest

/-- Pass 1: T, the number of code bits of the input (44_bit_packer.md R181). -/
def totalBits (codeLen : Byte → Nat) (input : List Byte) : Nat := input.foldl (fun t b => t + codeLen b) 0

/-- The sizing loop for one symbol: H, and whether no pair came before (44_bit_packer.md R181). -/
def sizePair (codeLen : Byte → Nat) (acc : Bool × Nat) (sym : Byte) : Bool × Nat :=
  if codeLen sym = 0 then acc
  else (false, (if acc.1 then acc.2 else acc.2 + 1) + (dec sym.toNat).length + 1 + codeLen sym)

/-- H, the length of the header string (44_bit_packer.md R181). -/
def headerLength (codeLen : Byte → Nat) : Nat := (allSymbols.foldl (sizePair codeLen) (true, 0)).2

/-- P, the number of padding bits (30_encoding.md R100). -/
def padCount (t : Nat) : Nat := (8 - t % 8) % 8

/-- PAY, the number of payload bytes (44_bit_packer.md R181). -/
def payloadLength (t : Nat) : Nat := (t + padCount t) / 8

/-- TOTAL, the number of container bytes (44_bit_packer.md R181). -/
def containerLength (h t : Nat) : Nat := (dec h).length + 1 + h + payloadLength t

/-- OBUF and the packer's working registers WP, ACC, ACCN (10_state.md R43). ACCN is compared with 8 before it is
stored back as 0, so it is a number here (log entry 15). -/
structure Packer where
  obuf : List Host.Cell
  wp : Nat
  acc : Byte
  accn : Nat
deriving DecidableEq, Repr

/-- emit(x): OBUF[WP] <- x; WP = WP + 1 (44_bit_packer.md R181). -/
def Packer.emit (p : Packer) (x : Byte) : Packer := { p with obuf := Mem.put p.obuf p.wp x, wp := p.wp + 1 }

/-- Emit bytes in order. -/
def Packer.emitAll (p : Packer) (xs : List Byte) : Packer := xs.foldl Packer.emit p

/-- The header loop for one symbol; the flag says that no pair came before (44_bit_packer.md R181). -/
def Packer.emitPair (code : Byte → List Bool) (acc : Bool × Packer) (sym : Byte) : Bool × Packer :=
  if (code sym).length = 0 then acc
  else
    let p := if acc.1 then acc.2 else acc.2.emit asciiComma
    (false, ((p.emitAll (dec sym.toNat)).emit asciiColon).emitAll ((code sym).map asciiBit))

/-- One code bit shifted into ACC; the eighth completes a byte (44_bit_packer.md R181, R184). -/
def Packer.shiftBit (p : Packer) (bit : Bool) : Packer :=
  let acc := (p.acc <<< 1) ||| BitVec.setWidth 8 (BitVec.ofBool bit)
  if p.accn + 1 = 8 then { p.emit acc with acc := 0, accn := 0 } else { p with acc := acc, accn := p.accn + 1 }

/-- The last byte, completed with zero bits, if one was begun (44_bit_packer.md R181, R185). -/
def Packer.flush (p : Packer) : Packer := if p.accn = 0 then p else p.emit (p.acc <<< (8 - p.accn))

/-- Pass 2: length digits, `;`, header pairs, payload (44_bit_packer.md R181, R186). -/
def Packer.run (code : Byte → List Bool) (h : Nat) (input : List Byte) (obuf : List Host.Cell) : Packer :=
  let p0 := (Packer.emitAll { obuf := obuf, wp := 0, acc := 0, accn := 0 } (dec h)).emit asciiSemicolon
  let p1 := (allSymbols.foldl (Packer.emitPair code) (true, p0)).2
  let p2 := input.foldl (fun p b => (code b).foldl Packer.shiftBit p) { p1 with acc := 0, accn := 0 }
  p2.flush

/-- The pseudocode of PACK (44_bit_packer.md R181). -/
def packBody (s : State) : Ran :=
  let s := s.clearResults
  if s.cfg.ibufCap < s.len then raise .lenRange 0 0 s
  else if s.len = 0 then raise .emptyInput 0 0 s
  else
    match firstMissing s.codeLen 0 s.input with
    | some (sym, idx) => raise .missingCode sym idx s
    | none =>
      let t := totalBits s.codeLen s.input
      let h := headerLength s.codeLen
      if s.cfg.obufCap < containerLength h t then raise .outOverflow 0 0 s
      else
        let p := Packer.run s.code h s.input s.obuf
        .finished (s.setContainer p.obuf h (padCount t) (payloadLength t) p.wp)

/-- PACK (44_bit_packer.md R181). -/
def execPack (s : State) : Host.Outcome State Fault Refusal := runCommand .pack packBody s

end Sys2Proof.Machine
end

