-- ==== Sys2Proof/Machine/CodeAssigner.lean ====
section
/-! DEFINITION. CodeAssigner: the command CODE_ASSIGN (43_code_assigner.md). -/

namespace Sys2Proof.Machine

/-- The walk stack STK, its top first and SP its length, and the table being written (43_code_assigner.md R166). -/
structure Walk where
  stk : List StkEntry
  clen : List Host.Cell
  cbits : List (Nat × Path)
deriving DecidableEq, Repr

/-- CLEN[sym] <- len and CBITS[sym] <- path, written by the block. -/
def Walk.assign (w : Walk) (sym : Byte) (len : Byte) (path : Path) : Walk :=
  { w with
    clen := storeClen w.clen sym.toNat len
    cbits := Mem.put w.cbits sym.toNat path }

/-- The table after the clearing loop: every CLEN word 0 and so not listed, every CBITS word 0
(43_code_assigner.md R166). -/
def Walk.cleared (stk : List StkEntry) : Walk :=
  { stk := stk
    clen := []
    cbits := (List.range numSymbols).map fun i => (i, 0) }

/-- The path with bit L set: descending right appends 1 (43_code_assigner.md R166). -/
def pathRight (path : Path) (len : Byte) : Path := path ||| ((1 : Path) <<< len.toNat)

/-- One pass of the walk on the popped entry (43_code_assigner.md R166): the right child is pushed first, so the left
one is popped first. -/
def Walk.visit (node : HuffNode) (e : StkEntry) (w : Walk) : Walk :=
  match node with
  | .leaf sym _ => w.assign sym e.len e.path
  | .internal _ left right =>
    { w with
      stk :=
        { node := left, len := e.len + 1, path := e.path } ::
          { node := right, len := e.len + 1, path := pathRight e.path e.len } :: w.stk }

/-- The loop `while SP > 0`; the number of pops is bounded before it starts, one for each node (45_compress.md R205,
log entry 11). -/
def Walk.run (nodeAt : Nat → HuffNode) : Nat → Walk → Walk
  | 0, w => w
  | pops + 1, w =>
    match w.stk with
    | [] => w
    | e :: rest => Walk.run nodeAt pops (Walk.visit (nodeAt e.node.toNat) e { w with stk := rest })

/-- The whole table of the tree at `root`: the one-leaf tree gets the code `0` (43_code_assigner.md R166, R167). -/
def Walk.table (nodeAt : Nat → HuffNode) (root : NodeNo) : Walk :=
  match nodeAt root.toNat with
  | .leaf sym _ => (Walk.cleared []).assign sym 1 0
  | .internal _ _ _ => Walk.run nodeAt nodeCap (Walk.cleared [{ node := root, len := 0, path := 0 }])

/-- The pseudocode of CODE_ASSIGN (43_code_assigner.md R166). -/
def codeAssignBody (s : State) : Ran :=
  if s.status.treeValid then
    let w := Walk.table s.nodeAt s.root
    .finished (s.setCodes w.clen w.cbits)
  else raise .noTree 0 0 s

/-- CODE_ASSIGN (43_code_assigner.md R166). -/
def execCodeAssign (s : State) : Host.Outcome State Fault Refusal := runCommand .code codeAssignBody s

end Sys2Proof.Machine
end

