-- ==== Sys2Proof/Machine/FrequencyTable.lean ====
section
/-! DEFINITION. FrequencyTable: the command FREQ_COUNT (40_frequency_table.md). -/

namespace Sys2Proof.Machine

/-- The FREQ array, the ORD list and K (40_frequency_table.md R120). -/
structure FreqTable where
  freq : List (Nat × Nat)
  ord : List Host.Cell
  k : BitVec 9
deriving DecidableEq, Repr

/-- FREQ and K cleared, ORD as it is: every word of FREQ is 0, so none is listed (40_frequency_table.md R121). -/
def FreqTable.cleared (ord : List Host.Cell) : FreqTable := { freq := [], ord := ord, k := 0 }

/-- The loop body of FREQ_COUNT for the input byte b (40_frequency_table.md R121). -/
def FreqTable.count (c : Config) (t : FreqTable) (b : Byte) : FreqTable :=
  let t' := if freqWord t.freq b.toNat = 0 then { t with ord := Mem.put t.ord t.k.toNat b, k := t.k + 1 } else t
  { t' with freq := storeFreq t'.freq b.toNat (cntTrunc c (freqWord t'.freq b.toNat + 1)) }

/-- The pseudocode of FREQ_COUNT (40_frequency_table.md R121). -/
def freqCountBody (s : State) : Ran :=
  if s.cfg.ibufCap < s.len then raise .lenRange 0 0 s
  else
    let t := s.input.foldl (FreqTable.count s.cfg) (FreqTable.cleared s.ord)
    .finished (s.setTable t.freq t.ord t.k)

/-- FREQ_COUNT (40_frequency_table.md R121). -/
def execFreqCount (s : State) : Host.Outcome State Fault Refusal := runCommand .freq freqCountBody s

end Sys2Proof.Machine
end

