-- ==== Sys2Proof/Machine/PriorityQueue.lean ====
section
/-! DEFINITION. priority_queue_min_heap: pq_insert, pq_extract_min and the commands PQ_CLEAR, PQ_INSERT,
PQ_EXTRACT_MIN (41_priority_queue.md). -/

namespace Sys2Proof.Machine

/-- HEAP and HSIZE; the contents are HEAP[0..HSIZE−1] (41_priority_queue.md R130). -/
structure Queue where
  heap : List (Nat × HeapEntry)
  hsize : BitVec 9
deriving DecidableEq, Repr

/-- The queue of a state. -/
def State.queue (s : State) : Queue := { heap := s.heap, hsize := s.hsize }

/-- HEAP[i]; `fill` is what unlisted words hold. -/
def Queue.at (fill : Nat → HeapEntry) (q : Queue) (i : Nat) : HeapEntry := (Mem.find? q.heap i).getD (fill i)

/-- Exchange two whole entries (00_scope.md R11). -/
def Queue.swap (fill : Nat → HeapEntry) (q : Queue) (i j : Nat) : Queue :=
  { q with heap := Mem.put (Mem.put q.heap i (q.at fill j)) j (q.at fill i) }

/-- The loop of pq_insert from index i (41_priority_queue.md R132). Each pass at least halves i, so i passes are
enough. -/
def Queue.siftUp (fill : Nat → HeapEntry) : Nat → Queue → Nat → Queue
  | 0, q, _ => q
  | passes + 1, q, i =>
    if i = 0 then q
    else
      let p := (i - 1) / 2
      if (q.at fill i).freq < (q.at fill p).freq then Queue.siftUp fill passes (q.swap fill i p) p else q

/-- pq_insert (41_priority_queue.md R132). -/
def pqInsert (fill : Nat → HeapEntry) (q : Queue) (e : HeapEntry) : Queue :=
  let i := q.hsize.toNat
  Queue.siftUp fill i { heap := Mem.put q.heap i e, hsize := q.hsize + 1 } i

/-- The index that the two tests of pq_extract_min leave in m (41_priority_queue.md R133): the left child if it is
present and strictly smaller than entry i, then the right child if it is present and strictly smaller than that. -/
def Queue.smallest (fill : Nat → HeapEntry) (q : Queue) (i : Nat) : Nat :=
  let l := 2 * i + 1
  let r := 2 * i + 2
  let m := if l < q.hsize.toNat ∧ (q.at fill l).freq < (q.at fill i).freq then l else i
  if r < q.hsize.toNat ∧ (q.at fill r).freq < (q.at fill m).freq then r else m

/-- The loop of pq_extract_min from index i (41_priority_queue.md R133). Each pass goes down a level, so HSIZE passes
are enough. -/
def Queue.siftDown (fill : Nat → HeapEntry) : Nat → Queue → Nat → Queue
  | 0, q, _ => q
  | passes + 1, q, i =>
    let m := q.smallest fill i
    if m = i then q else Queue.siftDown fill passes (q.swap fill i m) m

/-- What pq_extract_min returns: the entry, or the `empty` sentinel with both results 0 (41_priority_queue.md R133). -/
structure Extracted where
  empty : Bool
  entry : HeapEntry
deriving DecidableEq, Repr

/-- pq_extract_min (41_priority_queue.md R133). -/
def pqExtractMin (fill : Nat → HeapEntry) (q : Queue) : Extracted × Queue :=
  if q.hsize = 0 then ({ empty := true, entry := { freq := 0, node := 0 } }, q)
  else
    let n := q.hsize - 1
    let q' : Queue :=
      if n = 0 then { q with hsize := n }
      else
        Queue.siftDown fill n.toNat { heap := Mem.put q.heap 0 (q.at fill n.toNat), hsize := n } 0
    ({ empty := false, entry := q.at fill 0 }, q')

/-- The pseudocode of PQ_CLEAR (41_priority_queue.md R134). -/
def pqClearBody (s : State) : Ran := .finished (s.setQueue s.heap 0)

/-- The pseudocode of PQ_INSERT (41_priority_queue.md R135). -/
def pqInsertBody (s : State) : Ran :=
  if s.hsize.toNat = queueCap then raise .pqFull 0 0 s
  else
    let q := pqInsert s.heapFill s.queue s.argEntry
    .finished (s.setQueue q.heap q.hsize)

/-- The pseudocode of PQ_EXTRACT_MIN (41_priority_queue.md R136). -/
def pqExtractMinBody (s : State) : Ran :=
  let x := pqExtractMin s.heapFill s.queue
  .finished ((s.setQueue x.2.heap x.2.hsize).setResult x.1.empty x.1.entry)

/-- PQ_CLEAR (41_priority_queue.md R134). -/
def execPqClear (s : State) : Host.Outcome State Fault Refusal := runCommand .pq pqClearBody s

/-- PQ_INSERT (41_priority_queue.md R135). -/
def execPqInsert (s : State) : Host.Outcome State Fault Refusal := runCommand .pq pqInsertBody s

/-- PQ_EXTRACT_MIN (41_priority_queue.md R136). -/
def execPqExtractMin (s : State) : Host.Outcome State Fault Refusal := runCommand .pq pqExtractMinBody s

end Sys2Proof.Machine
end

