-- ==== Sys2Proof/Machine/TreeBuilder.lean ====
section
/-! DEFINITION. TreeBuilder: the command TREE_BUILD (42_tree_builder.md). -/

namespace Sys2Proof.Machine

/-- NODE, NN and the queue while a tree is built (42_tree_builder.md R153). -/
structure Build where
  node : List (Nat × HuffNode)
  nn : BitVec 9
  queue : Queue
deriving DecidableEq, Repr

/-- One pass of step 1: the leaf of ORD[j] is node j (42_tree_builder.md R151, R153). -/
def Build.addLeaf (s : State) (b : Build) (j : Nat) : Build :=
  let sym := s.ordAt j
  let f := s.freqAt sym.toNat
  { b with
    node := Mem.put b.node j (.leaf sym f)
    queue := pqInsert s.heapFill b.queue { freq := f, node := BitVec.ofNat 9 j } }

/-- Step 1: a fresh queue, one leaf for each table entry in table order, NN = K (42_tree_builder.md R153). -/
def Build.leaves (s : State) : Build :=
  let b := (List.range s.k.toNat).foldl (Build.addLeaf s)
    { node := s.node, nn := s.nn, queue := { heap := s.heap, hsize := 0 } }
  { b with nn := s.k }

/-- One pass of step 2: the first extracted becomes left, the second right (42_tree_builder.md R153). -/
def Build.merge (c : Config) (fill : Nat → HeapEntry) (b : Build) : Build :=
  let x := pqExtractMin fill b.queue
  let y := pqExtractMin fill x.2
  let f := cntTrunc c (x.1.entry.freq + y.1.entry.freq)
  { node := Mem.put b.node b.nn.toNat (.internal f x.1.entry.node y.1.entry.node)
    nn := b.nn + 1
    queue := pqInsert fill y.2 { freq := f, node := b.nn } }

/-- Step 2, `while HSIZE > 1`; the number of passes is bounded before the loop starts (45_compress.md R205,
42_tree_builder.md R156, log entry 11). -/
def Build.mergeAll (c : Config) (fill : Nat → HeapEntry) : Nat → Build → Build
  | 0, b => b
  | passes + 1, b =>
    if 1 < b.queue.hsize.toNat then Build.mergeAll c fill passes (b.merge c fill) else b

/-- The pseudocode of TREE_BUILD (42_tree_builder.md R153). -/
def treeBuildBody (s : State) : Ran :=
  let s := s.setTreeValid false
  if s.k = 0 then raise .emptyInput 0 0 s
  else
    let b := Build.mergeAll s.cfg s.heapFill s.k.toNat (Build.leaves s)
    let x := pqExtractMin s.heapFill b.queue
    .finished
      ((((s.setTree b.node b.nn x.1.entry.node).setQueue x.2.heap x.2.hsize).setResult x.1.empty x.1.entry).setTreeValid
        true)

/-- TREE_BUILD (42_tree_builder.md R153). -/
def execTreeBuild (s : State) : Host.Outcome State Fault Refusal := runCommand .tree treeBuildBody s

end Sys2Proof.Machine
end

