-- ==== Sys2Proof/Machine/Compress.lean ====
section
/-! DEFINITION. The entry point: the commands COMPRESS and NOP (45_compress.md). -/

namespace Sys2Proof.Machine

/-- The pseudocode of COMPRESS: the four phases in order, an error ending the whole (45_compress.md R201, R204). -/
def compressBody (s : State) : Ran :=
  (freqCountBody (s.clearResults.enterPhase .freq)).andThen fun s1 =>
    (treeBuildBody (s1.enterPhase .tree)).andThen fun s2 =>
      (codeAssignBody (s2.enterPhase .code)).andThen fun s3 => packBody (s3.enterPhase .pack)

/-- COMPRESS (45_compress.md R201). -/
def execCompress (s : State) : Host.Outcome State Fault Refusal := runCommand .freq compressBody s

/-- NOP (45_compress.md R203): the common flags only; PHASE stays 0. -/
def execNop (s : State) : Host.Outcome State Fault Refusal := runCommand .idle Ran.finished s

end Sys2Proof.Machine
end

