-- ==== Sys2Proof/Machine/Dispatch.lean ====
section
/-! DEFINITION. The dispatch: one arm per command of 30_encoding.md R94. -/

namespace Sys2Proof.Machine

/-- The transition of an accepted command. -/
def exec (i : Instr) (s : State) : Host.Outcome State Fault Refusal :=
  match i with
  | .nop => Sys2Proof.Machine.execNop s
  | .compress => Sys2Proof.Machine.execCompress s
  | .freqCount => Sys2Proof.Machine.execFreqCount s
  | .treeBuild => Sys2Proof.Machine.execTreeBuild s
  | .codeAssign => Sys2Proof.Machine.execCodeAssign s
  | .pack => Sys2Proof.Machine.execPack s
  | .pqClear => Sys2Proof.Machine.execPqClear s
  | .pqInsert => Sys2Proof.Machine.execPqInsert s
  | .pqExtractMin => Sys2Proof.Machine.execPqExtractMin s

end Sys2Proof.Machine
end

