-- ==== Sys2Proof/Machine/Flags.lean ====
section
/-! DEFINITION. The STATUS word (10_state.md R28) and the output wire `done` (60_exceptions.md R243). What sets and
clears each flag (10_state.md R29) stands in State.accept, State.finish, State.raise, State.setResult and
State.setTreeValid. -/

namespace Sys2Proof.Machine

/-- The number of an error (60_exceptions.md R230). -/
def ErrCode.number : ErrCode → BitVec 3
  | .noError => 0
  | .emptyInput => 1
  | .missingCode => 2
  | .illegalCmd => 3
  | .pqFull => 4
  | .noTree => 5
  | .lenRange => 6
  | .outOverflow => 7

/-- The number of a phase (10_state.md R30). -/
def Phase.number : Phase → BitVec 3
  | .idle => 0
  | .freq => 1
  | .tree => 2
  | .code => 3
  | .pack => 4
  | .pq => 5

/-- The STATUS word: reserved 15:11, PHASE 10:8, reserved 7, ERR 6:4, RES_EMPTY 3, TREE_VALID 2, DONE 1, BUSY 0
(10_state.md R28). -/
def Status.word (st : Status) : BitVec 16 :=
  0#5 ++ st.phase.number ++ 0#1 ++ st.err.number ++ BitVec.ofBool st.resEmpty ++ BitVec.ofBool st.treeValid ++
    BitVec.ofBool st.done ++ BitVec.ofBool st.busy

/-- The output wire `done` equals STATUS.DONE at all times (60_exceptions.md R243). -/
def State.doneWire (s : State) : Bool := s.status.done

end Sys2Proof.Machine
end

