-- ==== Sys2Proof/Machine/HostPort.lean ====
section
/-! DEFINITION. The host's access to the block (20_memory.md R60 to R65, 10_state.md R20 to R31) and what the block does
on each host event (70_reset_and_hazards.md R263, R267, R274). -/

namespace Sys2Proof.Machine

/-- A host read of register `index` while BUSY = 0: the register zero-extended (10_state.md R20, R21, R31). -/
def State.readReg (s : State) : Nat → Nat
  | 0 => 0
  | 1 => s.status.word.toNat
  | 2 => s.len
  | 3 => s.argFreq
  | 4 => s.argNode.toNat
  | 5 => s.resFreq
  | 6 => s.resNode.toNat
  | 7 => s.errSym.toNat
  | 8 => s.errIdx
  | 9 => s.k.toNat
  | 10 => s.nn.toNat
  | 11 => s.root.toNat
  | 12 => s.hsize.toNat
  | 13 => s.hdrLen.toNat
  | 14 => s.padBits.toNat
  | 15 => s.payLen
  | 16 => s.outLen
  | _ => 0

/-- The width in bits of a word of a memory space (20_memory.md R60). -/
def Space.wordBits (c : Config) : Space → Nat
  | .reg => 0
  | .ibuf => 8
  | .obuf => 8
  | .freq => c.cntW
  | .ord => 8
  | .node => c.cntW + 27
  | .heap => c.cntW + 9
  | .clen => 8
  | .cbits => codeMax

/-- What a host read of a word that is not meaningful returns: some value of the word's width (20_memory.md R65, log
entry 4). -/
def State.notMeaningful (s : State) (sp : Space) (i : Nat) : Nat :=
  Config.notMeaningful s.free.epoch sp.number i % 2 ^ Space.wordBits s.cfg sp

/-- What the host sees of CBITS[i]: the CLEN[i] low bits are the code, the bits above are not meaningful, whoever wrote
the word and whoever wrote CLEN[i] (20_memory.md R65, 93_implementation_defined.md I11, log entry 5). -/
def State.readCbits (s : State) (i : Nat) : Nat :=
  let size := 2 ^ (s.clenAt i).toNat
  (s.cbitsAt i).toNat % size + s.notMeaningful .cbits i / size * size

/-- What the host sees of word `i`, in range, of a space while BUSY = 0 (20_memory.md R61, R65). DESIGN CHOICE: an IBUF
word at LEN or above that was written shows its stored byte (log entry 20). -/
def State.readWord (s : State) (sp : Space) (i : Nat) : Nat :=
  match sp with
  | .reg => s.readReg i
  | .ibuf => (s.ibufAt i).toNat
  | .obuf => if i < s.outLen then (s.obufAt i).toNat else s.notMeaningful .obuf i
  | .freq => s.freqAt i
  | .ord => if i < s.k.toNat then (s.ordAt i).toNat else s.notMeaningful .ord i
  | .node => if i < s.nn.toNat then (s.nodeAt i).word s.cfg else s.notMeaningful .node i
  | .heap => if i < s.hsize.toNat then (s.heapAt i).word s.cfg else s.notMeaningful .heap i
  | .clen => (s.clenAt i).toNat
  | .cbits => s.readCbits i

/-- HostRead(space, index) while BUSY = 0; 0 for a space or an index that does not exist (20_memory.md R62, R64). -/
def State.hostRead (s : State) (space index : Nat) : Nat :=
  match Space.ofNumber? space with
  | some sp => if index < sp.words s.cfg then s.readWord sp index else 0
  | none => 0

/-- A host write to register `index`, other than CMD: the low `width` bits of the value; a write to a read-only register
is ignored (10_state.md R20, R31). -/
def State.writeReg (s : State) (index value : Nat) : State :=
  match index with
  | 2 => { s with len := cntTrunc s.cfg value }
  | 3 => { s with argFreq := cntTrunc s.cfg value }
  | 4 => { s with argNode := BitVec.ofNat 9 value }
  | _ => s

/-- The epoch of the free values advances: other words than before may be meaningful (log entry 4). -/
def State.nextEpoch (s : State) : State := { s with free := { s.free with epoch := s.free.epoch + 1 } }

/-- A host write of word `i`, in range, of a space; ignored where the space is read-only to the host
(20_memory.md R60). A value wider than the word is truncated (log entry 13). -/
def State.writeWord (s : State) (sp : Space) (i value : Nat) : State :=
  match sp with
  | .reg => s.writeReg i value
  | .ibuf => { s with ibuf := Mem.put s.ibuf i (BitVec.ofNat 8 value) }
  | .clen => { s.nextEpoch with clen := storeClen s.clen i (BitVec.ofNat 8 value) }
  | .cbits => { s.nextEpoch with cbits := Mem.put s.cbits i (BitVec.ofNat 255 value) }
  | .obuf => s
  | .freq => s
  | .ord => s
  | .node => s
  | .heap => s

/-- HostWrite(space, index, value) while BUSY = 0, other than to CMD; ignored for a space or an index that does not
exist (20_memory.md R62, R64). -/
def State.hostWrite (s : State) (space index value : Nat) : State :=
  match Space.ofNumber? space with
  | some sp => if index < sp.words s.cfg then s.writeWord sp index value else s
  | none => s

/-- Whether an access addresses CMD, REG index 0 (10_state.md R20). -/
def isCmd (space index : Nat) : Bool := decide (space = 0 ∧ index = 0)

/-- Whether an access addresses STATUS, REG index 1 (10_state.md R20). -/
def isStatus (space index : Nat) : Bool := decide (space = 0 ∧ index = 1)

/-- A write to CMD while BUSY = 0: the word is decoded and its command runs; a reserved word completes with ILLEGAL_CMD
(10_state.md R21, 30_encoding.md R91, R95). -/
def command (value : Nat) (s : State) : Host.Outcome State Fault Refusal :=
  match decode? (commandWord value) with
  | some i => exec i s
  | none => illegalCommand s

/-- The host receives the word a read returned. -/
def State.answer (s : State) (w : Nat) : State := { s with host := { s.host with reads := w :: s.host.reads } }

/-- What a host event does (70_reset_and_hazards.md R274). -/
def serve (e : HostEvent) (s : State) : Host.Outcome State Fault Refusal :=
  match e with
  | .read space index =>
    if s.status.busy && !isStatus space index then .refused .accessDuringCommand
    else .next (s.answer (s.hostRead space index))
  | .write space index value =>
    if s.status.busy then .refused .accessDuringCommand
    else if isCmd space index then command value s
    else .next (s.hostWrite space index value)
  | .rst => .next s.afterRst
  | .commandCutByRst _ => .next s.afterRst
  | .rstWithAccess _ _ => .refused .rstWithAccess

/-- With no event to serve, an idle block changes nothing (70_reset_and_hazards.md R274); a state in the middle of a
command has no meaning here (R267). -/
def rest (s : State) : Host.Outcome State Fault Refusal :=
  if s.status.busy then .refused .accessDuringCommand else .next s

/-- The state without its first pending event. -/
def State.withPending (s : State) (events : List HostEvent) : State :=
  { s with host := { s.host with pending := events } }

/-- One step: the first pending host event is served (log entry 8). -/
def serveFirst (s : State) : Host.Outcome State Fault Refusal :=
  match s.host.pending with
  | [] => rest s
  | e :: events => serve e (s.withPending events)

/-- The state in which the next event is a write of this value to CMD and the block is idle (log entry 8). -/
def State.withCommand (s : State) (value : Nat) : State :=
  { s.withPending (.write 0 0 value :: s.host.pending) with status := { s.status with busy := false } }

/-- The host actions of LOAD: the input bytes in order, then LEN (30_encoding.md R111). -/
def loadEvents (bytes : List Nat) : List HostEvent :=
  (bytes.zipIdx.map fun p => HostEvent.write 1 p.2 p.1) ++ [.write 0 2 bytes.length]

/-- The number whose bit j is the j-th bit of a code (30_encoding.md R99, R111). -/
def bitsNumber : List Bool → Nat
  | [] => 0
  | b :: bs => b.toNat + 2 * bitsNumber bs

/-- The host actions of SETCODE (30_encoding.md R111). -/
def setCodeEvents (sym : Nat) (bits : List Bool) : List HostEvent :=
  [.write 7 sym bits.length, .write 8 sym (bitsNumber bits)]

/-- The host actions of CLRCODES (30_encoding.md R111). -/
def clearCodesEvents : List HostEvent := (List.range 256).map fun s => .write 7 s 0

/-- The host actions of CMD: the write, then STATUS read until BUSY = 0 (30_encoding.md R110). A command is one step
(45_compress.md R200), so the first read of STATUS ends the wait. -/
def cmdEvents (i : Instr) : List HostEvent := [.write 0 0 (encode i).toNat, .read 0 1]

/-- The host actions of INSERT (30_encoding.md R111). -/
def insertEvents (freq node : Nat) : List HostEvent := [.write 0 3 freq, .write 0 4 node] ++ cmdEvents .pqInsert

/-- The host actions of EXTRACT (30_encoding.md R111). -/
def extractEvents : List HostEvent := cmdEvents .pqExtractMin ++ [.read 0 5, .read 0 6]

end Sys2Proof.Machine
end

