-- ==== Sys2Proof/Machine/Step.lean ====
section
/-! DEFINITION. One step of the machine, and how an instruction of the opcode table is placed where the next step takes
it: as the next host write to CMD (20_memory.md R74, log entry 8). -/

namespace Sys2Proof.Machine

/-- One step: the first pending host event is served. -/
def step (s : State) : Host.Outcome State Fault Refusal := serveFirst s

/-- The state in which the next step runs the instruction whose low `nbits` bits are those of `w`. -/
def State.withFetchWord (s : State) (nbits w : Nat) : State := s.withCommand (tableValue nbits w)

end Sys2Proof.Machine
end

