-- ==== Sys2Proof/Safety.lean ====
section
/-! DEFINITION. The terms claims are stated in: the invariants the spec's prose gives (10_state.md R26, R35, R37,
41_priority_queue.md R137), what a command leaves unchanged, the tree, its codes and the container as plain
mathematical objects. -/

namespace Sys2Proof.Machine

/-! ## Invariants -/

/-- A value fits CNT_W bits (00_scope.md R8). -/
def fitsCnt (c : Config) (v : Nat) : Bool := decide (v < 2 ^ c.cntW)

/-- The registers of parameter width hold values of their width (10_state.md R20, 44_bit_packer.md R187). -/
def State.regsFit (s : State) : Bool :=
  fitsCnt s.cfg s.len && fitsCnt s.cfg s.argFreq && fitsCnt s.cfg s.resFreq && fitsCnt s.cfg s.errIdx &&
    decide (s.payLen ≤ s.cfg.obufCap) && decide (s.outLen ≤ s.cfg.obufCap)

/-- The memories are in canonical form, inside their spaces, and their words fit (20_memory.md R60). -/
def State.memsOk (s : State) : Bool :=
  Mem.wf s.cfg.ibufCap (fun _ => true) none s.ibuf &&
    Mem.wf s.cfg.obufCap (fun _ => true) none s.obuf &&
    Mem.wf numSymbols (fitsCnt s.cfg) (some 0) s.freq &&
    Mem.wf numSymbols (fun _ => true) none s.ord &&
    Mem.wf nodeCap (fun n => fitsCnt s.cfg n.freq) none s.node &&
    Mem.wf queueCap (fun e => fitsCnt s.cfg e.freq) none s.heap &&
    Mem.wf numSymbols (fun _ => true) (some 0) s.clen &&
    Mem.wf numSymbols (fun _ => true) none s.cbits

/-- Between host events no command is executing (10_state.md R30, 45_compress.md R200). -/
def State.idle (s : State) : Bool := !s.status.busy && decide (s.status.phase = .idle)

/-- The parameters are legal, the block is idle, every register and memory word fits, K ≤ 256 and HSIZE ≤ 256
(10_state.md R26). -/
def State.wf (s : State) : Bool :=
  s.cfg.wf && s.idle && s.regsFit && s.memsOk && decide (s.k.toNat ≤ numSymbols) && decide (s.hsize.toNat ≤ queueCap)

/-- Heap order (41_priority_queue.md R137). -/
def State.heapOrdered (s : State) : Bool :=
  (List.range s.hsize.toNat).all fun i => decide (i = 0 ∨ (s.heapAt ((i - 1) / 2)).freq ≤ (s.heapAt i).freq)

/-- The symbols of the FrequencyTable in first-seen order: ORD[0..K−1] (10_state.md R35). -/
def State.tableSymbols (s : State) : List Byte := (List.range s.k.toNat).map s.ordAt

/-- The sum of all counts. -/
def State.totalCount (s : State) : Nat := (allSymbols.map fun b => s.freqAt b.toNat).sum

/-- What holds of FREQ, ORD and K whichever input they came from (10_state.md R35, 40_frequency_table.md R123): ORD lists
each symbol that was counted, once, and the counts sum to a number that fits CNT_W bits. -/
def State.tableOk (s : State) : Bool :=
  decide s.tableSymbols.Nodup &&
    (allSymbols.all fun b => decide (s.freqAt b.toNat ≠ 0 ↔ b ∈ s.tableSymbols)) && fitsCnt s.cfg s.totalCount

/-- A Huffman tree with the node numbers of NODE (10_state.md R37). -/
inductive HTree where
  | leaf (num : Nat) (sym : Byte) (freq : Nat)
  | node (num : Nat) (freq : Nat) (left right : HTree)
deriving DecidableEq, Repr

/-- The frequency at a tree's root. -/
def HTree.freq : HTree → Nat
  | .leaf _ _ f => f
  | .node _ f _ _ => f

/-- The numbers of a tree's nodes. -/
def HTree.nums : HTree → List Nat
  | .leaf n _ _ => [n]
  | .node n _ l r => n :: (l.nums ++ r.nums)

/-- The leaves, left to right, as (number, symbol) pairs. -/
def HTree.leaves : HTree → List (Nat × Byte)
  | .leaf n s _ => [(n, s)]
  | .node _ _ l r => l.leaves ++ r.leaves

/-- The number of edges of a longest path. -/
def HTree.depth : HTree → Nat
  | .leaf _ _ _ => 0
  | .node _ _ l r => max l.depth r.depth + 1

/-- Every internal node's frequency is the sum of its children's, and its left child's is at most its right child's
(42_tree_builder.md R154, R155). -/
def HTree.freqsOk : HTree → Bool
  | .leaf _ _ _ => true
  | .node _ f l r => decide (f = l.freq + r.freq) && decide (l.freq ≤ r.freq) && l.freqsOk && r.freqsOk

/-- `tree(n)`, the tree below node n, provided each child's number is smaller than its parent's (10_state.md R37). The
first argument bounds the depth. -/
def treeBelow (nodeAt : Nat → HuffNode) : Nat → Nat → Option HTree
  | 0, _ => none
  | depth + 1, n =>
    match nodeAt n with
    | .leaf sym f => some (.leaf n sym f)
    | .internal f l r =>
      if l.toNat < n ∧ r.toNat < n then
        match treeBelow nodeAt depth l.toNat, treeBelow nodeAt depth r.toNat with
        | some a, some b => some (.node n f a b)
        | _, _ => none
      else none

/-- `tree(ROOT)` (10_state.md R37). -/
def State.tree? (s : State) : Option HTree := treeBelow s.nodeAt nodeCap s.root.toNat

/-- A tree is that of NODE[0..nn−1]: every node occurs once, the leaves are the first (nn + 1) / 2 nodes and carry
distinct symbols, and the frequencies are right (10_state.md R37, 42_tree_builder.md R154, R155). -/
def HTree.spans (t : HTree) (nn : Nat) : Bool :=
  decide (t.nums.length = nn) && decide t.nums.Nodup && (t.nums.all fun n => decide (n < nn)) &&
    decide (t.leaves.length * 2 = nn + 1) && (t.leaves.all fun p => decide (p.1 * 2 < nn)) &&
    decide (t.leaves.map Prod.snd).Nodup && t.freqsOk

/-- What TREE_VALID = 1 says (10_state.md R26, R28, R37). -/
def State.treeOk (s : State) : Bool :=
  !s.status.treeValid ||
    (decide (1 ≤ s.nn.toNat) && decide (s.root.toNat = s.nn.toNat - 1) &&
      match s.tree? with
      | some t => t.spans s.nn.toNat
      | none => false)

/-- Everything above together. -/
def State.inv (s : State) : Bool := s.wf && s.heapOrdered && s.tableOk && s.treeOk

/-! ## What a command leaves unchanged -/

/-- `s` with only what every command writes taken from `t`: BUSY, DONE, ERR, PHASE, ERR_SYM, ERR_IDX (45_compress.md
R200), the hidden registers (10_state.md R44) and the epoch of the free values (log entry 4). -/
def State.withCommon (s t : State) : State :=
  { s with
    status :=
      { s.status with busy := t.status.busy, done := t.status.done, err := t.status.err, phase := t.status.phase }
    errSym := t.errSym
    errIdx := t.errIdx
    hidden := t.hidden
    free := { s.free with epoch := t.free.epoch } }

/-- The common completion state of a command that ended with this error report (45_compress.md R200). -/
def State.reports (t : State) (e : ErrCode) (sym : Byte) (idx : Nat) : Prop :=
  t.status.busy = false ∧ t.status.done = true ∧ t.status.phase = .idle ∧ t.status.err = e ∧ t.errSym = sym ∧
    t.errIdx = idx

/-- A command that ended without an error. -/
def State.succeeds (t : State) : Prop := t.reports .noError 0 0

/-! ## The queue as a list -/

/-- HEAP[0..HSIZE−1] (41_priority_queue.md R130). -/
def State.queueList (s : State) : List HeapEntry := (List.range s.hsize.toNat).map s.heapAt

/-! ## Codes, payload, header, container (30_encoding.md R97 to R106) -/

/-- The branch bits from the root to each leaf, 0 left and 1 right (30_encoding.md R98). -/
def HTree.paths : HTree → List (Byte × List Bool)
  | .leaf _ s _ => [(s, [])]
  | .node _ _ l r => (l.paths.map fun p => (p.1, false :: p.2)) ++ (r.paths.map fun p => (p.1, true :: p.2))

/-- The CodeTable of a tree: the one-leaf tree gives its symbol the code `0` (43_code_assigner.md R167, R168). -/
def HTree.codeTable : HTree → List (Byte × List Bool)
  | .leaf _ s _ => [(s, [false])]
  | .node n f l r => (HTree.node n f l r).paths

/-- No code of the table is a prefix of another (00_scope.md R13). -/
def PrefixFree (code : Byte → List Bool) : Prop :=
  ∀ a b : Byte, a ≠ b → code a ≠ [] → code b ≠ [] → ¬ code a <+: code b

/-- The bit buffer: the codes of the input bytes in order (30_encoding.md R100). -/
def bitBuffer (code : Byte → List Bool) (input : List Byte) : List Bool := input.flatMap code

/-- The bit buffer padded with zero bits to a multiple of 8 (30_encoding.md R100). -/
def padded (bits : List Bool) : List Bool := bits ++ List.replicate ((8 - bits.length % 8) % 8) false

/-- The byte of eight bits, the earliest most significant (20_memory.md R66). -/
def byteOfBits (bits : List Bool) : Byte := BitVec.ofNat 8 (bits.foldl (fun n b => 2 * n + b.toNat) 0)

/-- A bit string cut into groups of eight, each packed into a byte (30_encoding.md R100). -/
def pack8 : List Bool → List Byte
  | b0 :: b1 :: b2 :: b3 :: b4 :: b5 :: b6 :: b7 :: rest => byteOfBits [b0, b1, b2, b3, b4, b5, b6, b7] :: pack8 rest
  | _ => []

/-- The payload (44_bit_packer.md R189). -/
def payload (code : Byte → List Bool) (input : List Byte) : List Byte := pack8 (padded (bitBuffer code input))

/-- One pair of the header (30_encoding.md R104). -/
def pairText (code : Byte → List Bool) (s : Byte) : List Byte :=
  dec s.toNat ++ asciiColon :: (code s).map asciiBit

/-- The header string (30_encoding.md R105). -/
def header (code : Byte → List Bool) : List Byte :=
  List.intercalate [asciiComma] ((allSymbols.filter fun s => code s ≠ []).map (pairText code))

/-- The container (30_encoding.md R106, 44_bit_packer.md R189). -/
def container (code : Byte → List Bool) (input : List Byte) : List Byte :=
  dec (header code).length ++ asciiSemicolon :: (header code ++ payload code input)

/-- OBUF[0..OUT_LEN−1] (10_state.md R41). -/
def State.output (s : State) : List Byte := (List.range s.outLen).map s.obufAt

/-- Two states hold the same input: N and IBUF[0..N−1] (00_scope.md R14). -/
def State.sameInput (s t : State) : Prop := s.cfg = t.cfg ∧ s.len = t.len ∧ s.input = t.input

end Sys2Proof.Machine
end

