-- ==== Sys2Proof/Certificates/Slice0/Obligations.lean ====
section
/-! DEFINITION. What is claimed of the machine, for the provers. Each docstring names the rules it formalises. A state
`s.withCommon t` is `s` with only what every command writes taken from `t`; the updates setQueue, setTable and so on
name what else a command may write, so an equation `t = …` is the command's frame. -/

open Sys2Proof Sys2Proof.Machine

/-! ## Decoding and the step -/

/-- 30_encoding.md R91: a written value selects a command exactly when its low 8 bits are that command's match value of
R94; a word with a non-zero `zero` field selects none. -/
def Obligations.WordSelectsExactlyItsCommand : Prop :=
  (∀ i : Instr, decode (encode i) = .ok i) ∧
    (∀ (v : Nat) (i : Instr), decode? (commandWord v) = some i ↔ v % 256 = (encode i).toNat) ∧
    (∀ w : BitVec 8, (FormatC.ofWord w).zero ≠ 0 → decode? w = none) ∧
    [Instr.nop, .compress, .freqCount, .treeBuild, .codeAssign, .pack, .pqClear, .pqInsert, .pqExtractMin].map encode =
      [0x00#8, 0x01#8, 0x02#8, 0x03#8, 0x04#8, 0x05#8, 0x06#8, 0x07#8, 0x08#8]

/-- 30_encoding.md R94: the words of the opcode map, written out. -/
def Obligations.OpcodeMapWords : Prop :=
  decode? 0b00000000#8 = some .nop ∧ decode? 0b00000001#8 = some .compress ∧ decode? 0b00000010#8 = some .freqCount ∧
    decode? 0b00000011#8 = some .treeBuild ∧ decode? 0b00000100#8 = some .codeAssign ∧
    decode? 0b00000101#8 = some .pack ∧ decode? 0b00000110#8 = some .pqClear ∧
    decode? 0b00000111#8 = some .pqInsert ∧ decode? 0b00001000#8 = some .pqExtractMin

/-- 30_encoding.md R95, R96: a word is one of the nine or reserved. -/
def Obligations.ReservedWordsSelectNoCommand : Prop :=
  ∀ w : BitVec 8, decode? w = none ↔ 9 ≤ w.toNat

/-- 10_state.md R21, 30_encoding.md R91: a host write to CMD of an idle block runs the command its low 8 bits select.
Around exec, the step only takes the event off the pending ones (log entry 8). -/
def Obligations.StepRunsTheWrittenCommand : Prop :=
  ∀ (s : State) (v : Nat) (es : List HostEvent) (i : Instr), s.status.busy = false →
    s.host.pending = .write 0 0 v :: es → decode? (commandWord v) = some i → step s = exec i (s.withPending es)

/-- A placed instruction of the opcode table is what the next step runs (log entry 8). -/
def Obligations.PlacedWordRunsNext : Prop :=
  ∀ (s : State) (nbits w : Nat) (i : Instr), decodeTableWord nbits w = some i →
    step (s.withFetchWord nbits w) = exec i { s with status := { s.status with busy := false } }

/-- 30_encoding.md R95, 60_exceptions.md R233: a reserved word completes with ERR = 3, ILLEGAL_CMD, and changes nothing
else. -/
def Obligations.ReservedWordFailsWithIllegalCmd : Prop :=
  ErrCode.number .illegalCmd = 3 ∧
    ∀ (s : State) (v : Nat) (es : List HostEvent), s.status.busy = false → s.host.pending = .write 0 0 v :: es →
      9 ≤ v % 256 →
      ∃ t, step s = .next t ∧ t.reports .illegalCmd 0 0 ∧ t = (s.withPending es).withCommon t

/-- 70_reset_and_hazards.md R274: without an event an idle block changes nothing (log entry 9). -/
def Obligations.IdleBlockStaysPut : Prop :=
  ∀ s : State, s.status.busy = false → s.host.pending = [] → step s = .next s

/-! ## Every command -/

/-- 45_compress.md R200, 70_reset_and_hazards.md R272: every command completes, and leaves the block idle. -/
def Obligations.EveryCommandCompletes : Prop :=
  ∀ (i : Instr) (s : State), ∃ t, exec i s = .next t ∧ t.status.busy = false ∧ t.status.done = true ∧
    t.status.phase = .idle

/-- 10_state.md R25: ERR_SYM and ERR_IDX are written at every completion, with the offending symbol and its input index
after MISSING_CODE and with 0 otherwise. -/
def Obligations.ErrorReportNamesTheOffendingByte : Prop :=
  ∀ (i : Instr) (s t : State), s.cfg.wf = true → (exec i s = .next t ∨ illegalCommand s = .next t) →
    (t.status.err ≠ .missingCode → t.errSym = 0 ∧ t.errIdx = 0) ∧
      (t.status.err = .missingCode →
        t.errIdx < s.len ∧ t.errSym = s.ibufAt t.errIdx ∧ t.codeLen t.errSym = 0 ∧
          ∀ j, j < t.errIdx → t.codeLen (s.ibufAt j) ≠ 0)

/-- 45_compress.md R204: the errors each command can report; COMPRESS has a statement of its own. -/
def Obligations.ErrorsEachCommandCanReport : Prop :=
  ∀ (i : Instr) (s t : State), exec i s = .next t →
    match i with
    | .nop | .pqClear | .pqExtractMin => t.status.err = .noError
    | .pqInsert => t.status.err ∈ [ErrCode.noError, .pqFull]
    | .freqCount => t.status.err ∈ [ErrCode.noError, .lenRange]
    | .treeBuild => t.status.err ∈ [ErrCode.noError, .emptyInput]
    | .codeAssign => t.status.err ∈ [ErrCode.noError, .noTree]
    | .pack => t.status.err ∈ [ErrCode.noError, .lenRange, .emptyInput, .missingCode, .outOverflow]
    | .compress => t.status.err ≠ .noTree ∧ t.status.err ≠ .pqFull ∧ t.status.err ≠ .illegalCmd

/-- 70_reset_and_hazards.md R274, 10_state.md R22, R23, R32, R45: no command writes LEN, ARG_FREQ, ARG_NODE, IBUF or the
parameters. -/
def Obligations.NoCommandWritesTheHostsInputs : Prop :=
  ∀ (i : Instr) (s t : State), exec i s = .next t →
    t.len = s.len ∧ t.argFreq = s.argFreq ∧ t.argNode = s.argNode ∧ t.ibuf = s.ibuf ∧ t.cfg = s.cfg ∧ t.host = s.host ∧
      t.free.resets = s.free.resets

/-- 10_state.md R26, R27, R29, R33, R34, R36, R38 to R41, 20_memory.md R60: each register and memory is written by its
own commands only. -/
def Obligations.OnlyTheirCommandsWriteThem : Prop :=
  ∀ (i : Instr) (s t : State), exec i s = .next t →
    (i ∉ [Instr.freqCount, .compress] → t.freq = s.freq ∧ t.ord = s.ord ∧ t.k = s.k) ∧
    (i ∉ [Instr.treeBuild, .compress] →
      t.node = s.node ∧ t.nn = s.nn ∧ t.root = s.root ∧ t.status.treeValid = s.status.treeValid) ∧
    (i ∉ [Instr.codeAssign, .compress] → t.clen = s.clen ∧ t.cbits = s.cbits) ∧
    (i ∉ [Instr.pack, .compress] →
      t.obuf = s.obuf ∧ t.hdrLen = s.hdrLen ∧ t.padBits = s.padBits ∧ t.payLen = s.payLen ∧ t.outLen = s.outLen) ∧
    (i ∉ [Instr.pqClear, .pqInsert, .pqExtractMin, .treeBuild, .compress] → t.heap = s.heap ∧ t.hsize = s.hsize) ∧
    (i ∉ [Instr.pqExtractMin, .treeBuild, .compress] →
      t.resFreq = s.resFreq ∧ t.resNode = s.resNode ∧ t.status.resEmpty = s.status.resEmpty)

/-- 60_exceptions.md R239: what each error leaves, and that OBUF is never written by a command that ends with one. -/
def Obligations.StateLeftByAnError : Prop :=
  ∀ s t : State, s.cfg.wf = true → t.status.err ≠ .noError →
    (illegalCommand s = .next t → t = s.withCommon t) ∧
    (exec .pqInsert s = .next t → t = s.withCommon t) ∧
    (exec .codeAssign s = .next t → t = s.withCommon t) ∧
    (exec .freqCount s = .next t → t = s.withCommon t) ∧
    (exec .treeBuild s = .next t → t = (s.withCommon t).setTreeValid false) ∧
    (exec .pack s = .next t → t = (s.withCommon t).clearResults) ∧
    (exec .compress s = .next t → t.status.err = .lenRange → t = (s.withCommon t).clearResults) ∧
    (exec .compress s = .next t → t.status.err = .emptyInput →
      t = (((s.withCommon t).clearResults).setTable [] s.ord 0).setTreeValid false) ∧
    (exec .compress s = .next t → t.status.err = .outOverflow →
      ∃ s1 s2 s3, exec .freqCount s = .next s1 ∧ exec .treeBuild s1 = .next s2 ∧ exec .codeAssign s2 = .next s3 ∧
        t = (s3.withCommon t).clearResults) ∧
    (∀ i, exec i s = .next t → t.obuf = s.obuf)

/-! ## Invariants -/

/-- Every reset state, whichever the parameters, meets every invariant. -/
def Obligations.ResetMeetsTheInvariants : Prop :=
  State.reset.inv = true ∧
    ∀ (c : Config) (resets epoch : Nat) (h : HostPort), c.wf = true → (State.resetOf c resets epoch h).inv = true

/-- 10_state.md R26, R30, 20_memory.md R60, R64, 44_bit_packer.md R187: legal parameters, an idle block, registers and
words of their widths, memories in canonical form inside their spaces, K ≤ 256 and HSIZE ≤ 256 are kept by every step. -/
def Obligations.StepKeepsWellFormed : Prop :=
  ∀ s t : State, s.wf = true → step s = .next t → t.wf = true

/-- 41_priority_queue.md R137: every step keeps the heap order. -/
def Obligations.StepKeepsHeapOrder : Prop :=
  ∀ s t : State, s.heapOrdered = true → step s = .next t → t.heapOrdered = true

/-- 10_state.md R35, 40_frequency_table.md R123: every step keeps the FrequencyTable sound. -/
def Obligations.StepKeepsTheFrequencyTable : Prop :=
  ∀ s t : State, s.cfg.wf = true → s.tableOk = true → step s = .next t → t.tableOk = true

/-- 10_state.md R26, R28, R37, 42_tree_builder.md R154, R155: whenever TREE_VALID is 1, NODE, NN and ROOT hold a Huffman
tree; kept by every step together with the other invariants. -/
def Obligations.StepKeepsTheTree : Prop :=
  ∀ s t : State, s.inv = true → step s = .next t → t.inv = true

/-! ## NOP and the queue -/

/-- 45_compress.md R203. -/
def Obligations.NopWritesOnlyTheReport : Prop :=
  decode? 0x00#8 = some .nop ∧ ∀ s : State, ∃ t, exec .nop s = .next t ∧ t.succeeds ∧ t = s.withCommon t

/-- 41_priority_queue.md R134. -/
def Obligations.PqClearEmptiesTheQueue : Prop :=
  ∀ s : State, ∃ t, exec .pqClear s = .next t ∧ t.succeeds ∧ t = (s.withCommon t).setQueue s.heap 0

/-- 41_priority_queue.md R135, R138: PQ_INSERT adds its entry to the contents and alters, loses or duplicates none. -/
def Obligations.PqInsertAddsItsEntry : Prop :=
  ∀ s : State, s.hsize.toNat < 256 →
    ∃ t, exec .pqInsert s = .next t ∧ t.succeeds ∧ t = (s.withCommon t).setQueue t.heap (s.hsize + 1) ∧
      t.queueList.Perm (s.argEntry :: s.queueList) ∧
      ∀ i, s.hsize.toNat < i → Mem.find? t.heap i = Mem.find? s.heap i

/-- 41_priority_queue.md R132: an entry not strictly less than its parent stays at the end, and no other entry moves. -/
def Obligations.PqInsertStaysUnderAnEqualParent : Prop :=
  ∀ s : State, s.hsize.toNat < 256 →
    (s.hsize.toNat = 0 ∨ (s.heapAt ((s.hsize.toNat - 1) / 2)).freq ≤ s.argFreq) →
    ∃ t, exec .pqInsert s = .next t ∧ t.heapAt s.hsize.toNat = s.argEntry ∧
      ∀ i, i ≠ s.hsize.toNat → t.heapAt i = s.heapAt i

/-- 60_exceptions.md R234: what raises PQ_FULL, what it leaves, and that no command but PQ_INSERT reports it. -/
def Obligations.PqInsertIntoAFullQueueFails : Prop :=
  (∀ s : State, s.hsize.toNat = 256 →
    ∃ t, exec .pqInsert s = .next t ∧ t.reports .pqFull 0 0 ∧ t = s.withCommon t) ∧
    ErrCode.number .pqFull = 4 ∧ ∀ (i : Instr) (s t : State), i ≠ .pqInsert → exec i s = .next t → t.status.err ≠ .pqFull

/-- 41_priority_queue.md R133, R136, R137, R138: PQ_EXTRACT_MIN removes the root, an entry of minimum frequency, and
alters, loses or duplicates no other. -/
def Obligations.PqExtractMinRemovesAMinimum : Prop :=
  ∀ s : State, s.hsize ≠ 0 → s.heapOrdered = true →
    ∃ t, exec .pqExtractMin s = .next t ∧ t.succeeds ∧
      t = ((s.withCommon t).setQueue t.heap (s.hsize - 1)).setResult false (s.heapAt 0) ∧
      (∀ e ∈ s.queueList, t.resFreq ≤ e.freq) ∧ s.queueList.Perm (s.heapAt 0 :: t.queueList) ∧
      ∀ i, s.hsize.toNat - 1 ≤ i → Mem.find? t.heap i = Mem.find? s.heap i

/-- 41_priority_queue.md R133, R136: the empty sentinel is no error. -/
def Obligations.PqExtractMinFromAnEmptyQueue : Prop :=
  ∀ s : State, s.hsize = 0 →
    ∃ t, exec .pqExtractMin s = .next t ∧ t.succeeds ∧
      t = (s.withCommon t).setResult true { freq := 0, node := 0 }

/-- 41_priority_queue.md R133: at every index of the sift with two children, the left one is promoted where it is
strictly smaller than the moved entry and at most the right one, so of two equal ones the left; the right one only where
it is strictly smaller than both; and none where neither is strictly smaller than the moved entry. At the root, as PQ_EXTRACT_MIN shows it: the right one stays. -/
def Obligations.ExtractPromotesTheLeftOfEqualChildren : Prop :=
  (∀ (fill : Nat → HeapEntry) (q : Queue) (i passes : Nat), 2 * i + 2 < q.hsize.toNat →
    ((q.at fill (2 * i + 1)).freq ≤ (q.at fill (2 * i + 2)).freq →
      (q.at fill (2 * i + 1)).freq < (q.at fill i).freq →
      q.smallest fill i = 2 * i + 1 ∧
        Queue.siftDown fill (passes + 1) q i =
          Queue.siftDown fill passes (q.swap fill i (2 * i + 1)) (2 * i + 1)) ∧
    ((q.at fill (2 * i + 2)).freq < (q.at fill (2 * i + 1)).freq →
      (q.at fill (2 * i + 2)).freq < (q.at fill i).freq →
      q.smallest fill i = 2 * i + 2 ∧
        Queue.siftDown fill (passes + 1) q i =
          Queue.siftDown fill passes (q.swap fill i (2 * i + 2)) (2 * i + 2)) ∧
    ((q.at fill i).freq ≤ (q.at fill (2 * i + 1)).freq → (q.at fill i).freq ≤ (q.at fill (2 * i + 2)).freq →
      q.smallest fill i = i ∧ Queue.siftDown fill (passes + 1) q i = q)) ∧
  ∀ s : State, 4 ≤ s.hsize.toNat → (s.heapAt 1).freq = (s.heapAt 2).freq →
    (s.heapAt 1).freq < (s.heapAt (s.hsize.toNat - 1)).freq →
    ∃ t, exec .pqExtractMin s = .next t ∧ t.heapAt 0 = s.heapAt 1 ∧ t.heapAt 2 = s.heapAt 2

/-! ## FREQ_COUNT -/

/-- 40_frequency_table.md R121, R123. -/
def Obligations.FreqCountCountsTheInput : Prop :=
  ∀ s : State, s.cfg.wf = true → s.len ≤ s.cfg.ibufCap →
    ∃ t, exec .freqCount s = .next t ∧ t.succeeds ∧ t = (s.withCommon t).setTable t.freq t.ord t.k ∧
      (∀ b : Byte, t.freqAt b.toNat = s.input.count b) ∧
      t.k.toNat = (allSymbols.filter fun b => 1 ≤ t.freqAt b.toNat).length ∧
      t.tableSymbols.Nodup ∧ (∀ b : Byte, b ∈ t.tableSymbols ↔ 1 ≤ t.freqAt b.toNat) ∧
      t.tableSymbols.Pairwise (fun a b => s.input.idxOf a < s.input.idxOf b) ∧ t.totalCount = s.len ∧
      ∀ j, t.k.toNat ≤ j → Mem.find? t.ord j = Mem.find? s.ord j

/-- 40_frequency_table.md R121, 60_exceptions.md R236. -/
def Obligations.FreqCountRejectsALongInput : Prop :=
  ∀ s : State, s.cfg.ibufCap < s.len →
    ∃ t, exec .freqCount s = .next t ∧ t.reports .lenRange 0 0 ∧ t = s.withCommon t

/-- 40_frequency_table.md R124: the counts do not depend on the order of the input. -/
def Obligations.CountsIgnoreTheOrderOfTheInput : Prop :=
  ∀ s1 s2 t1 t2 : State, s1.cfg.wf = true → s1.cfg = s2.cfg → s1.len ≤ s1.cfg.ibufCap → s1.input.Perm s2.input →
    exec .freqCount s1 = .next t1 → exec .freqCount s2 = .next t2 → t1.freq = t2.freq ∧ t1.k = t2.k

/-! ## TREE_BUILD -/

/-- 42_tree_builder.md R153, 60_exceptions.md R231, R239. -/
def Obligations.TreeBuildOfAnEmptyTableFails : Prop :=
  ∀ s : State, s.k = 0 →
    ∃ t, exec .treeBuild s = .next t ∧ t.reports .emptyInput 0 0 ∧ t = (s.withCommon t).setTreeValid false

/-- 42_tree_builder.md R151, R153, R156: what TREE_BUILD leaves in its registers, the leaves, and what it leaves alone. -/
def Obligations.TreeBuildCompletes : Prop :=
  ∀ s : State, s.k ≠ 0 → s.k.toNat ≤ 256 →
    ∃ t, exec .treeBuild s = .next t ∧ t.succeeds ∧
      t = ((((s.withCommon t).setTree t.node t.nn t.root).setQueue t.heap 0).setResult false
        { freq := t.resFreq, node := t.root }).setTreeValid true ∧
      t.nn.toNat = 2 * s.k.toNat - 1 ∧ t.root.toNat = 2 * s.k.toNat - 2 ∧
      (∀ j, j < s.k.toNat → t.nodeAt j = .leaf (s.ordAt j) (s.freqAt (s.ordAt j).toNat)) ∧
      (∀ n, t.nn.toNat ≤ n → Mem.find? t.node n = Mem.find? s.node n) ∧
      ∀ i, s.k.toNat ≤ i → Mem.find? t.heap i = Mem.find? s.heap i

/-- 42_tree_builder.md R154, R155: from a sound FrequencyTable TREE_BUILD makes a Huffman tree whose leaves carry the
table's symbols, whose frequencies are sums, whose left children are no heavier than the right ones, and whose depth is
at most K − 1. -/
def Obligations.TreeBuildBuildsAHuffmanTree : Prop :=
  ∀ s : State, s.tableOk = true → s.k ≠ 0 →
    ∃ t T, exec .treeBuild s = .next t ∧ t.status.treeValid = true ∧ t.tree? = some T ∧
      T.spans t.nn.toNat = true ∧ (T.leaves.map Prod.snd).Perm s.tableSymbols ∧ T.depth + 1 ≤ s.k.toNat ∧
      T.freq = s.totalCount ∧ t.resFreq = s.totalCount

/-- 42_tree_builder.md R157. -/
def Obligations.TreeBuildOfOneSymbol : Prop :=
  ∀ s : State, s.k = 1 →
    ∃ t, exec .treeBuild s = .next t ∧ t.nodeAt 0 = .leaf (s.ordAt 0) (s.freqAt (s.ordAt 0).toNat) ∧ t.nn = 1 ∧
      t.root = 0 ∧ t.status.treeValid = true ∧ t.hsize = 0 ∧ t.resFreq = s.freqAt (s.ordAt 0).toNat ∧ t.resNode = 0

/-! ## CODE_ASSIGN -/

/-- 60_exceptions.md R235: what raises NO_TREE, what it leaves, and that no command but CODE_ASSIGN reports it. -/
def Obligations.CodeAssignWithoutATreeFails : Prop :=
  (∀ s : State, s.status.treeValid = false →
    ∃ t, exec .codeAssign s = .next t ∧ t.reports .noTree 0 0 ∧ t = s.withCommon t) ∧
    ErrCode.number .noTree = 5 ∧ ∀ (i : Instr) (s t : State), i ≠ .codeAssign → exec i s = .next t → t.status.err ≠ .noTree

/-- 43_code_assigner.md R166, R167, R168, 10_state.md R40: the code of each leaf's symbol is the path to it, the one leaf
of a one-leaf tree gets `0`, no other symbol has a code, and the stored bits from CLEN on are 0 (log entry 14; what a host
read shows of them is any value, log entry 5). -/
def Obligations.CodeAssignGivesRootToLeafPaths : Prop :=
  ∀ (s : State) (T : HTree), s.status.treeValid = true → s.tree? = some T → T.spans s.nn.toNat = true →
    ∃ t, exec .codeAssign s = .next t ∧ t.succeeds ∧ t = (s.withCommon t).setCodes t.clen t.cbits ∧
      (∀ p ∈ T.codeTable, t.code p.1 = p.2) ∧ (∀ b : Byte, b ∉ T.leaves.map Prod.snd → t.codeLen b = 0) ∧
      ∀ b : Byte, (t.cbitsAt b.toNat).toNat < 2 ^ t.codeLen b

/-- 43_code_assigner.md R167: the one-leaf tree. -/
def Obligations.CodeAssignOfOneLeaf : Prop :=
  ∀ (s : State) (sym : Byte) (f : Nat), s.status.treeValid = true → s.nodeAt s.root.toNat = .leaf sym f →
    ∃ t, exec .codeAssign s = .next t ∧ t.code sym = [false] ∧ t.cbitsAt sym.toNat = 0 ∧
      ∀ b : Byte, b ≠ sym → t.codeLen b = 0

/-- 43_code_assigner.md R171, 45_compress.md R209. -/
def Obligations.AssignedCodesArePrefixFree : Prop :=
  ∀ s t : State, s.treeOk = true → exec .codeAssign s = .next t → t.status.err = .noError → PrefixFree t.code

/-! ## PACK -/

/-- 44_bit_packer.md R181, R186, R188, R189: a successful PACK writes the container and describes it. -/
def Obligations.PackWritesTheContainer : Prop :=
  ∀ s : State, 1 ≤ s.len → s.len ≤ s.cfg.ibufCap → (∀ b ∈ s.input, s.codeLen b ≠ 0) →
    (container s.code s.input).length ≤ s.cfg.obufCap →
    ∃ t, exec .pack s = .next t ∧ t.succeeds ∧ t.output = container s.code s.input ∧
      t.outLen = (container s.code s.input).length ∧ t.hdrLen.toNat = (header s.code).length ∧
      t.padBits.toNat = (8 - (bitBuffer s.code s.input).length % 8) % 8 ∧
      t.payLen = (payload s.code s.input).length ∧
      t = { s.withCommon t with
        obuf := t.obuf, hdrLen := t.hdrLen, padBits := t.padBits, payLen := t.payLen, outLen := t.outLen } ∧
      ∀ i, t.outLen ≤ i → Mem.find? t.obuf i = Mem.find? s.obuf i

/-- 44_bit_packer.md R181, 60_exceptions.md R238: PACK reports the first error of its order. -/
def Obligations.PackReportsTheFirstError : Prop :=
  ∀ s : State, ∃ t, exec .pack s = .next t ∧
    t.status.err =
      if s.cfg.ibufCap < s.len then .lenRange
      else if s.len = 0 then .emptyInput
      else if ∃ b ∈ s.input, s.codeLen b = 0 then .missingCode
      else if s.cfg.obufCap < (container s.code s.input).length then .outOverflow
      else .noError

/-- 44_bit_packer.md R185, 45_compress.md R211. -/
def Obligations.PaddingCompletesTheLastByte : Prop :=
  ∀ s t : State, exec .pack s = .next t → t.status.err = .noError →
    t.padBits.toNat ≤ 7 ∧ (bitBuffer s.code s.input).length + t.padBits.toNat = 8 * t.payLen

/-- 30_encoding.md R108, 44_bit_packer.md R187: whatever the code table, the header fits the 17 bits of HDR_LEN. -/
def Obligations.HeaderFitsItsLengthRegister : Prop :=
  ∀ s : State, (header s.code).length ≤ 66449

/-- 00_scope.md R9. -/
def Obligations.LargeOutputBufferNeverOverflows : Prop :=
  ∀ (i : Instr) (s t : State), 66455 + (255 * s.cfg.ibufCap + 7) / 8 ≤ s.cfg.obufCap → exec i s = .next t →
    t.status.err ≠ .outOverflow

/-- 44_bit_packer.md R190: the smallest container. -/
def Obligations.SmallestContainerHasSixBytes : Prop :=
  ∀ s t : State, exec .pack s = .next t → t.status.err = .noError → 3 ≤ t.hdrLen.toNat ∧ 6 ≤ t.outLen

/-! ## COMPRESS -/

/-- 45_compress.md R202: COMPRESS leaves what its four phases leave, but for the hidden registers and the epoch of the
free values; when the sequence stops before PACK, the four result registers are zeroed. -/
def Obligations.CompressEqualsItsPhases : Prop :=
  ∀ s t s1 : State, exec .compress s = .next t → exec .freqCount s = .next s1 →
    (s1.status.err ≠ .noError → t = { s1.clearResults with hidden := t.hidden, free := t.free }) ∧
    (s1.status.err = .noError → ∀ s2, exec .treeBuild s1 = .next s2 →
      (s2.status.err ≠ .noError → t = { s2.clearResults with hidden := t.hidden, free := t.free }) ∧
      (s2.status.err = .noError → ∀ s3, exec .codeAssign s2 = .next s3 →
        (s3.status.err ≠ .noError → t = { s3.clearResults with hidden := t.hidden, free := t.free }) ∧
        (s3.status.err = .noError → ∀ s4, exec .pack s3 = .next s4 →
          t = { s4 with hidden := t.hidden, free := t.free })))

/-- 45_compress.md R201, R212: the empty input. -/
def Obligations.CompressRejectsTheEmptyInput : Prop :=
  ∀ s : State, s.len = 0 →
    ∃ t, exec .compress s = .next t ∧ t.reports .emptyInput 0 0 ∧
      t = (((s.withCommon t).clearResults).setTable [] s.ord 0).setTreeValid false

/-- 45_compress.md R201, 60_exceptions.md R236: a LEN above IBUF_CAP. -/
def Obligations.CompressRejectsALongInput : Prop :=
  ∀ s : State, s.cfg.ibufCap < s.len →
    ∃ t, exec .compress s = .next t ∧ t.reports .lenRange 0 0 ∧ t = (s.withCommon t).clearResults

/-- 45_compress.md R206, R208, R209: COMPRESS codes exactly the symbols of its input, prefix-free, by the paths of a
Huffman tree, and writes the container of its input, or reports OUT_OVERFLOW when the container is longer than OBUF. -/
def Obligations.CompressWritesTheContainerOfItsInput : Prop :=
  ∀ s : State, s.cfg.wf = true → 1 ≤ s.len → s.len ≤ s.cfg.ibufCap →
    ∃ t, exec .compress s = .next t ∧ (∀ b : Byte, t.codeLen b ≠ 0 ↔ b ∈ s.input) ∧ PrefixFree t.code ∧
      (∃ T, t.status.treeValid = true ∧ t.tree? = some T ∧ T.spans t.nn.toNat = true ∧
        ∀ p ∈ T.codeTable, t.code p.1 = p.2) ∧ t.resFreq = s.len ∧ t.hsize = 0 ∧
      ((container t.code s.input).length ≤ s.cfg.obufCap →
        t.succeeds ∧ t.output = container t.code s.input ∧ t.outLen = (container t.code s.input).length) ∧
      (s.cfg.obufCap < (container t.code s.input).length → t.reports .outOverflow 0 0)

/-- 45_compress.md R206, 00_scope.md R9: with the output buffer of R9, COMPRESS of an input that fits IBUF succeeds; and
what it leaves alone. -/
def Obligations.CompressSucceedsWithALargeOutputBuffer : Prop :=
  ∀ s : State, s.cfg.wf = true → 1 ≤ s.len → s.len ≤ s.cfg.ibufCap →
    66455 + (255 * s.cfg.ibufCap + 7) / 8 ≤ s.cfg.obufCap →
    ∃ t, exec .compress s = .next t ∧ t.succeeds ∧ t.output = container t.code s.input ∧
      t.outLen = (container t.code s.input).length ∧ (∀ b : Byte, t.codeLen b ≠ 0 ↔ b ∈ s.input) ∧
      (∀ i, t.outLen ≤ i → Mem.find? t.obuf i = Mem.find? s.obuf i) ∧
      (∀ j, t.k.toNat ≤ j → Mem.find? t.ord j = Mem.find? s.ord j) ∧
      (∀ n, t.nn.toNat ≤ n → Mem.find? t.node n = Mem.find? s.node n) ∧
      (∀ i, t.k.toNat ≤ i → Mem.find? t.heap i = Mem.find? s.heap i) ∧ t.ibuf = s.ibuf ∧ t.len = s.len ∧
      t.argFreq = s.argFreq ∧ t.argNode = s.argNode

/-- 45_compress.md R206, R207: the container and every result register depend on S and N alone. -/
def Obligations.CompressDependsOnItsInputAlone : Prop :=
  ∀ s1 s2 t1 t2 : State, s1.cfg.wf = true → s1.sameInput s2 → exec .compress s1 = .next t1 →
    exec .compress s2 = .next t2 →
    t1.status.err = t2.status.err ∧ t1.outLen = t2.outLen ∧ t1.hdrLen = t2.hdrLen ∧ t1.padBits = t2.padBits ∧
      t1.payLen = t2.payLen ∧ t1.output = t2.output

/-- 45_compress.md R210, 30_encoding.md R107, R109: the container together with PAD_BITS determines the input. -/
def Obligations.ContainerAndPadBitsDetermineTheInput : Prop :=
  ∀ s1 s2 t1 t2 : State, s1.cfg.wf = true → s2.cfg.wf = true → exec .compress s1 = .next t1 →
    exec .compress s2 = .next t2 → t1.status.err = .noError → t2.status.err = .noError → t1.output = t2.output →
    t1.padBits = t2.padBits → s1.input = s2.input

/-- 45_compress.md R204, 60_exceptions.md R232: COMPRESS reports no error but its three; in particular its own code table
misses no input byte. -/
def Obligations.CompressReportsOnlyItsErrors : Prop :=
  ∀ s t : State, s.cfg.wf = true → exec .compress s = .next t →
    t.status.err ∈ [ErrCode.noError, .lenRange, .emptyInput, .outOverflow]

/-! ## The host's side -/

/-- 10_state.md R20, R31: an RW register keeps the low bits of a written value, any other register but CMD ignores the
write. -/
def Obligations.HostWritesOfRegisters : Prop :=
  ∀ (s : State) (v : Nat),
    (s.hostWrite 0 2 v = { s with len := v % 2 ^ s.cfg.cntW } ∧ (s.hostWrite 0 2 v).hostRead 0 2 = v % 2 ^ s.cfg.cntW) ∧
    (s.hostWrite 0 3 v = { s with argFreq := v % 2 ^ s.cfg.cntW } ∧
      (s.hostWrite 0 3 v).hostRead 0 3 = v % 2 ^ s.cfg.cntW) ∧
    (s.hostWrite 0 4 v = { s with argNode := BitVec.ofNat 9 v } ∧ (s.hostWrite 0 4 v).hostRead 0 4 = v % 512) ∧
    ∀ i, i ≠ 0 → i ≠ 2 → i ≠ 3 → i ≠ 4 → s.hostWrite 0 i v = s

/-- 20_memory.md R62, R65: a step of an idle block that serves a host write, other than to CMD, is that write; a word the
host writes to IBUF or CLEN reads back, as do the CLEN low bits of a word it writes to CBITS; and nothing but that word
changes, up to the epoch of the free values (log entry 4). That a value wider than the word is cut to its low bits is
the model's reading (log entry 13); that events stand in the state, and that a word of IBUF at LEN or above reads back
too, are the model's choices (log entries 8 and 20). -/
def Obligations.HostWritesOfMemoriesReadBack : Prop :=
  (∀ (s : State) (sp i v : Nat) (es : List HostEvent), s.status.busy = false →
    s.host.pending = .write sp i v :: es → (sp, i) ≠ (0, 0) →
    step s = .next ((s.withPending es).hostWrite sp i v)) ∧
  ∀ (s : State) (i v : Nat),
    (i < s.cfg.ibufCap →
      s.hostWrite 1 i v = { s with ibuf := (s.hostWrite 1 i v).ibuf } ∧
        (s.hostWrite 1 i v).hostRead 1 i = v % 256 ∧
        ∀ j, j ≠ i → (s.hostWrite 1 i v).hostRead 1 j = s.hostRead 1 j) ∧
    (i < 256 →
      s.hostWrite 7 i v =
          { s with
            clen := (s.hostWrite 7 i v).clen
            free := { s.free with epoch := (s.hostWrite 7 i v).free.epoch } } ∧
        (s.hostWrite 7 i v).hostRead 7 i = v % 256 ∧
        ∀ j, j ≠ i → (s.hostWrite 7 i v).hostRead 7 j = s.hostRead 7 j) ∧
    (i < 256 →
      s.hostWrite 8 i v =
          { s with
            cbits := (s.hostWrite 8 i v).cbits
            free := { s.free with epoch := (s.hostWrite 8 i v).free.epoch } } ∧
        (s.hostWrite 8 i v).hostRead 8 i % 2 ^ (s.clenAt i).toNat = v % 2 ^ 255 % 2 ^ (s.clenAt i).toNat ∧
        (s.hostWrite 8 i v).cbitsAt i = BitVec.ofNat 255 v ∧
        ∀ j, j ≠ i → (s.hostWrite 8 i v).cbitsAt j = s.cbitsAt j)

/-- 20_memory.md R64: an access to a space or an index that does not exist does nothing, and a read of it returns 0. -/
def Obligations.AccessesOutsideTheSpacesDoNothing : Prop :=
  ∀ (s : State) (sp i v : Nat),
    (9 ≤ sp → s.hostRead sp i = 0 ∧ s.hostWrite sp i v = s) ∧
    ∀ space, Space.ofNumber? sp = some space → space.words s.cfg ≤ i → s.hostRead sp i = 0 ∧ s.hostWrite sp i v = s

/-- 20_memory.md R60: a host write to OBUF, FREQ, ORD, NODE or HEAP is ignored. -/
def Obligations.ReadOnlySpacesIgnoreHostWrites : Prop :=
  ∀ (s : State) (sp i v : Nat), sp ∈ [2, 3, 4, 5, 6] → s.hostWrite sp i v = s

/-- 20_memory.md R60, R61, R62, 10_state.md R20, R31: a host read of an idle block has no side effect, and the host
receives the word: the register of that number, or the word of the memory where it is meaningful (of CBITS the CLEN low
bits, log entry 5). That IBUF shows its stored bytes at LEN and above too is the model's choice (log entry 20). -/
def Obligations.HostReadHasNoSideEffect : Prop :=
  (∀ (s : State) (sp i : Nat) (es : List HostEvent), s.status.busy = false → s.host.pending = .read sp i :: es →
    step s = .next { s with host := { pending := es, reads := s.hostRead sp i :: s.host.reads } }) ∧
  ∀ s : State,
    (List.range 17).map (s.hostRead 0) =
      [0, s.status.word.toNat, s.len, s.argFreq, s.argNode.toNat, s.resFreq, s.resNode.toNat, s.errSym.toNat, s.errIdx,
        s.k.toNat, s.nn.toNat, s.root.toNat, s.hsize.toNat, s.hdrLen.toNat, s.padBits.toNat, s.payLen, s.outLen] ∧
    (∀ i, i < s.cfg.ibufCap → s.hostRead 1 i = (s.ibufAt i).toNat) ∧
    (∀ i, i < s.cfg.obufCap → i < s.outLen → s.hostRead 2 i = (s.obufAt i).toNat) ∧
    (∀ i, i < 256 → s.hostRead 3 i = s.freqAt i) ∧
    (∀ j, j < 256 → j < s.k.toNat → s.hostRead 4 j = (s.ordAt j).toNat) ∧
    (∀ n, n < 511 → n < s.nn.toNat → s.hostRead 5 n = (s.nodeAt n).word s.cfg) ∧
    (∀ i, i < 256 → i < s.hsize.toNat → s.hostRead 6 i = (s.heapAt i).word s.cfg) ∧
    (∀ i, i < 256 → s.hostRead 7 i = (s.clenAt i).toNat) ∧
    ∀ i, i < 256 → s.hostRead 8 i % 2 ^ (s.clenAt i).toNat = (s.cbitsAt i).toNat % 2 ^ (s.clenAt i).toNat

/-- 70_reset_and_hazards.md R267: while BUSY = 1 the host may read STATUS, and a trace that does anything else but reset
is refused. -/
def Obligations.AccessDuringACommandIsRefused : Prop :=
  ∀ (s : State) (es : List HostEvent), s.status.busy = true →
    (s.host.pending = .read 0 1 :: es → step s = .next ((s.withPending es).answer s.status.word.toNat)) ∧
    (∀ sp i, (sp, i) ≠ (0, 1) → s.host.pending = .read sp i :: es → step s = .refused .accessDuringCommand) ∧
    ∀ sp i v, s.host.pending = .write sp i v :: es → step s = .refused .accessDuringCommand

/-- 70_reset_and_hazards.md R260 to R263, 10_state.md R20: `rst` leaves the reset state, with every register 0 and every
word of FREQ and CLEN 0; the parameters are fixed. `rst` during a command is the model's event commandCutByRst, and both
counters of the free values are the model's (log entry 10). -/
def Obligations.RstLeavesTheResetState : Prop :=
  ∀ (s : State) (e : HostEvent) (es : List HostEvent), e = .rst ∨ (∃ v, e = .commandCutByRst v) →
    s.host.pending = e :: es →
    ∃ t, step s = .next t ∧ (∀ r, t.readReg r = 0) ∧ (∀ i, t.freqAt i = 0) ∧ (∀ i, t.clenAt i = 0) ∧
      t.doneWire = false ∧ t = State.resetOf s.cfg t.free.resets t.free.epoch { s.host with pending := es }

/-- 10_state.md R28, R30, 60_exceptions.md R230: the fields of STATUS, and the numbers of the errors and the phases. -/
def Obligations.StatusWordFields : Prop :=
  [ErrCode.noError, .emptyInput, .missingCode, .illegalCmd, .pqFull, .noTree, .lenRange, .outOverflow].map
      ErrCode.number = [0, 1, 2, 3, 4, 5, 6, 7] ∧
  [Phase.idle, .freq, .tree, .code, .pack, .pq].map Phase.number = [0, 1, 2, 3, 4, 5] ∧
  ∀ st : Status,
    st.word.getLsbD 0 = st.busy ∧ st.word.getLsbD 1 = st.done ∧ st.word.getLsbD 2 = st.treeValid ∧
      st.word.getLsbD 3 = st.resEmpty ∧ st.word.extractLsb' 4 3 = st.err.number ∧ st.word.getLsbD 7 = false ∧
      st.word.extractLsb' 8 3 = st.phase.number ∧ st.word.extractLsb' 11 5 = 0

/-- 20_memory.md R61, 10_state.md R36: the fields of the words the host sees in NODE and HEAP. The zeros in the fields a
variant does not use are the model's reading (log entry 14). -/
def Obligations.HostWordsOfNodesAndEntries : Prop :=
  ∀ (c : Config) (f : Nat), f < 2 ^ c.cntW →
    (∀ n : NodeNo, HeapEntry.word c ⟨f, n⟩ % 2 ^ c.cntW = f ∧
      HeapEntry.word c ⟨f, n⟩ / 2 ^ c.cntW = n.toNat) ∧
    (∀ sym : Byte, HuffNode.word c (.leaf sym f) % 2 ^ c.cntW = f ∧
      HuffNode.word c (.leaf sym f) / 2 ^ c.cntW % 2 ^ 9 = 0 ∧
      HuffNode.word c (.leaf sym f) / 2 ^ (c.cntW + 9) % 2 ^ 9 = 0 ∧
      HuffNode.word c (.leaf sym f) / 2 ^ (c.cntW + 18) % 2 ^ 8 = sym.toNat ∧
      HuffNode.word c (.leaf sym f) / 2 ^ (c.cntW + 26) = 1) ∧
    ∀ l r : NodeNo, HuffNode.word c (.internal f l r) % 2 ^ c.cntW = f ∧
      HuffNode.word c (.internal f l r) / 2 ^ c.cntW % 2 ^ 9 = r.toNat ∧
      HuffNode.word c (.internal f l r) / 2 ^ (c.cntW + 9) % 2 ^ 9 = l.toNat ∧
      HuffNode.word c (.internal f l r) / 2 ^ (c.cntW + 18) = 0
end

