-- ==== Sys2Proof/Laws/Mem.lean ====
section
/-! SUPPORT. What the operations on a memory do: a read after a write, and that every write keeps the canonical form. -/

namespace Sys2Proof.Machine

section
variable {α : Type}

@[simp] theorem Mem.find?_nil (a : Nat) : Mem.find? ([] : List (Nat × α)) a = none := rfl

@[simp] theorem Mem.find?_put_self (m : List (Nat × α)) (a : Nat) (v : α) : Mem.find? (Mem.put m a v) a = some v := by
  induction m with
  | nil => simp [Mem.put, Mem.find?]
  | cons e m ih =>
    obtain ⟨i, w⟩ := e
    unfold Mem.put
    split
    · simp [Mem.find?]
    · split
      · simp [Mem.find?]
      · rename_i h
        simp [Mem.find?, Ne.symm h, ih]

theorem Mem.find?_put_of_ne (m : List (Nat × α)) {a b : Nat} (v : α) (h : b ≠ a) :
    Mem.find? (Mem.put m a v) b = Mem.find? m b := by
  induction m with
  | nil => simp [Mem.put, Mem.find?, Ne.symm h]
  | cons e m ih =>
    obtain ⟨i, w⟩ := e
    unfold Mem.put
    split
    · simp [Mem.find?, Ne.symm h]
    · split
      · rename_i h'
        subst h'
        simp [Mem.find?, Ne.symm h]
      · simp only [Mem.find?, ih]

theorem Mem.find?_put (m : List (Nat × α)) (a b : Nat) (v : α) :
    Mem.find? (Mem.put m a v) b = if b = a then some v else Mem.find? m b := by
  split
  · subst_vars; simp
  · exact Mem.find?_put_of_ne m v ‹_›

theorem Mem.find?_remove (m : List (Nat × α)) (a b : Nat) :
    Mem.find? (Mem.remove m a) b = if b = a then none else Mem.find? m b := by
  induction m with
  | nil => simp [Mem.remove]
  | cons e m ih =>
    obtain ⟨i, w⟩ := e
    unfold Mem.remove
    split
    · rename_i h
      subst h
      rw [ih]
      split
      · rfl
      · simp [Mem.find?, Ne.symm ‹_›]
    · rename_i h
      simp only [Mem.find?, ih]
      split <;> split <;> first | rfl | (exfalso; omega)

/-- Where an unlisted word reads as `zero`, a word reads as it was last written. -/
theorem Mem.getD_find?_store [DecidableEq α] (zero : α) (m : List (Nat × α)) (a b : Nat) (v : α) :
    (Mem.find? (Mem.store zero m a v) b).getD zero = if b = a then v else (Mem.find? m b).getD zero := by
  unfold Mem.store
  split
  · rw [Mem.find?_remove]; split <;> simp_all
  · rw [Mem.find?_put]; split <;> simp

theorem Mem.mem_put (m : List (Nat × α)) (a : Nat) (v : α) {e : Nat × α} (h : e ∈ Mem.put m a v) :
    e = (a, v) ∨ e ∈ m := by
  induction m with
  | nil => simpa [Mem.put] using h
  | cons e' m ih =>
    obtain ⟨i, w⟩ := e'
    unfold Mem.put at h
    split at h
    · simpa using h
    · split at h
      · rcases List.mem_cons.mp h with h | h <;> simp [h]
      · rcases List.mem_cons.mp h with h | h
        · simp [h]
        · rcases ih h with h | h <;> simp [h]

theorem Mem.mem_remove (m : List (Nat × α)) (a : Nat) {e : Nat × α} (h : e ∈ Mem.remove m a) : e ∈ m := by
  induction m with
  | nil => simp [Mem.remove] at h
  | cons e' m ih =>
    obtain ⟨i, w⟩ := e'
    unfold Mem.remove at h
    split at h
    · exact List.mem_cons_of_mem _ (ih h)
    · rcases List.mem_cons.mp h with h | h
      · simp [h]
      · exact List.mem_cons_of_mem _ (ih h)

theorem Mem.sorted_put (m : List (Nat × α)) (a : Nat) (v : α) (h : Mem.sorted m = true) :
    Mem.sorted (Mem.put m a v) = true := by
  induction m with
  | nil => simp [Mem.put, Mem.sorted]
  | cons e m ih =>
    obtain ⟨i, w⟩ := e
    simp only [Mem.sorted, Bool.and_eq_true, List.all_eq_true, decide_eq_true_eq] at h
    unfold Mem.put
    split
    · simp only [Mem.sorted, Bool.and_eq_true, List.all_eq_true, decide_eq_true_eq, List.mem_cons,
        forall_eq_or_imp]
      exact ⟨⟨‹_›, fun x hx => by have := h.1 x hx; omega⟩, h⟩
    · split
      · rename_i h'
        subst h'
        simpa [Mem.sorted] using h
      · simp only [Mem.sorted, Bool.and_eq_true, List.all_eq_true, decide_eq_true_eq]
        refine ⟨fun x hx => ?_, ih h.2⟩
        rcases Mem.mem_put m a v hx with rfl | hx
        · show i < a
          omega
        · exact h.1 x hx

theorem Mem.sorted_remove (m : List (Nat × α)) (a : Nat) (h : Mem.sorted m = true) :
    Mem.sorted (Mem.remove m a) = true := by
  induction m with
  | nil => simp [Mem.remove, Mem.sorted]
  | cons e m ih =>
    obtain ⟨i, w⟩ := e
    simp only [Mem.sorted, Bool.and_eq_true, List.all_eq_true, decide_eq_true_eq] at h
    unfold Mem.remove
    split
    · exact ih h.2
    · simp only [Mem.sorted, Bool.and_eq_true, List.all_eq_true, decide_eq_true_eq]
      exact ⟨fun x hx => h.1 x (Mem.mem_remove m a hx), ih h.2⟩

variable [DecidableEq α] {size : Nat} {ok : α → Bool} {zero : Option α} {m : List (Nat × α)}

theorem Mem.wf_iff :
    Mem.wf size ok zero m = true ↔
      Mem.sorted m = true ∧ ∀ e ∈ m, e.1 < size ∧ ok e.2 = true ∧ zero ≠ some e.2 := by
  simp [Mem.wf, and_assoc]

@[simp] theorem Mem.wf_nil : Mem.wf size ok zero ([] : List (Nat × α)) = true := by simp [Mem.wf, Mem.sorted]

/-- A write in range of a word that fits keeps the canonical form of a memory whose unlisted words hold no known
value. -/
theorem Mem.wf_put (h : Mem.wf size ok none m = true) {a : Nat} {v : α} (ha : a < size) (hv : ok v = true) :
    Mem.wf size ok none (Mem.put m a v) = true := by
  rw [Mem.wf_iff] at h ⊢
  refine ⟨Mem.sorted_put m a v h.1, fun e he => ?_⟩
  rcases Mem.mem_put m a v he with rfl | he
  · exact ⟨ha, hv, by simp⟩
  · exact h.2 e he

/-- A write in range of a word that fits keeps the canonical form of a memory whose unlisted words read as `z`. -/
theorem Mem.wf_store {z : α} (h : Mem.wf size ok (some z) m = true) {a : Nat} {v : α} (ha : a < size)
    (hv : ok v = true) : Mem.wf size ok (some z) (Mem.store z m a v) = true := by
  rw [Mem.wf_iff] at h ⊢
  unfold Mem.store
  split
  · exact ⟨Mem.sorted_remove m a h.1, fun e he => h.2 e (Mem.mem_remove m a he)⟩
  · refine ⟨Mem.sorted_put m a v h.1, fun e he => ?_⟩
    rcases Mem.mem_put m a v he with rfl | he
    · exact ⟨ha, hv, by simpa using Ne.symm ‹_›⟩
    · exact h.2 e he

/-- What a listed word satisfies. -/
theorem Mem.wf_find? (h : Mem.wf size ok zero m = true) {a : Nat} {v : α} (hv : Mem.find? m a = some v) :
    a < size ∧ ok v = true ∧ zero ≠ some v := by
  rw [Mem.wf_iff] at h
  suffices (a, v) ∈ m from h.2 _ this
  clear h
  induction m with
  | nil => simp at hv
  | cons e m ih =>
    obtain ⟨i, w⟩ := e
    unfold Mem.find? at hv
    split at hv
    · subst_vars; simp_all
    · exact List.mem_cons_of_mem _ (ih hv)

end

/-! ## The typed memories -/

theorem freqWord_eq (m : List (Nat × Nat)) (i : Nat) : freqWord m i = (Mem.find? m i).getD 0 := rfl

theorem clenWord_eq (m : List Host.Cell) (i : Nat) : clenWord m i = (Mem.find? m i).getD 0 := rfl

theorem freqWord_storeFreq (m : List (Nat × Nat)) (i j v : Nat) :
    freqWord (storeFreq m i v) j = if j = i then v else freqWord m j := Mem.getD_find?_store 0 m i j v

theorem clenWord_storeClen (m : List Host.Cell) (i j : Nat) (v : Byte) :
    clenWord (storeClen m i v) j = if j = i then v else clenWord m j := Mem.getD_find?_store 0 m i j v

theorem storeFreq_wf {m : List (Nat × Nat)} {size : Nat} {ok : Nat → Bool}
    (h : Mem.wf size ok (some 0) m = true) {i v : Nat} (hi : i < size) (hv : ok v = true) :
    Mem.wf size ok (some 0) (storeFreq m i v) = true := Mem.wf_store h hi hv

theorem storeClen_wf {m : List Host.Cell} {size : Nat} {ok : Byte → Bool} (h : Mem.wf size ok (some 0) m = true)
    {i : Nat} {v : Byte} (hi : i < size) (hv : ok v = true) :
    Mem.wf size ok (some 0) (storeClen m i v) = true := Mem.wf_store h hi hv

theorem cntTrunc_lt (c : Config) (v : Nat) : cntTrunc c v < 2 ^ c.cntW := Nat.mod_lt _ (by positivity)

theorem cntTrunc_of_lt {c : Config} {v : Nat} (h : v < 2 ^ c.cntW) : cntTrunc c v = v := Nat.mod_eq_of_lt h

theorem outTrunc_of_le {c : Config} {v : Nat} (h : v ≤ c.obufCap) : outTrunc c v = v := by
  refine Nat.mod_eq_of_lt (lt_of_le_of_lt h ?_)
  unfold Config.outW
  split
  · simp_all
  · exact Nat.lt_log2_self

end Sys2Proof.Machine
end

