-- ==== Sys2Proof/Laws/State.lean ====
section
/-! SUPPORT. One lemma per field per named update of State, true by rfl, so that no later proof unfolds an update. -/

namespace Sys2Proof.Machine

section
variable (s : State) (p : Phase)

@[simp] theorem State.enterPhase_cfg : (s.enterPhase p).cfg = s.cfg := rfl
@[simp] theorem State.enterPhase_status : (s.enterPhase p).status = { s.status with phase := p } := rfl
@[simp] theorem State.enterPhase_len : (s.enterPhase p).len = s.len := rfl
@[simp] theorem State.enterPhase_argFreq : (s.enterPhase p).argFreq = s.argFreq := rfl
@[simp] theorem State.enterPhase_argNode : (s.enterPhase p).argNode = s.argNode := rfl
@[simp] theorem State.enterPhase_resFreq : (s.enterPhase p).resFreq = s.resFreq := rfl
@[simp] theorem State.enterPhase_resNode : (s.enterPhase p).resNode = s.resNode := rfl
@[simp] theorem State.enterPhase_errSym : (s.enterPhase p).errSym = s.errSym := rfl
@[simp] theorem State.enterPhase_errIdx : (s.enterPhase p).errIdx = s.errIdx := rfl
@[simp] theorem State.enterPhase_k : (s.enterPhase p).k = s.k := rfl
@[simp] theorem State.enterPhase_nn : (s.enterPhase p).nn = s.nn := rfl
@[simp] theorem State.enterPhase_root : (s.enterPhase p).root = s.root := rfl
@[simp] theorem State.enterPhase_hsize : (s.enterPhase p).hsize = s.hsize := rfl
@[simp] theorem State.enterPhase_hdrLen : (s.enterPhase p).hdrLen = s.hdrLen := rfl
@[simp] theorem State.enterPhase_padBits : (s.enterPhase p).padBits = s.padBits := rfl
@[simp] theorem State.enterPhase_payLen : (s.enterPhase p).payLen = s.payLen := rfl
@[simp] theorem State.enterPhase_outLen : (s.enterPhase p).outLen = s.outLen := rfl
@[simp] theorem State.enterPhase_ibuf : (s.enterPhase p).ibuf = s.ibuf := rfl
@[simp] theorem State.enterPhase_obuf : (s.enterPhase p).obuf = s.obuf := rfl
@[simp] theorem State.enterPhase_freq : (s.enterPhase p).freq = s.freq := rfl
@[simp] theorem State.enterPhase_ord : (s.enterPhase p).ord = s.ord := rfl
@[simp] theorem State.enterPhase_node : (s.enterPhase p).node = s.node := rfl
@[simp] theorem State.enterPhase_heap : (s.enterPhase p).heap = s.heap := rfl
@[simp] theorem State.enterPhase_clen : (s.enterPhase p).clen = s.clen := rfl
@[simp] theorem State.enterPhase_cbits : (s.enterPhase p).cbits = s.cbits := rfl
@[simp] theorem State.enterPhase_hidden : (s.enterPhase p).hidden = s.hidden := rfl
@[simp] theorem State.enterPhase_host : (s.enterPhase p).host = s.host := rfl
@[simp] theorem State.enterPhase_free : (s.enterPhase p).free = s.free := rfl

end

section
variable (s : State) (p : Phase)

@[simp] theorem State.accept_cfg : (s.accept p).cfg = s.cfg := rfl
@[simp] theorem State.accept_status :
    (s.accept p).status = { s.status with busy := true, done := false, err := .noError, phase := p } := rfl
@[simp] theorem State.accept_len : (s.accept p).len = s.len := rfl
@[simp] theorem State.accept_argFreq : (s.accept p).argFreq = s.argFreq := rfl
@[simp] theorem State.accept_argNode : (s.accept p).argNode = s.argNode := rfl
@[simp] theorem State.accept_resFreq : (s.accept p).resFreq = s.resFreq := rfl
@[simp] theorem State.accept_resNode : (s.accept p).resNode = s.resNode := rfl
@[simp] theorem State.accept_errSym : (s.accept p).errSym = 0 := rfl
@[simp] theorem State.accept_errIdx : (s.accept p).errIdx = 0 := rfl
@[simp] theorem State.accept_k : (s.accept p).k = s.k := rfl
@[simp] theorem State.accept_nn : (s.accept p).nn = s.nn := rfl
@[simp] theorem State.accept_root : (s.accept p).root = s.root := rfl
@[simp] theorem State.accept_hsize : (s.accept p).hsize = s.hsize := rfl
@[simp] theorem State.accept_hdrLen : (s.accept p).hdrLen = s.hdrLen := rfl
@[simp] theorem State.accept_padBits : (s.accept p).padBits = s.padBits := rfl
@[simp] theorem State.accept_payLen : (s.accept p).payLen = s.payLen := rfl
@[simp] theorem State.accept_outLen : (s.accept p).outLen = s.outLen := rfl
@[simp] theorem State.accept_ibuf : (s.accept p).ibuf = s.ibuf := rfl
@[simp] theorem State.accept_obuf : (s.accept p).obuf = s.obuf := rfl
@[simp] theorem State.accept_freq : (s.accept p).freq = s.freq := rfl
@[simp] theorem State.accept_ord : (s.accept p).ord = s.ord := rfl
@[simp] theorem State.accept_node : (s.accept p).node = s.node := rfl
@[simp] theorem State.accept_heap : (s.accept p).heap = s.heap := rfl
@[simp] theorem State.accept_clen : (s.accept p).clen = s.clen := rfl
@[simp] theorem State.accept_cbits : (s.accept p).cbits = s.cbits := rfl
@[simp] theorem State.accept_hidden : (s.accept p).hidden = s.hidden := rfl
@[simp] theorem State.accept_host : (s.accept p).host = s.host := rfl
@[simp] theorem State.accept_free : (s.accept p).free = { s.free with epoch := s.free.epoch + 1 } := rfl

end

section
variable (s : State)

@[simp] theorem State.finish_cfg : (s.finish).cfg = s.cfg := rfl
@[simp] theorem State.finish_status :
    (s.finish).status = { s.status with busy := false, done := true, phase := .idle } := rfl
@[simp] theorem State.finish_len : (s.finish).len = s.len := rfl
@[simp] theorem State.finish_argFreq : (s.finish).argFreq = s.argFreq := rfl
@[simp] theorem State.finish_argNode : (s.finish).argNode = s.argNode := rfl
@[simp] theorem State.finish_resFreq : (s.finish).resFreq = s.resFreq := rfl
@[simp] theorem State.finish_resNode : (s.finish).resNode = s.resNode := rfl
@[simp] theorem State.finish_errSym : (s.finish).errSym = s.errSym := rfl
@[simp] theorem State.finish_errIdx : (s.finish).errIdx = s.errIdx := rfl
@[simp] theorem State.finish_k : (s.finish).k = s.k := rfl
@[simp] theorem State.finish_nn : (s.finish).nn = s.nn := rfl
@[simp] theorem State.finish_root : (s.finish).root = s.root := rfl
@[simp] theorem State.finish_hsize : (s.finish).hsize = s.hsize := rfl
@[simp] theorem State.finish_hdrLen : (s.finish).hdrLen = s.hdrLen := rfl
@[simp] theorem State.finish_padBits : (s.finish).padBits = s.padBits := rfl
@[simp] theorem State.finish_payLen : (s.finish).payLen = s.payLen := rfl
@[simp] theorem State.finish_outLen : (s.finish).outLen = s.outLen := rfl
@[simp] theorem State.finish_ibuf : (s.finish).ibuf = s.ibuf := rfl
@[simp] theorem State.finish_obuf : (s.finish).obuf = s.obuf := rfl
@[simp] theorem State.finish_freq : (s.finish).freq = s.freq := rfl
@[simp] theorem State.finish_ord : (s.finish).ord = s.ord := rfl
@[simp] theorem State.finish_node : (s.finish).node = s.node := rfl
@[simp] theorem State.finish_heap : (s.finish).heap = s.heap := rfl
@[simp] theorem State.finish_clen : (s.finish).clen = s.clen := rfl
@[simp] theorem State.finish_cbits : (s.finish).cbits = s.cbits := rfl
@[simp] theorem State.finish_hidden : (s.finish).hidden = Hidden.any s.cfg s.free.epoch := rfl
@[simp] theorem State.finish_host : (s.finish).host = s.host := rfl
@[simp] theorem State.finish_free : (s.finish).free = s.free := rfl

end

section
variable (s : State) (e : ErrCode) (sym : Byte) (idx : Nat)

@[simp] theorem State.raise_cfg : (s.raise e sym idx).cfg = s.cfg := rfl
@[simp] theorem State.raise_status :
    (s.raise e sym idx).status = { s.status with err := e, busy := false, done := true, phase := .idle } := rfl
@[simp] theorem State.raise_len : (s.raise e sym idx).len = s.len := rfl
@[simp] theorem State.raise_argFreq : (s.raise e sym idx).argFreq = s.argFreq := rfl
@[simp] theorem State.raise_argNode : (s.raise e sym idx).argNode = s.argNode := rfl
@[simp] theorem State.raise_resFreq : (s.raise e sym idx).resFreq = s.resFreq := rfl
@[simp] theorem State.raise_resNode : (s.raise e sym idx).resNode = s.resNode := rfl
@[simp] theorem State.raise_errSym : (s.raise e sym idx).errSym = sym := rfl
@[simp] theorem State.raise_errIdx : (s.raise e sym idx).errIdx = cntTrunc s.cfg idx := rfl
@[simp] theorem State.raise_k : (s.raise e sym idx).k = s.k := rfl
@[simp] theorem State.raise_nn : (s.raise e sym idx).nn = s.nn := rfl
@[simp] theorem State.raise_root : (s.raise e sym idx).root = s.root := rfl
@[simp] theorem State.raise_hsize : (s.raise e sym idx).hsize = s.hsize := rfl
@[simp] theorem State.raise_hdrLen : (s.raise e sym idx).hdrLen = s.hdrLen := rfl
@[simp] theorem State.raise_padBits : (s.raise e sym idx).padBits = s.padBits := rfl
@[simp] theorem State.raise_payLen : (s.raise e sym idx).payLen = s.payLen := rfl
@[simp] theorem State.raise_outLen : (s.raise e sym idx).outLen = s.outLen := rfl
@[simp] theorem State.raise_ibuf : (s.raise e sym idx).ibuf = s.ibuf := rfl
@[simp] theorem State.raise_obuf : (s.raise e sym idx).obuf = s.obuf := rfl
@[simp] theorem State.raise_freq : (s.raise e sym idx).freq = s.freq := rfl
@[simp] theorem State.raise_ord : (s.raise e sym idx).ord = s.ord := rfl
@[simp] theorem State.raise_node : (s.raise e sym idx).node = s.node := rfl
@[simp] theorem State.raise_heap : (s.raise e sym idx).heap = s.heap := rfl
@[simp] theorem State.raise_clen : (s.raise e sym idx).clen = s.clen := rfl
@[simp] theorem State.raise_cbits : (s.raise e sym idx).cbits = s.cbits := rfl
@[simp] theorem State.raise_hidden : (s.raise e sym idx).hidden = Hidden.any s.cfg s.free.epoch := rfl
@[simp] theorem State.raise_host : (s.raise e sym idx).host = s.host := rfl
@[simp] theorem State.raise_free : (s.raise e sym idx).free = s.free := rfl

end

section
variable (s : State)

@[simp] theorem State.clearResults_cfg : (s.clearResults).cfg = s.cfg := rfl
@[simp] theorem State.clearResults_status : (s.clearResults).status = s.status := rfl
@[simp] theorem State.clearResults_len : (s.clearResults).len = s.len := rfl
@[simp] theorem State.clearResults_argFreq : (s.clearResults).argFreq = s.argFreq := rfl
@[simp] theorem State.clearResults_argNode : (s.clearResults).argNode = s.argNode := rfl
@[simp] theorem State.clearResults_resFreq : (s.clearResults).resFreq = s.resFreq := rfl
@[simp] theorem State.clearResults_resNode : (s.clearResults).resNode = s.resNode := rfl
@[simp] theorem State.clearResults_errSym : (s.clearResults).errSym = s.errSym := rfl
@[simp] theorem State.clearResults_errIdx : (s.clearResults).errIdx = s.errIdx := rfl
@[simp] theorem State.clearResults_k : (s.clearResults).k = s.k := rfl
@[simp] theorem State.clearResults_nn : (s.clearResults).nn = s.nn := rfl
@[simp] theorem State.clearResults_root : (s.clearResults).root = s.root := rfl
@[simp] theorem State.clearResults_hsize : (s.clearResults).hsize = s.hsize := rfl
@[simp] theorem State.clearResults_hdrLen : (s.clearResults).hdrLen = 0 := rfl
@[simp] theorem State.clearResults_padBits : (s.clearResults).padBits = 0 := rfl
@[simp] theorem State.clearResults_payLen : (s.clearResults).payLen = 0 := rfl
@[simp] theorem State.clearResults_outLen : (s.clearResults).outLen = 0 := rfl
@[simp] theorem State.clearResults_ibuf : (s.clearResults).ibuf = s.ibuf := rfl
@[simp] theorem State.clearResults_obuf : (s.clearResults).obuf = s.obuf := rfl
@[simp] theorem State.clearResults_freq : (s.clearResults).freq = s.freq := rfl
@[simp] theorem State.clearResults_ord : (s.clearResults).ord = s.ord := rfl
@[simp] theorem State.clearResults_node : (s.clearResults).node = s.node := rfl
@[simp] theorem State.clearResults_heap : (s.clearResults).heap = s.heap := rfl
@[simp] theorem State.clearResults_clen : (s.clearResults).clen = s.clen := rfl
@[simp] theorem State.clearResults_cbits : (s.clearResults).cbits = s.cbits := rfl
@[simp] theorem State.clearResults_hidden : (s.clearResults).hidden = s.hidden := rfl
@[simp] theorem State.clearResults_host : (s.clearResults).host = s.host := rfl
@[simp] theorem State.clearResults_free : (s.clearResults).free = s.free := rfl

end

section
variable (s : State) (b : Bool) (e : HeapEntry)

@[simp] theorem State.setResult_cfg : (s.setResult b e).cfg = s.cfg := rfl
@[simp] theorem State.setResult_status : (s.setResult b e).status = { s.status with resEmpty := b } := rfl
@[simp] theorem State.setResult_len : (s.setResult b e).len = s.len := rfl
@[simp] theorem State.setResult_argFreq : (s.setResult b e).argFreq = s.argFreq := rfl
@[simp] theorem State.setResult_argNode : (s.setResult b e).argNode = s.argNode := rfl
@[simp] theorem State.setResult_resFreq : (s.setResult b e).resFreq = e.freq := rfl
@[simp] theorem State.setResult_resNode : (s.setResult b e).resNode = e.node := rfl
@[simp] theorem State.setResult_errSym : (s.setResult b e).errSym = s.errSym := rfl
@[simp] theorem State.setResult_errIdx : (s.setResult b e).errIdx = s.errIdx := rfl
@[simp] theorem State.setResult_k : (s.setResult b e).k = s.k := rfl
@[simp] theorem State.setResult_nn : (s.setResult b e).nn = s.nn := rfl
@[simp] theorem State.setResult_root : (s.setResult b e).root = s.root := rfl
@[simp] theorem State.setResult_hsize : (s.setResult b e).hsize = s.hsize := rfl
@[simp] theorem State.setResult_hdrLen : (s.setResult b e).hdrLen = s.hdrLen := rfl
@[simp] theorem State.setResult_padBits : (s.setResult b e).padBits = s.padBits := rfl
@[simp] theorem State.setResult_payLen : (s.setResult b e).payLen = s.payLen := rfl
@[simp] theorem State.setResult_outLen : (s.setResult b e).outLen = s.outLen := rfl
@[simp] theorem State.setResult_ibuf : (s.setResult b e).ibuf = s.ibuf := rfl
@[simp] theorem State.setResult_obuf : (s.setResult b e).obuf = s.obuf := rfl
@[simp] theorem State.setResult_freq : (s.setResult b e).freq = s.freq := rfl
@[simp] theorem State.setResult_ord : (s.setResult b e).ord = s.ord := rfl
@[simp] theorem State.setResult_node : (s.setResult b e).node = s.node := rfl
@[simp] theorem State.setResult_heap : (s.setResult b e).heap = s.heap := rfl
@[simp] theorem State.setResult_clen : (s.setResult b e).clen = s.clen := rfl
@[simp] theorem State.setResult_cbits : (s.setResult b e).cbits = s.cbits := rfl
@[simp] theorem State.setResult_hidden : (s.setResult b e).hidden = s.hidden := rfl
@[simp] theorem State.setResult_host : (s.setResult b e).host = s.host := rfl
@[simp] theorem State.setResult_free : (s.setResult b e).free = s.free := rfl

end

section
variable (s : State) (v : Bool)

@[simp] theorem State.setTreeValid_cfg : (s.setTreeValid v).cfg = s.cfg := rfl
@[simp] theorem State.setTreeValid_status : (s.setTreeValid v).status = { s.status with treeValid := v } := rfl
@[simp] theorem State.setTreeValid_len : (s.setTreeValid v).len = s.len := rfl
@[simp] theorem State.setTreeValid_argFreq : (s.setTreeValid v).argFreq = s.argFreq := rfl
@[simp] theorem State.setTreeValid_argNode : (s.setTreeValid v).argNode = s.argNode := rfl
@[simp] theorem State.setTreeValid_resFreq : (s.setTreeValid v).resFreq = s.resFreq := rfl
@[simp] theorem State.setTreeValid_resNode : (s.setTreeValid v).resNode = s.resNode := rfl
@[simp] theorem State.setTreeValid_errSym : (s.setTreeValid v).errSym = s.errSym := rfl
@[simp] theorem State.setTreeValid_errIdx : (s.setTreeValid v).errIdx = s.errIdx := rfl
@[simp] theorem State.setTreeValid_k : (s.setTreeValid v).k = s.k := rfl
@[simp] theorem State.setTreeValid_nn : (s.setTreeValid v).nn = s.nn := rfl
@[simp] theorem State.setTreeValid_root : (s.setTreeValid v).root = s.root := rfl
@[simp] theorem State.setTreeValid_hsize : (s.setTreeValid v).hsize = s.hsize := rfl
@[simp] theorem State.setTreeValid_hdrLen : (s.setTreeValid v).hdrLen = s.hdrLen := rfl
@[simp] theorem State.setTreeValid_padBits : (s.setTreeValid v).padBits = s.padBits := rfl
@[simp] theorem State.setTreeValid_payLen : (s.setTreeValid v).payLen = s.payLen := rfl
@[simp] theorem State.setTreeValid_outLen : (s.setTreeValid v).outLen = s.outLen := rfl
@[simp] theorem State.setTreeValid_ibuf : (s.setTreeValid v).ibuf = s.ibuf := rfl
@[simp] theorem State.setTreeValid_obuf : (s.setTreeValid v).obuf = s.obuf := rfl
@[simp] theorem State.setTreeValid_freq : (s.setTreeValid v).freq = s.freq := rfl
@[simp] theorem State.setTreeValid_ord : (s.setTreeValid v).ord = s.ord := rfl
@[simp] theorem State.setTreeValid_node : (s.setTreeValid v).node = s.node := rfl
@[simp] theorem State.setTreeValid_heap : (s.setTreeValid v).heap = s.heap := rfl
@[simp] theorem State.setTreeValid_clen : (s.setTreeValid v).clen = s.clen := rfl
@[simp] theorem State.setTreeValid_cbits : (s.setTreeValid v).cbits = s.cbits := rfl
@[simp] theorem State.setTreeValid_hidden : (s.setTreeValid v).hidden = s.hidden := rfl
@[simp] theorem State.setTreeValid_host : (s.setTreeValid v).host = s.host := rfl
@[simp] theorem State.setTreeValid_free : (s.setTreeValid v).free = s.free := rfl

end

section
variable (s : State) (h : List (Nat × HeapEntry)) (n : BitVec 9)

@[simp] theorem State.setQueue_cfg : (s.setQueue h n).cfg = s.cfg := rfl
@[simp] theorem State.setQueue_status : (s.setQueue h n).status = s.status := rfl
@[simp] theorem State.setQueue_len : (s.setQueue h n).len = s.len := rfl
@[simp] theorem State.setQueue_argFreq : (s.setQueue h n).argFreq = s.argFreq := rfl
@[simp] theorem State.setQueue_argNode : (s.setQueue h n).argNode = s.argNode := rfl
@[simp] theorem State.setQueue_resFreq : (s.setQueue h n).resFreq = s.resFreq := rfl
@[simp] theorem State.setQueue_resNode : (s.setQueue h n).resNode = s.resNode := rfl
@[simp] theorem State.setQueue_errSym : (s.setQueue h n).errSym = s.errSym := rfl
@[simp] theorem State.setQueue_errIdx : (s.setQueue h n).errIdx = s.errIdx := rfl
@[simp] theorem State.setQueue_k : (s.setQueue h n).k = s.k := rfl
@[simp] theorem State.setQueue_nn : (s.setQueue h n).nn = s.nn := rfl
@[simp] theorem State.setQueue_root : (s.setQueue h n).root = s.root := rfl
@[simp] theorem State.setQueue_hsize : (s.setQueue h n).hsize = n := rfl
@[simp] theorem State.setQueue_hdrLen : (s.setQueue h n).hdrLen = s.hdrLen := rfl
@[simp] theorem State.setQueue_padBits : (s.setQueue h n).padBits = s.padBits := rfl
@[simp] theorem State.setQueue_payLen : (s.setQueue h n).payLen = s.payLen := rfl
@[simp] theorem State.setQueue_outLen : (s.setQueue h n).outLen = s.outLen := rfl
@[simp] theorem State.setQueue_ibuf : (s.setQueue h n).ibuf = s.ibuf := rfl
@[simp] theorem State.setQueue_obuf : (s.setQueue h n).obuf = s.obuf := rfl
@[simp] theorem State.setQueue_freq : (s.setQueue h n).freq = s.freq := rfl
@[simp] theorem State.setQueue_ord : (s.setQueue h n).ord = s.ord := rfl
@[simp] theorem State.setQueue_node : (s.setQueue h n).node = s.node := rfl
@[simp] theorem State.setQueue_heap : (s.setQueue h n).heap = h := rfl
@[simp] theorem State.setQueue_clen : (s.setQueue h n).clen = s.clen := rfl
@[simp] theorem State.setQueue_cbits : (s.setQueue h n).cbits = s.cbits := rfl
@[simp] theorem State.setQueue_hidden : (s.setQueue h n).hidden = s.hidden := rfl
@[simp] theorem State.setQueue_host : (s.setQueue h n).host = s.host := rfl
@[simp] theorem State.setQueue_free : (s.setQueue h n).free = s.free := rfl

end

section
variable (s : State) (f : List (Nat × Nat)) (o : List Host.Cell) (n : BitVec 9)

@[simp] theorem State.setTable_cfg : (s.setTable f o n).cfg = s.cfg := rfl
@[simp] theorem State.setTable_status : (s.setTable f o n).status = s.status := rfl
@[simp] theorem State.setTable_len : (s.setTable f o n).len = s.len := rfl
@[simp] theorem State.setTable_argFreq : (s.setTable f o n).argFreq = s.argFreq := rfl
@[simp] theorem State.setTable_argNode : (s.setTable f o n).argNode = s.argNode := rfl
@[simp] theorem State.setTable_resFreq : (s.setTable f o n).resFreq = s.resFreq := rfl
@[simp] theorem State.setTable_resNode : (s.setTable f o n).resNode = s.resNode := rfl
@[simp] theorem State.setTable_errSym : (s.setTable f o n).errSym = s.errSym := rfl
@[simp] theorem State.setTable_errIdx : (s.setTable f o n).errIdx = s.errIdx := rfl
@[simp] theorem State.setTable_k : (s.setTable f o n).k = n := rfl
@[simp] theorem State.setTable_nn : (s.setTable f o n).nn = s.nn := rfl
@[simp] theorem State.setTable_root : (s.setTable f o n).root = s.root := rfl
@[simp] theorem State.setTable_hsize : (s.setTable f o n).hsize = s.hsize := rfl
@[simp] theorem State.setTable_hdrLen : (s.setTable f o n).hdrLen = s.hdrLen := rfl
@[simp] theorem State.setTable_padBits : (s.setTable f o n).padBits = s.padBits := rfl
@[simp] theorem State.setTable_payLen : (s.setTable f o n).payLen = s.payLen := rfl
@[simp] theorem State.setTable_outLen : (s.setTable f o n).outLen = s.outLen := rfl
@[simp] theorem State.setTable_ibuf : (s.setTable f o n).ibuf = s.ibuf := rfl
@[simp] theorem State.setTable_obuf : (s.setTable f o n).obuf = s.obuf := rfl
@[simp] theorem State.setTable_freq : (s.setTable f o n).freq = f := rfl
@[simp] theorem State.setTable_ord : (s.setTable f o n).ord = o := rfl
@[simp] theorem State.setTable_node : (s.setTable f o n).node = s.node := rfl
@[simp] theorem State.setTable_heap : (s.setTable f o n).heap = s.heap := rfl
@[simp] theorem State.setTable_clen : (s.setTable f o n).clen = s.clen := rfl
@[simp] theorem State.setTable_cbits : (s.setTable f o n).cbits = s.cbits := rfl
@[simp] theorem State.setTable_hidden : (s.setTable f o n).hidden = s.hidden := rfl
@[simp] theorem State.setTable_host : (s.setTable f o n).host = s.host := rfl
@[simp] theorem State.setTable_free : (s.setTable f o n).free = s.free := rfl

end

section
variable (s : State) (m : List (Nat × HuffNode)) (n : BitVec 9) (r : NodeNo)

@[simp] theorem State.setTree_cfg : (s.setTree m n r).cfg = s.cfg := rfl
@[simp] theorem State.setTree_status : (s.setTree m n r).status = s.status := rfl
@[simp] theorem State.setTree_len : (s.setTree m n r).len = s.len := rfl
@[simp] theorem State.setTree_argFreq : (s.setTree m n r).argFreq = s.argFreq := rfl
@[simp] theorem State.setTree_argNode : (s.setTree m n r).argNode = s.argNode := rfl
@[simp] theorem State.setTree_resFreq : (s.setTree m n r).resFreq = s.resFreq := rfl
@[simp] theorem State.setTree_resNode : (s.setTree m n r).resNode = s.resNode := rfl
@[simp] theorem State.setTree_errSym : (s.setTree m n r).errSym = s.errSym := rfl
@[simp] theorem State.setTree_errIdx : (s.setTree m n r).errIdx = s.errIdx := rfl
@[simp] theorem State.setTree_k : (s.setTree m n r).k = s.k := rfl
@[simp] theorem State.setTree_nn : (s.setTree m n r).nn = n := rfl
@[simp] theorem State.setTree_root : (s.setTree m n r).root = r := rfl
@[simp] theorem State.setTree_hsize : (s.setTree m n r).hsize = s.hsize := rfl
@[simp] theorem State.setTree_hdrLen : (s.setTree m n r).hdrLen = s.hdrLen := rfl
@[simp] theorem State.setTree_padBits : (s.setTree m n r).padBits = s.padBits := rfl
@[simp] theorem State.setTree_payLen : (s.setTree m n r).payLen = s.payLen := rfl
@[simp] theorem State.setTree_outLen : (s.setTree m n r).outLen = s.outLen := rfl
@[simp] theorem State.setTree_ibuf : (s.setTree m n r).ibuf = s.ibuf := rfl
@[simp] theorem State.setTree_obuf : (s.setTree m n r).obuf = s.obuf := rfl
@[simp] theorem State.setTree_freq : (s.setTree m n r).freq = s.freq := rfl
@[simp] theorem State.setTree_ord : (s.setTree m n r).ord = s.ord := rfl
@[simp] theorem State.setTree_node : (s.setTree m n r).node = m := rfl
@[simp] theorem State.setTree_heap : (s.setTree m n r).heap = s.heap := rfl
@[simp] theorem State.setTree_clen : (s.setTree m n r).clen = s.clen := rfl
@[simp] theorem State.setTree_cbits : (s.setTree m n r).cbits = s.cbits := rfl
@[simp] theorem State.setTree_hidden : (s.setTree m n r).hidden = s.hidden := rfl
@[simp] theorem State.setTree_host : (s.setTree m n r).host = s.host := rfl
@[simp] theorem State.setTree_free : (s.setTree m n r).free = s.free := rfl

end

section
variable (s : State) (c : List Host.Cell) (b : List (Nat × Path))

@[simp] theorem State.setCodes_cfg : (s.setCodes c b).cfg = s.cfg := rfl
@[simp] theorem State.setCodes_status : (s.setCodes c b).status = s.status := rfl
@[simp] theorem State.setCodes_len : (s.setCodes c b).len = s.len := rfl
@[simp] theorem State.setCodes_argFreq : (s.setCodes c b).argFreq = s.argFreq := rfl
@[simp] theorem State.setCodes_argNode : (s.setCodes c b).argNode = s.argNode := rfl
@[simp] theorem State.setCodes_resFreq : (s.setCodes c b).resFreq = s.resFreq := rfl
@[simp] theorem State.setCodes_resNode : (s.setCodes c b).resNode = s.resNode := rfl
@[simp] theorem State.setCodes_errSym : (s.setCodes c b).errSym = s.errSym := rfl
@[simp] theorem State.setCodes_errIdx : (s.setCodes c b).errIdx = s.errIdx := rfl
@[simp] theorem State.setCodes_k : (s.setCodes c b).k = s.k := rfl
@[simp] theorem State.setCodes_nn : (s.setCodes c b).nn = s.nn := rfl
@[simp] theorem State.setCodes_root : (s.setCodes c b).root = s.root := rfl
@[simp] theorem State.setCodes_hsize : (s.setCodes c b).hsize = s.hsize := rfl
@[simp] theorem State.setCodes_hdrLen : (s.setCodes c b).hdrLen = s.hdrLen := rfl
@[simp] theorem State.setCodes_padBits : (s.setCodes c b).padBits = s.padBits := rfl
@[simp] theorem State.setCodes_payLen : (s.setCodes c b).payLen = s.payLen := rfl
@[simp] theorem State.setCodes_outLen : (s.setCodes c b).outLen = s.outLen := rfl
@[simp] theorem State.setCodes_ibuf : (s.setCodes c b).ibuf = s.ibuf := rfl
@[simp] theorem State.setCodes_obuf : (s.setCodes c b).obuf = s.obuf := rfl
@[simp] theorem State.setCodes_freq : (s.setCodes c b).freq = s.freq := rfl
@[simp] theorem State.setCodes_ord : (s.setCodes c b).ord = s.ord := rfl
@[simp] theorem State.setCodes_node : (s.setCodes c b).node = s.node := rfl
@[simp] theorem State.setCodes_heap : (s.setCodes c b).heap = s.heap := rfl
@[simp] theorem State.setCodes_clen : (s.setCodes c b).clen = c := rfl
@[simp] theorem State.setCodes_cbits : (s.setCodes c b).cbits = b := rfl
@[simp] theorem State.setCodes_hidden : (s.setCodes c b).hidden = s.hidden := rfl
@[simp] theorem State.setCodes_host : (s.setCodes c b).host = s.host := rfl
@[simp] theorem State.setCodes_free : (s.setCodes c b).free = s.free := rfl

end

section
variable (s : State) (o : List Host.Cell) (h p y w : Nat)

@[simp] theorem State.setContainer_cfg : (s.setContainer o h p y w).cfg = s.cfg := rfl
@[simp] theorem State.setContainer_status : (s.setContainer o h p y w).status = s.status := rfl
@[simp] theorem State.setContainer_len : (s.setContainer o h p y w).len = s.len := rfl
@[simp] theorem State.setContainer_argFreq : (s.setContainer o h p y w).argFreq = s.argFreq := rfl
@[simp] theorem State.setContainer_argNode : (s.setContainer o h p y w).argNode = s.argNode := rfl
@[simp] theorem State.setContainer_resFreq : (s.setContainer o h p y w).resFreq = s.resFreq := rfl
@[simp] theorem State.setContainer_resNode : (s.setContainer o h p y w).resNode = s.resNode := rfl
@[simp] theorem State.setContainer_errSym : (s.setContainer o h p y w).errSym = s.errSym := rfl
@[simp] theorem State.setContainer_errIdx : (s.setContainer o h p y w).errIdx = s.errIdx := rfl
@[simp] theorem State.setContainer_k : (s.setContainer o h p y w).k = s.k := rfl
@[simp] theorem State.setContainer_nn : (s.setContainer o h p y w).nn = s.nn := rfl
@[simp] theorem State.setContainer_root : (s.setContainer o h p y w).root = s.root := rfl
@[simp] theorem State.setContainer_hsize : (s.setContainer o h p y w).hsize = s.hsize := rfl
@[simp] theorem State.setContainer_hdrLen : (s.setContainer o h p y w).hdrLen = BitVec.ofNat 17 h := rfl
@[simp] theorem State.setContainer_padBits : (s.setContainer o h p y w).padBits = BitVec.ofNat 3 p := rfl
@[simp] theorem State.setContainer_payLen : (s.setContainer o h p y w).payLen = outTrunc s.cfg y := rfl
@[simp] theorem State.setContainer_outLen : (s.setContainer o h p y w).outLen = outTrunc s.cfg w := rfl
@[simp] theorem State.setContainer_ibuf : (s.setContainer o h p y w).ibuf = s.ibuf := rfl
@[simp] theorem State.setContainer_obuf : (s.setContainer o h p y w).obuf = o := rfl
@[simp] theorem State.setContainer_freq : (s.setContainer o h p y w).freq = s.freq := rfl
@[simp] theorem State.setContainer_ord : (s.setContainer o h p y w).ord = s.ord := rfl
@[simp] theorem State.setContainer_node : (s.setContainer o h p y w).node = s.node := rfl
@[simp] theorem State.setContainer_heap : (s.setContainer o h p y w).heap = s.heap := rfl
@[simp] theorem State.setContainer_clen : (s.setContainer o h p y w).clen = s.clen := rfl
@[simp] theorem State.setContainer_cbits : (s.setContainer o h p y w).cbits = s.cbits := rfl
@[simp] theorem State.setContainer_hidden : (s.setContainer o h p y w).hidden = s.hidden := rfl
@[simp] theorem State.setContainer_host : (s.setContainer o h p y w).host = s.host := rfl
@[simp] theorem State.setContainer_free : (s.setContainer o h p y w).free = s.free := rfl

end

section
variable (s : State) (es : List HostEvent)

@[simp] theorem State.withPending_cfg : (s.withPending es).cfg = s.cfg := rfl
@[simp] theorem State.withPending_status : (s.withPending es).status = s.status := rfl
@[simp] theorem State.withPending_len : (s.withPending es).len = s.len := rfl
@[simp] theorem State.withPending_argFreq : (s.withPending es).argFreq = s.argFreq := rfl
@[simp] theorem State.withPending_argNode : (s.withPending es).argNode = s.argNode := rfl
@[simp] theorem State.withPending_resFreq : (s.withPending es).resFreq = s.resFreq := rfl
@[simp] theorem State.withPending_resNode : (s.withPending es).resNode = s.resNode := rfl
@[simp] theorem State.withPending_errSym : (s.withPending es).errSym = s.errSym := rfl
@[simp] theorem State.withPending_errIdx : (s.withPending es).errIdx = s.errIdx := rfl
@[simp] theorem State.withPending_k : (s.withPending es).k = s.k := rfl
@[simp] theorem State.withPending_nn : (s.withPending es).nn = s.nn := rfl
@[simp] theorem State.withPending_root : (s.withPending es).root = s.root := rfl
@[simp] theorem State.withPending_hsize : (s.withPending es).hsize = s.hsize := rfl
@[simp] theorem State.withPending_hdrLen : (s.withPending es).hdrLen = s.hdrLen := rfl
@[simp] theorem State.withPending_padBits : (s.withPending es).padBits = s.padBits := rfl
@[simp] theorem State.withPending_payLen : (s.withPending es).payLen = s.payLen := rfl
@[simp] theorem State.withPending_outLen : (s.withPending es).outLen = s.outLen := rfl
@[simp] theorem State.withPending_ibuf : (s.withPending es).ibuf = s.ibuf := rfl
@[simp] theorem State.withPending_obuf : (s.withPending es).obuf = s.obuf := rfl
@[simp] theorem State.withPending_freq : (s.withPending es).freq = s.freq := rfl
@[simp] theorem State.withPending_ord : (s.withPending es).ord = s.ord := rfl
@[simp] theorem State.withPending_node : (s.withPending es).node = s.node := rfl
@[simp] theorem State.withPending_heap : (s.withPending es).heap = s.heap := rfl
@[simp] theorem State.withPending_clen : (s.withPending es).clen = s.clen := rfl
@[simp] theorem State.withPending_cbits : (s.withPending es).cbits = s.cbits := rfl
@[simp] theorem State.withPending_hidden : (s.withPending es).hidden = s.hidden := rfl
@[simp] theorem State.withPending_host : (s.withPending es).host = { s.host with pending := es } := rfl
@[simp] theorem State.withPending_free : (s.withPending es).free = s.free := rfl

end

section
variable (s : State) (w : Nat)

@[simp] theorem State.answer_cfg : (s.answer w).cfg = s.cfg := rfl
@[simp] theorem State.answer_status : (s.answer w).status = s.status := rfl
@[simp] theorem State.answer_len : (s.answer w).len = s.len := rfl
@[simp] theorem State.answer_argFreq : (s.answer w).argFreq = s.argFreq := rfl
@[simp] theorem State.answer_argNode : (s.answer w).argNode = s.argNode := rfl
@[simp] theorem State.answer_resFreq : (s.answer w).resFreq = s.resFreq := rfl
@[simp] theorem State.answer_resNode : (s.answer w).resNode = s.resNode := rfl
@[simp] theorem State.answer_errSym : (s.answer w).errSym = s.errSym := rfl
@[simp] theorem State.answer_errIdx : (s.answer w).errIdx = s.errIdx := rfl
@[simp] theorem State.answer_k : (s.answer w).k = s.k := rfl
@[simp] theorem State.answer_nn : (s.answer w).nn = s.nn := rfl
@[simp] theorem State.answer_root : (s.answer w).root = s.root := rfl
@[simp] theorem State.answer_hsize : (s.answer w).hsize = s.hsize := rfl
@[simp] theorem State.answer_hdrLen : (s.answer w).hdrLen = s.hdrLen := rfl
@[simp] theorem State.answer_padBits : (s.answer w).padBits = s.padBits := rfl
@[simp] theorem State.answer_payLen : (s.answer w).payLen = s.payLen := rfl
@[simp] theorem State.answer_outLen : (s.answer w).outLen = s.outLen := rfl
@[simp] theorem State.answer_ibuf : (s.answer w).ibuf = s.ibuf := rfl
@[simp] theorem State.answer_obuf : (s.answer w).obuf = s.obuf := rfl
@[simp] theorem State.answer_freq : (s.answer w).freq = s.freq := rfl
@[simp] theorem State.answer_ord : (s.answer w).ord = s.ord := rfl
@[simp] theorem State.answer_node : (s.answer w).node = s.node := rfl
@[simp] theorem State.answer_heap : (s.answer w).heap = s.heap := rfl
@[simp] theorem State.answer_clen : (s.answer w).clen = s.clen := rfl
@[simp] theorem State.answer_cbits : (s.answer w).cbits = s.cbits := rfl
@[simp] theorem State.answer_hidden : (s.answer w).hidden = s.hidden := rfl
@[simp] theorem State.answer_host : (s.answer w).host = { s.host with reads := w :: s.host.reads } := rfl
@[simp] theorem State.answer_free : (s.answer w).free = s.free := rfl

end

section
variable (s : State)

@[simp] theorem State.nextEpoch_cfg : (s.nextEpoch).cfg = s.cfg := rfl
@[simp] theorem State.nextEpoch_status : (s.nextEpoch).status = s.status := rfl
@[simp] theorem State.nextEpoch_len : (s.nextEpoch).len = s.len := rfl
@[simp] theorem State.nextEpoch_argFreq : (s.nextEpoch).argFreq = s.argFreq := rfl
@[simp] theorem State.nextEpoch_argNode : (s.nextEpoch).argNode = s.argNode := rfl
@[simp] theorem State.nextEpoch_resFreq : (s.nextEpoch).resFreq = s.resFreq := rfl
@[simp] theorem State.nextEpoch_resNode : (s.nextEpoch).resNode = s.resNode := rfl
@[simp] theorem State.nextEpoch_errSym : (s.nextEpoch).errSym = s.errSym := rfl
@[simp] theorem State.nextEpoch_errIdx : (s.nextEpoch).errIdx = s.errIdx := rfl
@[simp] theorem State.nextEpoch_k : (s.nextEpoch).k = s.k := rfl
@[simp] theorem State.nextEpoch_nn : (s.nextEpoch).nn = s.nn := rfl
@[simp] theorem State.nextEpoch_root : (s.nextEpoch).root = s.root := rfl
@[simp] theorem State.nextEpoch_hsize : (s.nextEpoch).hsize = s.hsize := rfl
@[simp] theorem State.nextEpoch_hdrLen : (s.nextEpoch).hdrLen = s.hdrLen := rfl
@[simp] theorem State.nextEpoch_padBits : (s.nextEpoch).padBits = s.padBits := rfl
@[simp] theorem State.nextEpoch_payLen : (s.nextEpoch).payLen = s.payLen := rfl
@[simp] theorem State.nextEpoch_outLen : (s.nextEpoch).outLen = s.outLen := rfl
@[simp] theorem State.nextEpoch_ibuf : (s.nextEpoch).ibuf = s.ibuf := rfl
@[simp] theorem State.nextEpoch_obuf : (s.nextEpoch).obuf = s.obuf := rfl
@[simp] theorem State.nextEpoch_freq : (s.nextEpoch).freq = s.freq := rfl
@[simp] theorem State.nextEpoch_ord : (s.nextEpoch).ord = s.ord := rfl
@[simp] theorem State.nextEpoch_node : (s.nextEpoch).node = s.node := rfl
@[simp] theorem State.nextEpoch_heap : (s.nextEpoch).heap = s.heap := rfl
@[simp] theorem State.nextEpoch_clen : (s.nextEpoch).clen = s.clen := rfl
@[simp] theorem State.nextEpoch_cbits : (s.nextEpoch).cbits = s.cbits := rfl
@[simp] theorem State.nextEpoch_hidden : (s.nextEpoch).hidden = s.hidden := rfl
@[simp] theorem State.nextEpoch_host : (s.nextEpoch).host = s.host := rfl
@[simp] theorem State.nextEpoch_free : (s.nextEpoch).free = { s.free with epoch := s.free.epoch + 1 } := rfl

end

end Sys2Proof.Machine
end

