-- ==== Sys2Proof/Laws/Command.lean ====
section
/-! SUPPORT. What a command does from acceptance to completion, said once: every command is runCommand of a body, and
each body either raises or finishes with a named update. -/

namespace Sys2Proof.Machine

/-- The phase a command is accepted in (10_state.md R30). -/
def phaseOf : Instr → Phase
  | .nop => .idle
  | .compress => .freq
  | .freqCount => .freq
  | .treeBuild => .tree
  | .codeAssign => .code
  | .pack => .pack
  | .pqClear => .pq
  | .pqInsert => .pq
  | .pqExtractMin => .pq

/-- The pseudocode of a command. -/
def bodyOf : Instr → State → Ran
  | .nop => Ran.finished
  | .compress => compressBody
  | .freqCount => freqCountBody
  | .treeBuild => treeBuildBody
  | .codeAssign => codeAssignBody
  | .pack => packBody
  | .pqClear => pqClearBody
  | .pqInsert => pqInsertBody
  | .pqExtractMin => pqExtractMinBody

theorem exec_eq (i : Instr) (s : State) : exec i s = runCommand (phaseOf i) (bodyOf i) s := by cases i <;> rfl

theorem exec_next_iff {i : Instr} {s t : State} :
    exec i s = .next t ↔ t = ((bodyOf i) (s.accept (phaseOf i))).complete := by
  rw [exec_eq, runCommand]
  constructor
  · intro h; injection h with h; exact h.symm
  · rintro rfl; rfl

@[simp] theorem Ran.complete_finished (s : State) : (Ran.finished s).complete = s.finish := rfl

@[simp] theorem Ran.complete_raised (s : State) : (Ran.raised s).complete = s := rfl

@[simp] theorem Ran.complete_raise (e : ErrCode) (sym : Byte) (idx : Nat) (s : State) :
    (Machine.raise e sym idx s).complete = s.raise e sym idx := rfl

@[simp] theorem Ran.andThen_finished (s : State) (f : State → Ran) : (Ran.finished s).andThen f = f s := rfl

@[simp] theorem Ran.andThen_raised (s : State) (f : State → Ran) : (Ran.raised s).andThen f = .raised s := rfl

@[simp] theorem Ran.andThen_raise (e : ErrCode) (sym : Byte) (idx : Nat) (s : State) (f : State → Ran) :
    (Machine.raise e sym idx s).andThen f = Machine.raise e sym idx s := rfl

/-- A raised end is always that of State.raise, so the block is idle and done. -/
def Ran.closed : Ran → Prop
  | .finished _ => True
  | .raised s => ∃ (e : ErrCode) (sym : Byte) (idx : Nat) (s0 : State), s = s0.raise e sym idx

theorem Ran.closed_raise (e : ErrCode) (sym : Byte) (idx : Nat) (s : State) : (Machine.raise e sym idx s).closed :=
  ⟨e, sym, idx, s, rfl⟩

theorem Ran.closed_andThen {r : Ran} {f : State → Ran} (hr : r.closed) (hf : ∀ s, (f s).closed) :
    (r.andThen f).closed := by
  cases r
  · exact hf _
  · exact hr

/-! ## What each body can do -/

/-- FREQ_COUNT rejects a LEN above IBUF_CAP or writes the table of its input. -/
theorem freqCountBody_cases (s : State) :
    (s.cfg.ibufCap < s.len ∧ freqCountBody s = Machine.raise .lenRange 0 0 s) ∨
      (s.len ≤ s.cfg.ibufCap ∧
        ∃ t, t = s.input.foldl (FreqTable.count s.cfg) (FreqTable.cleared s.ord) ∧
          freqCountBody s = .finished (s.setTable t.freq t.ord t.k)) := by
  by_cases h : s.cfg.ibufCap < s.len
  · exact .inl ⟨h, if_pos h⟩
  · exact .inr ⟨Nat.le_of_not_lt h, _, rfl, if_neg h⟩

/-- TREE_BUILD rejects an empty table or leaves a tree, its root in the result registers. -/
theorem treeBuildBody_cases (s : State) :
    (s.k = 0 ∧ treeBuildBody s = Machine.raise .emptyInput 0 0 (s.setTreeValid false)) ∨
      (s.k ≠ 0 ∧
        ∃ b x, b = Build.mergeAll s.cfg s.heapFill s.k.toNat (Build.leaves s) ∧
          x = pqExtractMin s.heapFill b.queue ∧
          treeBuildBody s =
            .finished
              (((((s.setTreeValid false).setTree b.node b.nn x.1.entry.node).setQueue x.2.heap x.2.hsize).setResult
                x.1.empty x.1.entry).setTreeValid true)) := by
  by_cases h : s.k = 0
  · exact .inl ⟨h, if_pos h⟩
  · exact .inr ⟨h, _, _, rfl, rfl, if_neg h⟩

/-- CODE_ASSIGN rejects TREE_VALID = 0 or writes the whole table of the tree at ROOT. -/
theorem codeAssignBody_cases (s : State) :
    (s.status.treeValid = false ∧ codeAssignBody s = Machine.raise .noTree 0 0 s) ∨
      (s.status.treeValid = true ∧
        codeAssignBody s =
          .finished (s.setCodes (Walk.table s.nodeAt s.root).clen (Walk.table s.nodeAt s.root).cbits)) := by
  unfold codeAssignBody
  cases h : s.status.treeValid
  · exact .inl ⟨rfl, rfl⟩
  · exact .inr ⟨rfl, rfl⟩

/-- PACK zeroes the result registers and then raises the first of its four errors, or writes a container. -/
theorem packBody_cases (s : State) :
    (s.cfg.ibufCap < s.len ∧ packBody s = Machine.raise .lenRange 0 0 s.clearResults) ∨
    (s.len ≤ s.cfg.ibufCap ∧ s.len = 0 ∧ packBody s = Machine.raise .emptyInput 0 0 s.clearResults) ∨
    (s.len ≤ s.cfg.ibufCap ∧ s.len ≠ 0 ∧ ∃ sym idx, firstMissing s.codeLen 0 s.input = some (sym, idx) ∧
      packBody s = Machine.raise .missingCode sym idx s.clearResults) ∨
    (s.len ≤ s.cfg.ibufCap ∧ s.len ≠ 0 ∧ firstMissing s.codeLen 0 s.input = none ∧
      ∃ t h, t = totalBits s.codeLen s.input ∧ h = headerLength s.codeLen ∧
        ((s.cfg.obufCap < containerLength h t ∧ packBody s = Machine.raise .outOverflow 0 0 s.clearResults) ∨
          (containerLength h t ≤ s.cfg.obufCap ∧ ∃ p, p = Packer.run s.code h s.input s.obuf ∧
            packBody s =
              .finished (s.clearResults.setContainer p.obuf h (padCount t) (payloadLength t) p.wp)))) := by
  by_cases h1 : s.cfg.ibufCap < s.len
  · exact .inl ⟨h1, if_pos h1⟩
  refine .inr ?_
  by_cases h2 : s.len = 0
  · exact .inl ⟨Nat.le_of_not_lt h1, h2, (if_neg h1).trans (if_pos h2)⟩
  refine .inr ?_
  have e : packBody s = _ := (if_neg h1).trans (if_neg h2)
  rw [e]
  show _ ∨ _
  cases h3 : firstMissing s.codeLen 0 s.input with
  | some p => exact .inl ⟨Nat.le_of_not_lt h1, h2, p.1, p.2, rfl, by
      rw [show firstMissing s.clearResults.codeLen 0 s.clearResults.input = some p from h3]⟩
  | none =>
    refine .inr ⟨Nat.le_of_not_lt h1, h2, rfl, _, _, rfl, rfl, ?_⟩
    rw [show firstMissing s.clearResults.codeLen 0 s.clearResults.input = none from h3]
    by_cases h4 : s.cfg.obufCap < containerLength (headerLength s.codeLen) (totalBits s.codeLen s.input)
    · exact .inl ⟨h4, if_pos h4⟩
    · exact .inr ⟨Nat.le_of_not_lt h4, _, rfl, if_neg h4⟩

/-- PQ_INSERT rejects a full queue or inserts the argument entry. -/
theorem pqInsertBody_cases (s : State) :
    (s.hsize.toNat = 256 ∧ pqInsertBody s = Machine.raise .pqFull 0 0 s) ∨
      (s.hsize.toNat ≠ 256 ∧ ∃ q, q = pqInsert s.heapFill s.queue s.argEntry ∧
        pqInsertBody s = .finished (s.setQueue q.heap q.hsize)) := by
  by_cases h : s.hsize.toNat = 256
  · exact .inl ⟨h, if_pos h⟩
  · exact .inr ⟨h, _, rfl, if_neg h⟩

theorem bodyOf_closed (i : Instr) (s : State) : (bodyOf i s).closed := by
  have hf : ∀ s, (freqCountBody s).closed := fun s => by
    rcases freqCountBody_cases s with ⟨_, h⟩ | ⟨_, _, _, h⟩ <;> rw [h]
    · exact Ran.closed_raise ..
    · trivial
  have ht : ∀ s, (treeBuildBody s).closed := fun s => by
    rcases treeBuildBody_cases s with ⟨_, h⟩ | ⟨_, _, _, _, _, h⟩ <;> rw [h]
    · exact Ran.closed_raise ..
    · trivial
  have hc : ∀ s, (codeAssignBody s).closed := fun s => by
    rcases codeAssignBody_cases s with ⟨_, h⟩ | ⟨_, h⟩ <;> rw [h]
    · exact Ran.closed_raise ..
    · trivial
  have hp : ∀ s, (packBody s).closed := fun s => by
    rcases packBody_cases s with ⟨_, h⟩ | ⟨_, _, h⟩ | ⟨_, _, _, _, _, h⟩ | ⟨_, _, _, _, _, _, _, h⟩
    · rw [h]; exact Ran.closed_raise ..
    · rw [h]; exact Ran.closed_raise ..
    · rw [h]; exact Ran.closed_raise ..
    · rcases h with ⟨_, h⟩ | ⟨_, _, _, h⟩ <;> rw [h]
      · exact Ran.closed_raise ..
      · trivial
  cases i
  · trivial
  · exact Ran.closed_andThen (hf _) fun s => Ran.closed_andThen (ht _) fun s => Ran.closed_andThen (hc _) fun s => hp _
  · exact hf s
  · exact ht s
  · exact hc s
  · exact hp s
  · trivial
  · show (pqInsertBody s).closed
    rcases pqInsertBody_cases s with ⟨_, h⟩ | ⟨_, _, _, h⟩ <;> rw [h]
    · exact Ran.closed_raise ..
    · trivial
  · trivial

end Sys2Proof.Machine
end

