-- ==== Sys2Proof/Laws/Queue.lean ====
section
/-! SUPPORT. What the queue's procedures do (41_priority_queue.md): the size, the words they leave alone, and that they
only move whole entries. -/

namespace Sys2Proof.Machine

section
variable (fill : Nat → HeapEntry) (q : Queue)

@[simp] theorem Queue.swap_hsize (i j : Nat) : (q.swap fill i j).hsize = q.hsize := rfl

theorem Queue.at_put (h : List (Nat × HeapEntry)) (n : BitVec 9) (i j : Nat) (e : HeapEntry) :
    Queue.at fill { heap := Mem.put h i e, hsize := n } j =
      if j = i then e else Queue.at fill { heap := h, hsize := n } j := by
  simp only [Queue.at, Mem.find?_put]
  split <;> rfl

theorem Queue.at_swap (i j k : Nat) :
    (q.swap fill i j).at fill k = if k = j then q.at fill i else if k = i then q.at fill j else q.at fill k := by
  simp only [Queue.swap, Queue.at, Mem.find?_put]
  split
  · rfl
  · split <;> rfl

theorem Queue.find?_swap_of_ne {i j k : Nat} (hi : k ≠ i) (hj : k ≠ j) :
    Mem.find? (q.swap fill i j).heap k = Mem.find? q.heap k := by
  simp [Queue.swap, Mem.find?_put, hi, hj]

/-- The contents HEAP[0..HSIZE−1] (41_priority_queue.md R130). -/
def Queue.toList : List HeapEntry := (List.range q.hsize.toNat).map (q.at fill)

@[simp] theorem Queue.length_toList : (q.toList fill).length = q.hsize.toNat := by simp [Queue.toList]

@[simp] theorem Queue.getElem_toList (i : Nat) (h : i < (q.toList fill).length) : (q.toList fill)[i] = q.at fill i := by
  simp [Queue.toList]

/-- Exchanging two entries of the queue loses, alters and duplicates none (R138). -/
theorem Queue.swap_perm {i j : Nat} (hi : i < q.hsize.toNat) (hj : j < q.hsize.toNat) :
    ((q.swap fill i j).toList fill).Perm (q.toList fill) := by
  have hi' : i < (q.toList fill).length := by simpa using hi
  have hj' : j < (q.toList fill).length := by simpa using hj
  have : (q.swap fill i j).toList fill = ((q.toList fill).set i (q.at fill j)).set j (q.at fill i) := by
    refine List.ext_getElem (by simp) fun k h1 h2 => ?_
    simp only [Queue.getElem_toList, Queue.at_swap, List.getElem_set]
    split_ifs <;> first | rfl | omega
  rw [this]
  simpa using List.set_set_perm hi' hj'

/-! ## pq_insert -/

@[simp] theorem Queue.siftUp_hsize (passes : Nat) (i : Nat) : (Queue.siftUp fill passes q i).hsize = q.hsize := by
  induction passes generalizing q i with
  | zero => rfl
  | succ n ih =>
    unfold Queue.siftUp
    split
    · rfl
    · dsimp only
      split
      · rw [ih]; rfl
      · rfl

/-- pq_insert writes no word above the new entry's. -/
theorem Queue.find?_siftUp_of_lt (passes : Nat) {i k : Nat} (h : i < k) :
    Mem.find? (Queue.siftUp fill passes q i).heap k = Mem.find? q.heap k := by
  induction passes generalizing q i with
  | zero => rfl
  | succ n ih =>
    unfold Queue.siftUp
    split
    · rfl
    · dsimp only
      split
      · rw [ih _ (by omega), Queue.find?_swap_of_ne fill q (by omega) (by omega)]
      · rfl

theorem Queue.siftUp_perm (passes : Nat) {i : Nat} (h : i < q.hsize.toNat) :
    ((Queue.siftUp fill passes q i).toList fill).Perm (q.toList fill) := by
  induction passes generalizing q i with
  | zero => exact List.Perm.refl _
  | succ n ih =>
    unfold Queue.siftUp
    split
    · exact List.Perm.refl _
    · dsimp only
      split
      · exact (ih _ (by simp only [Queue.swap_hsize]; omega)).trans (Queue.swap_perm fill q h (by omega))
      · exact List.Perm.refl _

@[simp] theorem pqInsert_hsize (e : HeapEntry) : (pqInsert fill q e).hsize = q.hsize + 1 := by simp [pqInsert]

theorem pqInsert_find?_of_lt (e : HeapEntry) {k : Nat} (h : q.hsize.toNat < k) :
    Mem.find? (pqInsert fill q e).heap k = Mem.find? q.heap k := by
  rw [pqInsert, Queue.find?_siftUp_of_lt fill _ _ h, Mem.find?_put_of_ne _ _ (by omega)]

/-- What pq_insert does: one entry more, the others as they were (R138). -/
theorem pqInsert_perm (e : HeapEntry) (h : q.hsize.toNat < 511) :
    ((pqInsert fill q e).toList fill).Perm (e :: q.toList fill) := by
  have hs : (q.hsize + 1).toNat = q.hsize.toNat + 1 := by
    rw [BitVec.toNat_add]
    show (q.hsize.toNat + 1) % 512 = _
    omega
  refine (Queue.siftUp_perm fill _ _ (by show q.hsize.toNat < (q.hsize + 1).toNat; omega)).trans ?_
  have : Queue.toList fill { heap := Mem.put q.heap q.hsize.toNat e, hsize := q.hsize + 1 } = q.toList fill ++ [e] := by
    simp only [Queue.toList, hs, List.range_succ, List.map_append, List.map_cons, List.map_nil, Queue.at_put, if_true]
    congr 1
    refine List.map_congr_left fun k hk => ?_
    have hk := List.mem_range.mp hk
    rw [Queue.at_put, if_neg (by omega)]
    rfl
  rw [this]
  exact List.perm_append_singleton e _

/-! ## pq_extract_min -/

/-- The index pq_extract_min goes on with is i itself, or a present child that is strictly smaller than entry i. -/
theorem Queue.smallest_cases (i : Nat) :
    q.smallest fill i = i ∨
      ((q.smallest fill i = 2 * i + 1 ∨ q.smallest fill i = 2 * i + 2) ∧ q.smallest fill i < q.hsize.toNat ∧
        (q.at fill (q.smallest fill i)).freq < (q.at fill i).freq) := by
  unfold Queue.smallest
  dsimp only
  by_cases h1 : 2 * i + 1 < q.hsize.toNat ∧ (q.at fill (2 * i + 1)).freq < (q.at fill i).freq
  · simp only [if_pos h1]
    split
    · rename_i h2
      exact .inr ⟨.inr rfl, h2.1, h2.2.trans h1.2⟩
    · exact .inr ⟨.inl rfl, h1⟩
  · simp only [if_neg h1]
    split
    · exact .inr ⟨.inr rfl, ‹_›⟩
    · exact .inl rfl

/-- After the two tests no present child is strictly smaller than the chosen entry. -/
theorem Queue.smallest_le (i c : Nat) (hc : c = i ∨ c = 2 * i + 1 ∨ c = 2 * i + 2)
    (h : c = i ∨ c < q.hsize.toNat) : (q.at fill (q.smallest fill i)).freq ≤ (q.at fill c).freq := by
  unfold Queue.smallest
  dsimp only
  rcases hc with rfl | rfl | rfl <;> split_ifs with h1 h2 h2 <;> omega

@[simp] theorem Queue.siftDown_hsize (passes : Nat) (i : Nat) : (Queue.siftDown fill passes q i).hsize = q.hsize := by
  induction passes generalizing q i with
  | zero => rfl
  | succ n ih =>
    unfold Queue.siftDown
    dsimp only
    split
    · rfl
    · rw [ih]; rfl

/-- pq_extract_min writes no word from the new size on, and none below the index it starts at. -/
theorem Queue.find?_siftDown (passes : Nat) {i k : Nat} (hi : i < q.hsize.toNat) (hk : k < i ∨ q.hsize.toNat ≤ k) :
    Mem.find? (Queue.siftDown fill passes q i).heap k = Mem.find? q.heap k := by
  induction passes generalizing q i with
  | zero => rfl
  | succ n ih =>
    unfold Queue.siftDown
    dsimp only
    split
    · rfl
    · rcases Queue.smallest_cases fill q i with h | ⟨h1, h2, _⟩
      · exact absurd h ‹_›
      · rw [ih (q.swap fill i _) h2 (by simp only [Queue.swap_hsize]; omega),
          Queue.find?_swap_of_ne fill q (by omega) (by omega)]

theorem Queue.siftDown_perm (passes : Nat) {i : Nat} (hi : i < q.hsize.toNat) :
    ((Queue.siftDown fill passes q i).toList fill).Perm (q.toList fill) := by
  induction passes generalizing q i with
  | zero => exact List.Perm.refl _
  | succ n ih =>
    unfold Queue.siftDown
    dsimp only
    split
    · exact List.Perm.refl _
    · rcases Queue.smallest_cases fill q i with h | ⟨_, h2, _⟩
      · exact absurd h ‹_›
      · exact (ih (q.swap fill i _) h2).trans (Queue.swap_perm fill q hi h2)

/-- What pq_extract_min does: the empty sentinel with nothing changed, or the root returned, the size one less. -/
theorem pqExtractMin_cases :
    (q.hsize = 0 ∧ pqExtractMin fill q = ({ empty := true, entry := { freq := 0, node := 0 } }, q)) ∨
      (q.hsize ≠ 0 ∧ (pqExtractMin fill q).1 = { empty := false, entry := q.at fill 0 } ∧
        (pqExtractMin fill q).2.hsize = q.hsize - 1) := by
  by_cases h : q.hsize = 0
  · exact .inl ⟨h, if_pos h⟩
  · refine .inr ⟨h, ?_, ?_⟩
    · simp only [pqExtractMin, h, if_false]
    · simp only [pqExtractMin, h, if_false]
      split
      · rfl
      · simp

end

end Sys2Proof.Machine
end

