-- ==== Sys2Proof/Laws/Components.lean ====
section
/-! SUPPORT. What the loop bodies of the components do, one lemma for each: FrequencyTable, TreeBuilder, CodeAssigner,
BitPacker. -/

namespace Sys2Proof.Machine

/-! ## FrequencyTable (40_frequency_table.md R121) -/

/-- Counting one byte adds 1 to its word of FREQ and to no other, where the sum fits CNT_W bits. -/
theorem FreqTable.freqWord_count (c : Config) (t : FreqTable) (b : Byte) (i : Nat)
    (h : freqWord t.freq b.toNat + 1 < 2 ^ c.cntW) :
    freqWord (t.count c b).freq i = if i = b.toNat then freqWord t.freq b.toNat + 1 else freqWord t.freq i := by
  unfold FreqTable.count
  split <;> simp only [freqWord_storeFreq, cntTrunc_of_lt h]

/-- A symbol is appended to ORD exactly when it is seen for the first time. -/
theorem FreqTable.ord_count (c : Config) (t : FreqTable) (b : Byte) :
    (freqWord t.freq b.toNat = 0 ∧ (t.count c b).ord = Mem.put t.ord t.k.toNat b ∧ (t.count c b).k = t.k + 1) ∨
      (freqWord t.freq b.toNat ≠ 0 ∧ (t.count c b).ord = t.ord ∧ (t.count c b).k = t.k) := by
  by_cases h : freqWord t.freq b.toNat = 0
  · exact .inl ⟨h, by simp only [FreqTable.count, if_pos h], by simp only [FreqTable.count, if_pos h]⟩
  · exact .inr ⟨h, by simp only [FreqTable.count, if_neg h], by simp only [FreqTable.count, if_neg h]⟩

/-! ## TreeBuilder (42_tree_builder.md R153) -/

/-- One leaf more: node j is written, one entry is inserted. -/
theorem Build.addLeaf_eq (s : State) (b : Build) (j : Nat) :
    (b.addLeaf s j).node = Mem.put b.node j (.leaf (s.ordAt j) (s.freqAt (s.ordAt j).toNat)) ∧
      (b.addLeaf s j).nn = b.nn ∧
      (b.addLeaf s j).queue =
        pqInsert s.heapFill b.queue { freq := s.freqAt (s.ordAt j).toNat, node := BitVec.ofNat 9 j } :=
  ⟨rfl, rfl, rfl⟩

/-- A merge of a queue of at least two entries leaves one entry less and one node more. -/
theorem Build.merge_sizes (c : Config) (fill : Nat → HeapEntry) (b : Build) (h : 1 < b.queue.hsize.toNat) :
    (b.merge c fill).queue.hsize = b.queue.hsize - 1 ∧ (b.merge c fill).nn = b.nn + 1 := by
  have h0 : b.queue.hsize ≠ 0 := by
    intro h'
    rw [h'] at h
    simp at h
  rcases pqExtractMin_cases fill b.queue with ⟨h', _⟩ | ⟨_, _, hx⟩
  · exact absurd h' h0
  have h1 : (pqExtractMin fill b.queue).2.hsize ≠ 0 := by
    rw [hx]
    intro h'
    have := congrArg BitVec.toNat h'
    simp [BitVec.toNat_sub] at this
    omega
  rcases pqExtractMin_cases fill (pqExtractMin fill b.queue).2 with ⟨h', _⟩ | ⟨_, _, hy⟩
  · exact absurd h' h1
  refine ⟨?_, rfl⟩
  show (pqInsert fill (pqExtractMin fill (pqExtractMin fill b.queue).2).2 _).hsize = _
  rw [pqInsert_hsize, hy, hx]
  simp

/-! ## CodeAssigner (43_code_assigner.md R166) -/

/-- A table entry written by the block: the code length of its symbol and of no other. -/
theorem Walk.clen_assign (w : Walk) (sym len : Byte) (path : Path) (i : Nat) :
    clenWord (w.assign sym len path).clen i = if i = sym.toNat then len else clenWord w.clen i :=
  clenWord_storeClen w.clen sym.toNat i len

/-- A table entry written by the block: the code bits of its symbol and of no other. -/
theorem Walk.cbits_assign (w : Walk) (sym len : Byte) (path : Path) (i : Nat) :
    Mem.find? (w.assign sym len path).cbits i =
      if i = sym.toNat then some path else Mem.find? w.cbits i :=
  Mem.find?_put w.cbits sym.toNat i _

/-- A popped leaf is recorded; a popped internal node pushes its children, the left one on top. -/
theorem Walk.visit_cases (node : HuffNode) (e : StkEntry) (w : Walk) :
    (∃ sym f, node = .leaf sym f ∧ Walk.visit node e w = w.assign sym e.len e.path) ∨
      (∃ f left right, node = .internal f left right ∧ (Walk.visit node e w).clen = w.clen ∧
        (Walk.visit node e w).cbits = w.cbits ∧
        (Walk.visit node e w).stk = { node := left, len := e.len + 1, path := e.path } ::
          { node := right, len := e.len + 1, path := pathRight e.path e.len } :: w.stk) := by
  cases node with
  | leaf sym f => exact .inl ⟨sym, f, rfl, rfl⟩
  | internal f left right => exact .inr ⟨f, left, right, rfl, rfl, rfl, rfl⟩

/-- No word of CLEN is set after the clearing loop. -/
@[simp] theorem Walk.clen_cleared (stk : List StkEntry) (i : Nat) : clenWord (Walk.cleared stk).clen i = 0 := rfl

/-! ## BitPacker (44_bit_packer.md R181) -/

@[simp] theorem Packer.emit_acc (p : Packer) (x : Byte) : (p.emit x).acc = p.acc := rfl

@[simp] theorem Packer.emit_accn (p : Packer) (x : Byte) : (p.emit x).accn = p.accn := rfl

@[simp] theorem Packer.emit_wp (p : Packer) (x : Byte) : (p.emit x).wp = p.wp + 1 := rfl

theorem Packer.emitAll_cons (p : Packer) (x : Byte) (xs : List Byte) : p.emitAll (x :: xs) = (p.emit x).emitAll xs := rfl

theorem Packer.emitAll_append (p : Packer) (xs ys : List Byte) : p.emitAll (xs ++ ys) = (p.emitAll xs).emitAll ys :=
  List.foldl_append ..

/-- What emitting bytes does: they stand in OBUF from WP on in order, every other word of OBUF is as it was, WP is behind
them, and the byte being assembled is as it was. -/
theorem Packer.emitAll_eq (p : Packer) (xs : List Byte) :
    (p.emitAll xs).wp = p.wp + xs.length ∧ (p.emitAll xs).acc = p.acc ∧ (p.emitAll xs).accn = p.accn ∧
      (∀ i, i < xs.length → Mem.find? (p.emitAll xs).obuf (p.wp + i) = xs[i]?) ∧
      ∀ i, i < p.wp ∨ p.wp + xs.length ≤ i → Mem.find? (p.emitAll xs).obuf i = Mem.find? p.obuf i := by
  induction xs generalizing p with
  | nil => exact ⟨rfl, rfl, rfl, fun i h => absurd h (Nat.not_lt_zero i), fun i _ => rfl⟩
  | cons x xs ih =>
    obtain ⟨h1, h2, h3, h4, h5⟩ := ih (p.emit x)
    rw [Packer.emitAll_cons]
    refine ⟨by rw [h1, Packer.emit_wp, List.length_cons]; omega, h2, h3, fun i hi => ?_, fun i hi => ?_⟩
    · cases i with
      | zero =>
        rw [h5 _ (by simp), Nat.add_zero]
        simp [Packer.emit]
      | succ j =>
        have := h4 j (by simpa using hi)
        rw [Packer.emit_wp] at this
        rw [show p.wp + (j + 1) = p.wp + 1 + j by omega, this]
        rfl
    · simp only [List.length_cons] at hi
      rw [h5 i (by simp only [Packer.emit_wp]; omega)]
      exact Mem.find?_put_of_ne _ _ (by omega)

/-- Pass 1 finds no missing code exactly when every input byte has one. -/
theorem firstMissing_eq_none (codeLen : Byte → Nat) (i : Nat) (input : List Byte) :
    firstMissing codeLen i input = none ↔ ∀ b ∈ input, codeLen b ≠ 0 := by
  induction input generalizing i with
  | nil => simp [firstMissing]
  | cons b rest ih =>
    unfold firstMissing
    by_cases h : codeLen b = 0
    · simp [h]
    · simp [h, ih]

/-- Pass 1 reports the byte without a code of lowest index. -/
theorem firstMissing_eq_some (codeLen : Byte → Nat) (i : Nat) (input : List Byte) (b : Byte) (n : Nat)
    (h : firstMissing codeLen i input = some (b, n)) :
    ∃ j, n = i + j ∧ input[j]? = some b ∧ codeLen b = 0 ∧ ∀ c ∈ input.take j, codeLen c ≠ 0 := by
  induction input generalizing i with
  | nil => simp [firstMissing] at h
  | cons a rest ih =>
    unfold firstMissing at h
    split at h
    · obtain ⟨rfl, rfl⟩ : a = b ∧ i = n := by simpa using h
      exact ⟨0, rfl, rfl, ‹_›, by simp⟩
    · obtain ⟨j, h1, h2, h3, h4⟩ := ih (i + 1) h
      refine ⟨j + 1, by omega, by simpa using h2, h3, fun c hc => ?_⟩
      rcases List.mem_cons.mp (by simpa using hc) with rfl | hc
      · assumption
      · exact h4 c hc

/-- T is the sum of the code lengths of the input. -/
theorem totalBits_eq (codeLen : Byte → Nat) (input : List Byte) : totalBits codeLen input = (input.map codeLen).sum := by
  have : ∀ t, input.foldl (fun t b => t + codeLen b) t = t + (input.map codeLen).sum := by
    induction input with
    | nil => simp
    | cons b rest ih => intro t; simp [ih, Nat.add_assoc]
  simpa [totalBits] using this 0

theorem padCount_le (t : Nat) : padCount t ≤ 7 := by unfold padCount; omega

theorem payloadLength_mul (t : Nat) : 8 * payloadLength t = t + padCount t := by unfold payloadLength padCount; omega

end Sys2Proof.Machine
end

