-- ==== Sys2Proof/Laws/PerInstr.lean ====
section
/-! SUPPORT. The family Encoding, one lemma for each command: its word has a clear upper field and an assigned operation
(30_encoding.md R90, R94), and it decodes to the command. -/

namespace Sys2Proof.Laws.Encoding

/-- What is shown of each command as a word. -/
def Statement (i : Instr) : Prop :=
  i.fields.wf = true ∧ FormatC.ofWord (encode i) = i.fields ∧ decode (encode i) = .ok i

theorem nop : Statement .nop := by unfold Statement; decide

theorem compress : Statement .compress := by unfold Statement; decide

theorem freqCount : Statement .freqCount := by unfold Statement; decide

theorem treeBuild : Statement .treeBuild := by unfold Statement; decide

theorem codeAssign : Statement .codeAssign := by unfold Statement; decide

theorem pack : Statement .pack := by unfold Statement; decide

theorem pqClear : Statement .pqClear := by unfold Statement; decide

theorem pqInsert : Statement .pqInsert := by unfold Statement; decide

theorem pqExtractMin : Statement .pqExtractMin := by unfold Statement; decide

end Sys2Proof.Laws.Encoding
end

