-- ==== Sys2Proof/Laws/Step.lean ====
section
/-! SUPPORT. What a step can do, said once: it runs a command, or does one of the host's other actions. -/

namespace Sys2Proof.Machine

/-- A write to CMD answers the next state of the command it selects, or of the failing reserved word. -/
theorem command_next {v : Nat} {s t : State} (h : command v s = .next t) :
    (∃ i, decode? (commandWord v) = some i ∧ exec i s = .next t) ∨
      (decode? (commandWord v) = none ∧ t = (s.accept .idle).raise .illegalCmd 0 0) := by
  unfold command at h
  split at h
  · exact .inl ⟨_, ‹_›, h⟩
  · refine .inr ⟨‹_›, ?_⟩
    injection h with h
    exact h.symm

/-- Every way a step answers a next state. -/
theorem step_next {s t : State} (h : step s = .next t) :
    (s.host.pending = [] ∧ s.status.busy = false ∧ t = s) ∨
    (∃ sp i es, s.host.pending = .read sp i :: es ∧
      t = (s.withPending es).answer ((s.withPending es).hostRead sp i)) ∨
    (∃ sp i v es, s.host.pending = .write sp i v :: es ∧ s.status.busy = false ∧ isCmd sp i = false ∧
      t = (s.withPending es).hostWrite sp i v) ∨
    (∃ v es i, s.host.pending = .write 0 0 v :: es ∧ s.status.busy = false ∧ decode? (commandWord v) = some i ∧
      exec i (s.withPending es) = .next t) ∨
    (∃ v es, s.host.pending = .write 0 0 v :: es ∧ s.status.busy = false ∧ decode? (commandWord v) = none ∧
      t = ((s.withPending es).accept .idle).raise .illegalCmd 0 0) ∨
    (∃ e es, s.host.pending = e :: es ∧ (e = .rst ∨ ∃ v, e = .commandCutByRst v) ∧
      t = (s.withPending es).afterRst) := by
  unfold step serveFirst at h
  split at h
  · rename_i hp
    unfold rest at h
    split at h
    · cases h
    · injection h with h
      exact .inl ⟨hp, by simpa using ‹¬ s.status.busy = true›, h.symm⟩
  · rename_i e es hp
    cases e with
    | read sp i =>
      simp only [serve] at h
      split at h
      · cases h
      · injection h with h
        exact .inr (.inl ⟨sp, i, es, hp, h.symm⟩)
    | write sp i v =>
      simp only [serve] at h
      split at h
      · cases h
      · have hb : s.status.busy = false := by simpa using ‹¬ (s.withPending es).status.busy = true›
        split at h
        · rename_i hc
          obtain ⟨rfl, rfl⟩ : sp = 0 ∧ i = 0 := by simpa [isCmd] using hc
          rcases command_next h with ⟨i, h1, h2⟩ | ⟨h1, h2⟩
          · exact .inr (.inr (.inr (.inl ⟨v, es, i, hp, hb, h1, h2⟩)))
          · exact .inr (.inr (.inr (.inr (.inl ⟨v, es, hp, hb, h1, h2⟩))))
        · injection h with h
          exact .inr (.inr (.inl ⟨sp, i, v, es, hp, hb, by simpa using ‹¬ isCmd sp i = true›, h.symm⟩))
    | rst =>
      simp only [serve] at h
      injection h with h
      exact .inr (.inr (.inr (.inr (.inr ⟨_, es, hp, .inl rfl, h.symm⟩))))
    | commandCutByRst v =>
      simp only [serve] at h
      injection h with h
      exact .inr (.inr (.inr (.inr (.inr ⟨_, es, hp, .inr ⟨v, rfl⟩, h.symm⟩))))
    | rstWithAccess sp i =>
      simp only [serve] at h
      cases h

/-- The CLEN low bits of a CBITS word are what the host sees of it for certain. -/
theorem State.readCbits_mod (s : State) (i : Nat) :
    s.readCbits i % 2 ^ (s.clenAt i).toNat = (s.cbitsAt i).toNat % 2 ^ (s.clenAt i).toNat := by
  simp [State.readCbits]

theorem Space.number_of_ofNumber? {n : Nat} {sp : Space} (h : Space.ofNumber? n = some sp) : n = sp.number := by
  unfold Space.ofNumber? at h
  split at h <;> first | (injection h with h; subst h; rfl) | cases h

/-- Every way a host write, other than to CMD, changes the state. -/
theorem hostWrite_cases (s : State) (sp i v : Nat) :
    s.hostWrite sp i v = s ∨
    (sp = 0 ∧ i = 2 ∧ s.hostWrite sp i v = { s with len := cntTrunc s.cfg v }) ∨
    (sp = 0 ∧ i = 3 ∧ s.hostWrite sp i v = { s with argFreq := cntTrunc s.cfg v }) ∨
    (sp = 0 ∧ i = 4 ∧ s.hostWrite sp i v = { s with argNode := BitVec.ofNat 9 v }) ∨
    (sp = 1 ∧ i < s.cfg.ibufCap ∧ s.hostWrite sp i v = { s with ibuf := Mem.put s.ibuf i (BitVec.ofNat 8 v) }) ∨
    (sp = 7 ∧ i < 256 ∧
      s.hostWrite sp i v = { s.nextEpoch with clen := storeClen s.clen i (BitVec.ofNat 8 v) }) ∨
    (sp = 8 ∧ i < 256 ∧ s.hostWrite sp i v =
      { s.nextEpoch with cbits := Mem.put s.cbits i (BitVec.ofNat 255 v) }) := by
  cases hs : Space.ofNumber? sp with
  | none => exact .inl (by simp only [State.hostWrite, hs])
  | some space =>
    have hn := Space.number_of_ofNumber? hs
    by_cases hi : i < space.words s.cfg
    · have e : s.hostWrite sp i v = s.writeWord space i v := by simp only [State.hostWrite, hs, if_pos hi]
      rw [e]
      cases space with
      | reg =>
        by_cases h2 : i = 2
        · subst h2; exact .inr (.inl ⟨hn, rfl, rfl⟩)
        by_cases h3 : i = 3
        · subst h3; exact .inr (.inr (.inl ⟨hn, rfl, rfl⟩))
        by_cases h4 : i = 4
        · subst h4; exact .inr (.inr (.inr (.inl ⟨hn, rfl, rfl⟩)))
        refine .inl ?_
        show s.writeReg i v = s
        unfold State.writeReg
        split <;> first | rfl | contradiction
      | ibuf => exact .inr (.inr (.inr (.inr (.inl ⟨hn, hi, rfl⟩))))
      | clen => exact .inr (.inr (.inr (.inr (.inr (.inl ⟨hn, hi, rfl⟩)))))
      | cbits => exact .inr (.inr (.inr (.inr (.inr (.inr ⟨hn, hi, rfl⟩)))))
      | obuf => exact .inl rfl
      | freq => exact .inl rfl
      | ord => exact .inl rfl
      | node => exact .inl rfl
      | heap => exact .inl rfl
    · exact .inl (by simp only [State.hostWrite, hs, if_neg hi])

end Sys2Proof.Machine
end

