-- ==== Sys2Proof/Laws/Text.lean ====
section
/-! SUPPORT. The recursion of `dec` (30_encoding.md R102). -/

namespace Sys2Proof.Machine

/-- More digits than the number has make no difference. -/
theorem decUpTo_eq (digits1 digits2 n : Nat) (h1 : n ≤ digits1) (h2 : n ≤ digits2) :
    decUpTo digits1 n = decUpTo digits2 n := by
  induction digits1 generalizing digits2 n with
  | zero =>
    obtain rfl : n = 0 := by omega
    cases digits2 <;> simp [decUpTo]
  | succ k ih =>
    cases digits2 with
    | zero =>
      obtain rfl : n = 0 := by omega
      simp [decUpTo]
    | succ j =>
      simp only [decUpTo]
      split
      · rfl
      · rw [ih j (n / 10) (by omega) (by omega)]

/-- The recursion of 30_encoding.md R102. -/
theorem dec_eq (n : Nat) : dec n = if n < 10 then [asciiDigit n] else dec (n / 10) ++ [asciiDigit (n % 10)] := by
  cases n with
  | zero => simp [dec, decUpTo]
  | succ k =>
    simp only [dec, decUpTo]
    split
    · rfl
    · rw [decUpTo_eq k ((k + 1) / 10) ((k + 1) / 10) (by omega) le_rfl]

theorem dec_of_lt {n : Nat} (h : n < 10) : dec n = [asciiDigit n] := by rw [dec_eq, if_pos h]

theorem dec_ne_nil (n : Nat) : dec n ≠ [] := by
  rw [dec_eq]
  split <;> simp

end Sys2Proof.Machine
end

