-- ==== Sys2Proof/Tests/Slice0.lean ====
section
/-! SUPPORT. The model's own tests. Expected values come from 95_test_vectors.md (the vector is named at each test) or
from a rule; each test is about one step on a small state. The witnesses show that the hypotheses of the statements can
be met together. -/

open Sys2Proof Sys2Proof.Machine

-- One theorem at a time: many kernel evaluations at once reserve more memory than the checker allows.
set_option Elab.async false

namespace Sys2Proof.Tests

/-- The outcome is a next state with this property. -/
def nextHas (o : Host.Outcome State Fault Refusal) (p : State → Bool) : Bool :=
  match o with
  | .next t => p t
  | _ => false

/-! ## Well-formedness: a term each check refuses -/

theorem test_wf_zero_field_refused : FormatC.zeroOk ⟨0x1, 0x1⟩ = false := by decide

theorem test_wf_operation_refused : FormatC.opOk ⟨0x9, 0x0⟩ = false := by decide

theorem test_wf_word_refused : FormatC.wf ⟨0x0, 0x8⟩ = false ∧ FormatC.wf ⟨0x8, 0x0⟩ = true := by decide

theorem test_wf_no_counter_refused : Config.cntOk ⟨0, 1, 6⟩ = false := by decide

theorem test_wf_no_input_buffer_refused : Config.ibufNonempty ⟨8, 0, 6⟩ = false := by decide

theorem test_wf_input_buffer_too_long_refused : Config.ibufFits ⟨8, 256, 6⟩ = false := by decide

theorem test_wf_small_output_buffer_refused : Config.obufOk ⟨8, 255, 5⟩ = false := by decide

theorem test_wf_default_parameters : Config.default.wf = true := by decide

/-- OUT_W = 18 for the default OBUF_CAP (00_scope.md R8). -/
theorem test_out_width : Config.default.outW = 18 := by decide

/-! ## Decoding: the words of 30_encoding.md R94, bit by bit (zero 7:4, op 3:0) -/

theorem test_decode_nop : decode 0b00000000#8 = .ok .nop := by decide

theorem test_decode_compress : decode 0b00000001#8 = .ok .compress := by decide

theorem test_decode_freq_count : decode 0b00000010#8 = .ok .freqCount := by decide

theorem test_decode_tree_build : decode 0b00000011#8 = .ok .treeBuild := by decide

theorem test_decode_code_assign : decode 0b00000100#8 = .ok .codeAssign := by decide

theorem test_decode_pack : decode 0b00000101#8 = .ok .pack := by decide

theorem test_decode_pq_clear : decode 0b00000110#8 = .ok .pqClear := by decide

theorem test_decode_pq_insert : decode 0b00000111#8 = .ok .pqInsert := by decide

theorem test_decode_pq_extract_min : decode 0b00001000#8 = .ok .pqExtractMin := by decide

/-- E1: 0x09, 0x10, 0x11, 0x7F and 0xFF are reserved. -/
theorem test_decode_reserved :
    decode 0x09#8 = .error .operationReserved ∧ decode 0x10#8 = .error .upperFieldNotZero ∧
      decode 0x11#8 = .error .upperFieldNotZero ∧ decode 0x7F#8 = .error .upperFieldNotZero ∧
      decode 0xFF#8 = .error .upperFieldNotZero := by decide

/-- E2: of 0x101 the low 8 bits are taken. -/
theorem test_command_word_low_bits : decode? (commandWord 0x101) = some .compress := by decide

/-- The placed word of each row runs: NOP from reset gives STATUS = 0x0002 (Z1). -/
theorem test_placed_nop :
    nextHas (step (State.reset.withFetchWord 8 0x00)) (fun t => t.status.word == 0x0002#16) = true := by decide

/-! ## Small states -/

/-- IBUF and LEN hold `"aaabbc"`. -/
def loadedAaabbc : State :=
  { State.reset with
    len := 6
    ibuf := [(0, 0x61#8), (1, 0x61#8), (2, 0x61#8), (3, 0x62#8), (4, 0x62#8), (5, 0x63#8)] }

/-- The FrequencyTable of `"aaabbc"` (F1). -/
def countedAaabbc : State :=
  { loadedAaabbc with
    freq := [(97, 3), (98, 2), (99, 1)], ord := [(0, 0x61#8), (1, 0x62#8), (2, 0x63#8)], k := 3 }

/-- The tree of `"aaabbc"` (T1). -/
def builtAaabbc : State :=
  { countedAaabbc with
    node := [(0, .leaf 97 3), (1, .leaf 98 2), (2, .leaf 99 1), (3, .internal 3 2 1), (4, .internal 6 0 3)]
    nn := 5, root := 4, status := { State.reset.status with treeValid := true } }

/-- IBUF and LEN hold one byte 65, FREQ and ORD its table. -/
def countedOne : State :=
  { State.reset with len := 1, ibuf := [(0, 65#8)], freq := [(65, 1)], ord := [(0, 65#8)], k := 1 }

/-- A host-written table A = `0`, B = `10`, C = `11` and the input `"ABCA"` (P3). -/
def tableAbc : State :=
  { State.reset with
    len := 4
    ibuf := [(0, 0x41#8), (1, 0x42#8), (2, 0x43#8), (3, 0x41#8)]
    clen := [(65, 1#8), (66, 2#8), (67, 2#8)]
    cbits := [(65, 0), (66, 1), (67, 3)] }

/-- The same without C (P2). -/
def tableAb : State :=
  { tableAbc with clen := [(65, 1#8), (66, 2#8)], cbits := [(65, 0), (66, 1)] }

/-- A queue with these entries. -/
def queueOf (es : List HeapEntry) : State :=
  { State.reset with heap := es.zipIdx.map fun p => (p.2, p.1), hsize := BitVec.ofNat 9 es.length }

/-- A queue of 256 equal entries (Q6). -/
def fullQueue : State := queueOf (List.replicate 256 ⟨1, 0⟩)

/-! ## NOP, the queue -/

/-- E3: NOP clears the error report. -/
theorem test_nop_clears_report :
    nextHas (exec .nop { State.reset with status := { State.reset.status with err := .missingCode }, errSym := 67 })
      (fun t => t.status.word == 0x0002#16 && t.errSym == 0) = true := by decide +kernel

theorem test_pq_clear : nextHas (exec .pqClear (queueOf [⟨1, 9⟩, ⟨2, 8⟩])) (fun t => t.hsize == 0) = true := by decide +kernel

/-- Q2, fourth insert: (3,13) passes (5,10) and stops under (3,11). -/
theorem test_pq_insert_sifts_up_strictly :
    nextHas (exec .pqInsert { queueOf [⟨3, 11⟩, ⟨5, 10⟩, ⟨8, 12⟩] with argFreq := 3, argNode := 13 })
      (fun t => t.queueList == [⟨3, 11⟩, ⟨3, 13⟩, ⟨8, 12⟩, ⟨5, 10⟩]) = true := by decide +kernel

/-- Q6: the 257th insert gives STATUS = 0x0042. -/
theorem test_pq_insert_full : nextHas (exec .pqInsert fullQueue) (fun t => t.status.word == 0x0042#16) = true := by
  decide +kernel

/-- Q1, first extraction: equal children, the left one goes up. -/
theorem test_pq_extract_left_of_equal_children :
    nextHas (exec .pqExtractMin (queueOf [⟨1, 0⟩, ⟨2, 1⟩, ⟨2, 2⟩, ⟨9, 3⟩]))
      (fun t => t.queueList == [⟨2, 1⟩, ⟨9, 3⟩, ⟨2, 2⟩] && t.resFreq == 1 && t.resNode == 0) = true := by decide +kernel

/-- Z1: extraction from the empty queue gives STATUS = 0x000A. -/
theorem test_pq_extract_empty :
    nextHas (exec .pqExtractMin State.reset) (fun t => t.status.word == 0x000A#16 && t.resFreq == 0) = true := by decide +kernel

/-! ## The pipeline, phase by phase -/

/-- F1. -/
theorem test_freq_count :
    nextHas (exec .freqCount loadedAaabbc)
      (fun t => t.freq == [(97, 3), (98, 2), (99, 1)] && t.ord == [(0, 0x61#8), (1, 0x62#8), (2, 0x63#8)] && t.k == 3) =
        true := by decide +kernel

/-- F4: LEN = 65537 gives STATUS = 0x0062. -/
theorem test_freq_count_len_range :
    nextHas (exec .freqCount { State.reset with len := 65537 }) (fun t => t.status.word == 0x0062#16) = true := by decide +kernel

/-- T1. -/
theorem test_tree_build :
    nextHas (exec .treeBuild countedAaabbc)
      (fun t => t.node == builtAaabbc.node && t.nn == 5 && t.root == 4 && t.resFreq == 6 && t.status.word == 0x0006#16) =
        true := by decide +kernel

/-- T5: from reset, STATUS = 0x0012. -/
theorem test_tree_build_empty :
    nextHas (exec .treeBuild State.reset) (fun t => t.status.word == 0x0012#16) = true := by decide +kernel

/-- A1. -/
theorem test_code_assign :
    nextHas (exec .codeAssign builtAaabbc)
      (fun t => t.clen == [(97, 1#8), (98, 2#8), (99, 2#8)] && t.cbitsAt 97 == 0 && t.cbitsAt 98 == 3 && t.cbitsAt 99 == 1) =
        true := by decide +kernel

/-- A5: from reset, STATUS = 0x0052. -/
theorem test_code_assign_no_tree :
    nextHas (exec .codeAssign State.reset) (fun t => t.status.word == 0x0052#16) = true := by decide +kernel

/-- P3: `16;65:0,66:10,67:11` then 0x58. -/
theorem test_pack :
    nextHas (exec .pack tableAbc)
      (fun t => t.outLen == 20 && t.padBits == 2 &&
        t.output == [0x31#8, 0x36#8, 0x3B#8, 0x36#8, 0x35#8, 0x3A#8, 0x30#8, 0x2C#8, 0x36#8, 0x36#8, 0x3A#8, 0x31#8,
          0x30#8, 0x2C#8, 0x36#8, 0x37#8, 0x3A#8, 0x31#8, 0x31#8, 0x58#8]) = true := by decide +kernel

/-- P2: C has no code. -/
theorem test_pack_missing_code :
    nextHas (exec .pack tableAb)
      (fun t => t.status.word == 0x0022#16 && t.errSym == 67 && t.errIdx == 2 && t.obuf == []) = true := by decide +kernel

/-- V1: `16;97:0,98:11,99:10` then 0x1F 0x00. -/
theorem test_compress :
    nextHas (exec .compress loadedAaabbc)
      (fun t => t.status.word == 0x0006#16 && t.padBits == 7 &&
        t.output == [0x31#8, 0x36#8, 0x3B#8, 0x39#8, 0x37#8, 0x3A#8, 0x30#8, 0x2C#8, 0x39#8, 0x38#8, 0x3A#8, 0x31#8,
          0x31#8, 0x2C#8, 0x39#8, 0x39#8, 0x3A#8, 0x31#8, 0x30#8, 0x1F#8, 0x00#8]) = true := by decide +kernel

/-- V10: the empty input. -/
theorem test_compress_empty :
    nextHas (exec .compress State.reset) (fun t => t.status.word == 0x0012#16 && t.outLen == 0) = true := by decide +kernel

/-! ## The host's side -/

/-- E1: a reserved word gives STATUS = 0x0032. -/
theorem test_reserved_word :
    nextHas (step (State.reset.withCommand 0x2A)) (fun t => t.status.word == 0x0032#16) = true := by decide +kernel

/-- 20_memory.md R61: the worked words of NODE and HEAP. -/
theorem test_word_layouts :
    HuffNode.word Config.default (.leaf 0x61 3) = 0x584000000000003 ∧
      HuffNode.word Config.default (.internal 6 0 3) = 0x300000006 ∧
      HeapEntry.word Config.default ⟨1, 2⟩ = 0x200000001 := by decide +kernel

/-- T1: the host's view of NODE[3]. -/
theorem test_host_reads_node : builtAaabbc.hostRead 5 3 = 0x40100000003 := by decide +kernel

/-- E5: out of range reads 0, read-only writes are ignored, LEN keeps its low 32 bits. -/
theorem test_host_access_edges :
    State.reset.hostRead 0 17 = 0 ∧ State.reset.hostRead 3 256 = 0 ∧ (countedAaabbc.hostWrite 3 97 5).freqAt 97 = 3 ∧
      (countedAaabbc.hostWrite 0 9 7).k = 3 ∧ (State.reset.hostWrite 0 2 0x100000005).len = 5 := by decide +kernel

/-- E4. -/
theorem test_dec :
    dec 0 = [0x30#8] ∧ dec 10 = [0x31#8, 0x30#8] ∧ dec 255 = [0x32#8, 0x35#8, 0x35#8] ∧
      dec 3217 = [0x33#8, 0x32#8, 0x31#8, 0x37#8] := by decide +kernel

/-- S3: the pad formula for every residue. -/
theorem test_pad : (List.range 8).map padCount = [0, 7, 6, 5, 4, 3, 2, 1] := by decide +kernel

/-- A reset block is idle and no event changes nothing. -/
theorem test_idle_step : nextHas (step State.reset) (fun t => t.status.word == 0x0000#16) = true := by decide +kernel

/-! ## Witnesses: states and operands that meet the hypotheses of each statement -/

/-- The state a command leaves (or the state it began in, where it gives none). -/
def after (i : Instr) (s : State) : State :=
  match exec i s with
  | .next t => t
  | _ => s

/-- Every command completes in the state named `after`. -/
theorem exec_after (i : Instr) (s : State) : exec i s = .next (after i s) := by cases i <;> rfl

/-- A host about to do this, with the block idle. -/
def about (e : HostEvent) (s : State) : State := s.withPending [e]

/-- Parameters whose OBUF is as long as 00_scope.md R9 asks. -/
def roomy : Config := { cntW := 4, ibufCap := 15, obufCap := 66934 }

/-- Parameters whose OBUF holds the smallest container only. -/
def tight : Config := { cntW := 4, ibufCap := 15, obufCap := 6 }

/-- A table of this many symbols 0, 1, …, each counted once. -/
def tableOf (k : Nat) : State :=
  { State.reset with
    freq := (List.range k).map fun j => (j, 1)
    ord := (List.range k).map fun j => (j, BitVec.ofNat 8 j)
    k := BitVec.ofNat 9 k }

/-- The tree of one leaf (T2). -/
def builtOne : State :=
  { countedOne with
    node := [(0, .leaf 65 1)], nn := 1, root := 0, status := { State.reset.status with treeValid := true } }

/-- A block in the middle of PACK, which no step reaches. -/
def packing : State := { State.reset with status := { State.reset.status with busy := true, phase := .pack } }

theorem witness_StepRunsTheWrittenCommand :
    (about (.write 0 0 0x101) State.reset).status.busy = false ∧
      (about (.write 0 0 0x101) State.reset).host.pending = .write 0 0 0x101 :: [] ∧
      decode? (commandWord 0x101) = some .compress := by decide +kernel

theorem witness_WordSelectsExactlyItsCommand :
    (FormatC.ofWord 0x10#8).zero ≠ 0 ∧ (FormatC.ofWord 0xFF#8).zero ≠ 0 := by decide

theorem witness_PlacedWordRunsNext : decodeTableWord 8 0x08 = some .pqExtractMin ∧ decodeTableWord 8 0 = some .nop := by
  decide +kernel

theorem witness_ReservedWordFailsWithIllegalCmd :
    (about (.write 0 0 9) State.reset).status.busy = false ∧
      (about (.write 0 0 9) State.reset).host.pending = .write 0 0 9 :: [] ∧ 9 ≤ 9 % 256 ∧ 9 ≤ 255 % 256 := by decide +kernel

theorem witness_IdleBlockStaysPut : State.reset.status.busy = false ∧ State.reset.host.pending = [] := by decide +kernel

/-- The two clauses: PACK without and with a missing code. -/
theorem witness_ErrorReportNamesTheOffendingByte :
    tableAbc.cfg.wf = true ∧ tableAb.cfg.wf = true ∧ exec .pack tableAbc = .next (after .pack tableAbc) ∧
      exec .pack tableAb = .next (after .pack tableAb) ∧ (after .pack tableAbc).status.err ≠ .missingCode ∧
      (after .pack tableAb).status.err = .missingCode := by
  refine ⟨?_, ?_, exec_after _ _, exec_after _ _, ?_⟩ <;> decide +kernel

theorem witness_ErrorsEachCommandCanReport : ∀ i : Instr, exec i State.reset = .next (after i State.reset) :=
  fun i => exec_after i _

theorem witness_NoCommandWritesTheHostsInputs : ∀ i : Instr, exec i loadedAaabbc = .next (after i loadedAaabbc) :=
  fun i => exec_after i _

/-- NOP meets the guard of each clause; its next state exists. -/
theorem witness_OnlyTheirCommandsWriteThem :
    exec .nop builtAaabbc = .next (after .nop builtAaabbc) ∧ Instr.nop ∉ [Instr.freqCount, .compress] ∧
      Instr.nop ∉ [Instr.treeBuild, .compress] ∧ Instr.nop ∉ [Instr.codeAssign, .compress] ∧
      Instr.nop ∉ [Instr.pack, .compress] ∧
      Instr.nop ∉ [Instr.pqClear, .pqInsert, .pqExtractMin, .treeBuild, .compress] ∧
      Instr.nop ∉ [Instr.pqExtractMin, .treeBuild, .compress] := ⟨rfl, by decide +kernel⟩

/-- The input of one byte where OBUF holds six bytes only. -/
def oneInTight : State := { State.reset with cfg := tight, len := 1, ibuf := [(0, 65#8)] }

/-- The input of six bytes where OBUF holds six bytes only. -/
def loadedInTight : State := { loadedAaabbc with cfg := tight }

/-- One state for each clause: the command ends with the error. -/
theorem witness_StateLeftByAnError :
    State.reset.cfg.wf = true ∧ tight.wf = true ∧
      (illegalCommand State.reset = .next ((State.reset.accept .idle).raise .illegalCmd 0 0) ∧
        ((State.reset.accept .idle).raise .illegalCmd 0 0).status.err ≠ .noError) ∧
      (after .pqInsert fullQueue).status.err ≠ .noError ∧ (after .codeAssign State.reset).status.err ≠ .noError ∧
      (after .freqCount { State.reset with len := 65537 }).status.err ≠ .noError ∧
      (after .treeBuild State.reset).status.err ≠ .noError ∧ (after .pack State.reset).status.err ≠ .noError ∧
      (after .compress { State.reset with len := 65537 }).status.err = .lenRange ∧
      (after .compress State.reset).status.err = .emptyInput ∧
      (after .compress loadedInTight).status.err = .outOverflow := by
  refine ⟨by decide +kernel, by decide +kernel, ⟨rfl, by decide +kernel⟩, ?_⟩
  decide +kernel

/-- The smallest legal parameters. -/
theorem witness_ResetMeetsTheInvariants : Config.wf ⟨1, 1, 6⟩ = true ∧ tight.wf = true ∧ roomy.wf = true := by decide +kernel

/-- For StepKeepsWellFormed, StepKeepsHeapOrder, StepKeepsTheFrequencyTable and StepKeepsTheTree: a state that meets every
invariant and takes a step that runs a command. -/
theorem witness_StepKeepsTheInvariants :
    let s := about (.write 0 0 4) builtAaabbc
    s.inv = true ∧ s.wf = true ∧ s.heapOrdered = true ∧ s.cfg.wf = true ∧ s.tableOk = true ∧ s.status.treeValid = true ∧
      step s = .next (after .codeAssign (s.withPending [])) := by
  refine ⟨?_, ?_, ?_, ?_, ?_, ?_, rfl⟩ <;> decide +kernel

/-- From the empty queue up to its last free place. -/
theorem witness_PqInsertAddsItsEntry :
    State.reset.hsize.toNat < 256 ∧ (queueOf (List.replicate 255 ⟨1, 0⟩)).hsize.toNat = 255 := by decide +kernel

/-- Both sides of the disjunction, the second with equal frequencies. -/
theorem witness_PqInsertStaysUnderAnEqualParent :
    State.reset.hsize.toNat = 0 ∧
      let s : State := { queueOf [⟨3, 11⟩] with argFreq := 3 }
      s.hsize.toNat < 256 ∧ s.hsize.toNat ≠ 0 ∧ (s.heapAt ((s.hsize.toNat - 1) / 2)).freq ≤ s.argFreq := by decide +kernel

theorem witness_PqInsertIntoAFullQueueFails :
    fullQueue.hsize.toNat = 256 ∧ Instr.treeBuild ≠ .pqInsert ∧
      exec .treeBuild fullQueue = .next (after .treeBuild fullQueue) := ⟨by decide +kernel, by decide, exec_after _ _⟩

/-- Q1's first extraction, and the queue of one entry. -/
theorem witness_PqExtractMinRemovesAMinimum :
    (queueOf [⟨1, 0⟩, ⟨2, 1⟩, ⟨2, 2⟩, ⟨9, 3⟩]).hsize ≠ 0 ∧
      (queueOf [⟨1, 0⟩, ⟨2, 1⟩, ⟨2, 2⟩, ⟨9, 3⟩]).heapOrdered = true ∧ (queueOf [⟨5, 1⟩]).hsize ≠ 0 ∧
      (queueOf [⟨5, 1⟩]).heapOrdered = true := by decide +kernel

theorem witness_PqExtractMinFromAnEmptyQueue : State.reset.hsize = 0 := by decide +kernel

/-- The clauses about the sift one by one, at the root and below it; then the clause about the command. -/
theorem witness_ExtractPromotesTheLeftOfEqualChildren :
    let q (f : List Nat) : Queue := (queueOf (f.map fun n => ⟨n, 0⟩)).queue
    let f (q : Queue) (i : Nat) : Nat := (q.at (fun _ => ⟨0, 0⟩) i).freq
    let equal := q [1, 9, 2, 5, 5]
    let right := q [9, 5, 4]
    let stays := q [5, 5, 5]
    (2 * 1 + 2 < equal.hsize.toNat ∧ f equal 3 ≤ f equal 4 ∧ f equal 3 = f equal 4 ∧ f equal 3 < f equal 1) ∧
    (2 * 0 + 2 < right.hsize.toNat ∧ f right 2 < f right 1 ∧ f right 2 < f right 0) ∧
    (2 * 0 + 2 < stays.hsize.toNat ∧ f stays 0 ≤ f stays 1 ∧ f stays 0 ≤ f stays 2) ∧
    let s := queueOf [⟨1, 0⟩, ⟨2, 1⟩, ⟨2, 2⟩, ⟨9, 3⟩]
    4 ≤ s.hsize.toNat ∧ (s.heapAt 1).freq = (s.heapAt 2).freq ∧
      (s.heapAt 1).freq < (s.heapAt (s.hsize.toNat - 1)).freq := by decide +kernel

/-- The empty input, a short one and the longest. -/
theorem witness_FreqCountCountsTheInput :
    Config.default.wf = true ∧ State.reset.len ≤ State.reset.cfg.ibufCap ∧
      loadedAaabbc.len ≤ loadedAaabbc.cfg.ibufCap ∧ { State.reset with len := 65536 }.len ≤ 65536 := by decide +kernel

theorem witness_FreqCountRejectsALongInput :
    { State.reset with len := 65537 }.cfg.ibufCap < { State.reset with len := 65537 }.len := by decide +kernel

/-- Two orders of the same three bytes. -/
theorem witness_CountsIgnoreTheOrderOfTheInput :
    let s1 : State := { State.reset with len := 3, ibuf := [(0, 1#8), (1, 2#8), (2, 1#8)] }
    let s2 : State := { State.reset with len := 3, ibuf := [(0, 2#8), (1, 1#8), (2, 1#8)] }
    s1.cfg.wf = true ∧ s1.cfg = s2.cfg ∧ s1.len ≤ s1.cfg.ibufCap ∧ s1.input.Perm s2.input ∧
      exec .freqCount s1 = .next (after .freqCount s1) ∧ exec .freqCount s2 = .next (after .freqCount s2) :=
  ⟨by decide +kernel, rfl, by decide +kernel, .swap _ _ _, rfl, rfl⟩

theorem witness_TreeBuildOfAnEmptyTableFails : State.reset.k = 0 := by decide +kernel

/-- One symbol and all 256. -/
theorem witness_TreeBuildCompletes :
    countedOne.k ≠ 0 ∧ countedOne.k.toNat ≤ 256 ∧ (tableOf 256).k ≠ 0 ∧ (tableOf 256).k.toNat = 256 := by decide +kernel

/-- One symbol, and three. -/
theorem witness_TreeBuildBuildsAHuffmanTree :
    countedOne.tableOk = true ∧ countedOne.k ≠ 0 ∧ countedAaabbc.tableOk = true ∧ countedAaabbc.k ≠ 0 := by
  decide +kernel

theorem witness_TreeBuildOfOneSymbol : countedOne.k = 1 := by decide +kernel

theorem witness_CodeAssignWithoutATreeFails :
    State.reset.status.treeValid = false ∧ Instr.compress ≠ .codeAssign ∧
      exec .compress State.reset = .next (after .compress State.reset) := ⟨rfl, by decide, exec_after _ _⟩

/-- The trees of V1 and T2. -/
theorem witness_CodeAssignGivesRootToLeafPaths :
    (builtAaabbc.status.treeValid = true ∧
      builtAaabbc.tree? = some (.node 4 6 (.leaf 0 97 3) (.node 3 3 (.leaf 2 99 1) (.leaf 1 98 2))) ∧
      (HTree.node 4 6 (.leaf 0 97 3) (.node 3 3 (.leaf 2 99 1) (.leaf 1 98 2))).spans builtAaabbc.nn.toNat = true) ∧
      builtOne.status.treeValid = true ∧ builtOne.tree? = some (.leaf 0 65 1) ∧
      (HTree.leaf 0 65 1).spans builtOne.nn.toNat = true := by decide +kernel

theorem witness_CodeAssignOfOneLeaf :
    builtOne.status.treeValid = true ∧ builtOne.nodeAt builtOne.root.toNat = .leaf 65 1 := by decide +kernel

theorem witness_AssignedCodesArePrefixFree :
    builtAaabbc.treeOk = true ∧ exec .codeAssign builtAaabbc = .next (after .codeAssign builtAaabbc) ∧
      (after .codeAssign builtAaabbc).status.err = .noError := by
  refine ⟨?_, exec_after _ _, ?_⟩ <;> decide +kernel

/-- P3. -/
theorem witness_PackWritesTheContainer :
    1 ≤ tableAbc.len ∧ tableAbc.len ≤ tableAbc.cfg.ibufCap ∧ (∀ b ∈ tableAbc.input, tableAbc.codeLen b ≠ 0) ∧
      (container tableAbc.code tableAbc.input).length ≤ tableAbc.cfg.obufCap := by decide +kernel

theorem witness_PaddingCompletesTheLastByte :
    exec .pack tableAbc = .next (after .pack tableAbc) ∧ (after .pack tableAbc).status.err = .noError :=
  ⟨exec_after _ _, by decide +kernel⟩

theorem witness_LargeOutputBufferNeverOverflows :
    66455 + (255 * roomy.ibufCap + 7) / 8 ≤ roomy.obufCap ∧
      exec .compress { loadedAaabbc with cfg := roomy } = .next (after .compress { loadedAaabbc with cfg := roomy }) :=
  ⟨by decide +kernel, exec_after _ _⟩

/-- The smallest container, six bytes: symbol 7 with the code `0`, an input of one byte. -/
theorem witness_SmallestContainerHasSixBytes :
    let s : State :=
      { State.reset with cfg := tight, len := 1, ibuf := [(0, 7#8)], clen := [(7, 1#8)], cbits := [(7, 0)] }
    exec .pack s = .next (after .pack s) ∧ (after .pack s).status.err = .noError ∧ (after .pack s).outLen = 6 := by
  refine ⟨exec_after _ _, ?_⟩
  decide +kernel

/-- Every phase succeeds; the first fails; the second fails. CODE_ASSIGN after TREE_BUILD has no witness of failure:
TREE_VALID is then 1 (45_compress.md R204). -/
theorem witness_CompressEqualsItsPhases :
    (exec .compress loadedAaabbc = .next (after .compress loadedAaabbc) ∧
      (after .freqCount loadedAaabbc).status.err = .noError ∧
      (after .treeBuild (after .freqCount loadedAaabbc)).status.err = .noError ∧
      (after .codeAssign (after .treeBuild (after .freqCount loadedAaabbc))).status.err = .noError) ∧
      (after .freqCount { State.reset with len := 65537 }).status.err ≠ .noError ∧
      (after .freqCount State.reset).status.err = .noError ∧
      (after .treeBuild (after .freqCount State.reset)).status.err ≠ .noError := by
  refine ⟨⟨exec_after _ _, ?_, ?_, ?_⟩, ?_⟩ <;> decide +kernel

theorem witness_CompressRejectsTheEmptyInput : State.reset.len = 0 := by decide +kernel

theorem witness_CompressRejectsALongInput :
    { State.reset with len := 65537 }.cfg.ibufCap < { State.reset with len := 65537 }.len := by decide +kernel

/-- An input whose container fits OBUF and one whose container does not. -/
theorem witness_CompressWritesTheContainerOfItsInput :
    (loadedAaabbc.cfg.wf = true ∧ 1 ≤ loadedAaabbc.len ∧ loadedAaabbc.len ≤ loadedAaabbc.cfg.ibufCap ∧
      (container (after .compress loadedAaabbc).code loadedAaabbc.input).length ≤ loadedAaabbc.cfg.obufCap) ∧
      loadedInTight.cfg.wf = true ∧ 1 ≤ loadedInTight.len ∧ loadedInTight.len ≤ loadedInTight.cfg.ibufCap ∧
      loadedInTight.cfg.obufCap < (container (after .compress loadedInTight).code loadedInTight.input).length := by
  decide +kernel

theorem witness_CompressSucceedsWithALargeOutputBuffer :
    roomy.wf = true ∧ 1 ≤ loadedAaabbc.len ∧ loadedAaabbc.len ≤ roomy.ibufCap ∧
      66455 + (255 * roomy.ibufCap + 7) / 8 ≤ roomy.obufCap := by decide +kernel

/-- The same input in two states that differ elsewhere. -/
theorem witness_CompressDependsOnItsInputAlone :
    loadedAaabbc.cfg.wf = true ∧ loadedAaabbc.sameInput { builtAaabbc with clen := [(1, 1#8)] } ∧
      exec .compress loadedAaabbc = .next (after .compress loadedAaabbc) ∧
      exec .compress { builtAaabbc with clen := [(1, 1#8)] } =
        .next (after .compress { builtAaabbc with clen := [(1, 1#8)] }) :=
  ⟨by decide +kernel, ⟨rfl, rfl, rfl⟩, exec_after _ _, exec_after _ _⟩

/-- Two states with the same input, whose containers and PAD_BITS are equal. -/
theorem witness_ContainerAndPadBitsDetermineTheInput :
    let s1 := loadedAaabbc
    let s2 : State := { builtAaabbc with clen := [(1, 1#8)] }
    s1.cfg.wf = true ∧ s2.cfg.wf = true ∧ exec .compress s1 = .next (after .compress s1) ∧
      exec .compress s2 = .next (after .compress s2) ∧ (after .compress s1).status.err = .noError ∧
      (after .compress s2).status.err = .noError ∧ (after .compress s1).output = (after .compress s2).output ∧
      (after .compress s1).padBits = (after .compress s2).padBits := by
  refine ⟨by decide +kernel, by decide +kernel, exec_after _ _, exec_after _ _, ?_⟩
  decide +kernel

theorem witness_CompressReportsOnlyItsErrors :
    loadedInTight.cfg.wf = true ∧ exec .compress loadedInTight = .next (after .compress loadedInTight) :=
  ⟨by decide +kernel, exec_after _ _⟩

/-- Registers that ignore the write: STATUS, RES_FREQ, OUT_LEN, and the first number above the registers. -/
theorem witness_HostWritesOfRegisters :
    ∀ i ∈ [1, 5, 16, 17], i ≠ 0 ∧ i ≠ 2 ∧ i ≠ 3 ∧ i ≠ 4 := by decide

/-- A write that is no command, to a register and to a memory; the first and the last index of each space. -/
theorem witness_HostWritesOfMemoriesReadBack :
    ((about (.write 0 2 7) State.reset).status.busy = false ∧
      (about (.write 0 2 7) State.reset).host.pending = .write 0 2 7 :: [] ∧ ((0 : Nat), (2 : Nat)) ≠ (0, 0)) ∧
    ((about (.write 8 0 7) State.reset).status.busy = false ∧
      (about (.write 8 0 7) State.reset).host.pending = .write 8 0 7 :: [] ∧ ((8 : Nat), (0 : Nat)) ≠ (0, 0)) ∧
    0 < State.reset.cfg.ibufCap ∧ 65535 < State.reset.cfg.ibufCap ∧ 0 < 256 ∧ 255 < 256 := by decide +kernel

/-- The first number above the spaces; the first index above REG, IBUF and NODE. -/
theorem witness_AccessesOutsideTheSpacesDoNothing :
    9 ≤ 9 ∧ (Space.ofNumber? 0 = some .reg ∧ Space.words State.reset.cfg .reg ≤ 17) ∧
      (Space.ofNumber? 1 = some .ibuf ∧ Space.words State.reset.cfg .ibuf ≤ 65536) ∧
      (Space.ofNumber? 5 = some .node ∧ Space.words State.reset.cfg .node ≤ 511) := by decide +kernel

theorem witness_ReadOnlySpacesIgnoreHostWrites : 2 ∈ [2, 3, 4, 5, 6] ∧ 6 ∈ [2, 3, 4, 5, 6] := by decide +kernel

/-- A read about to be served; the last meaningful word of each space with a bound of its own. -/
theorem witness_HostReadHasNoSideEffect :
    ((about (.read 5 3) builtAaabbc).status.busy = false ∧
      (about (.read 5 3) builtAaabbc).host.pending = .read 5 3 :: []) ∧
    (65535 < builtAaabbc.cfg.ibufCap ∧ 255 < 256) ∧
    (20 < { builtAaabbc with outLen := 21 }.cfg.obufCap ∧ 20 < { builtAaabbc with outLen := 21 }.outLen) ∧
    (2 < 256 ∧ 2 < builtAaabbc.k.toNat) ∧ (4 < 511 ∧ 4 < builtAaabbc.nn.toNat) ∧
    (255 < 256 ∧ 255 < fullQueue.hsize.toNat) := by decide +kernel

/-- One state for each clause. -/
theorem witness_AccessDuringACommandIsRefused :
    ((about (.read 0 1) packing).status.busy = true ∧ (about (.read 0 1) packing).host.pending = .read 0 1 :: []) ∧
      ((about (.read 0 2) packing).status.busy = true ∧ ((0 : Nat), (2 : Nat)) ≠ (0, 1) ∧
        (about (.read 0 2) packing).host.pending = .read 0 2 :: []) ∧
      (about (.write 0 0 1) packing).status.busy = true ∧
      (about (.write 0 0 1) packing).host.pending = .write 0 0 1 :: [] := by decide +kernel

/-- Both events, the second in the middle of a command. -/
theorem witness_RstLeavesTheResetState :
    (about .rst packing).host.pending = .rst :: [] ∧
      (about (.commandCutByRst 1) loadedAaabbc).host.pending = .commandCutByRst 1 :: [] := by decide +kernel

theorem witness_HostWordsOfNodesAndEntries : 0 < 2 ^ Config.default.cntW ∧ 2 ^ 32 - 1 < 2 ^ Config.default.cntW := by
  decide +kernel

end Sys2Proof.Tests
end

section
/-! SUPPORT. Bounds on the lengths PACK computes (30_encoding.md R108, 44_bit_packer.md R187), which errors a command's
pseudocode can end with (45_compress.md R204), and from both 00_scope.md R9: a large output buffer never overflows. -/

namespace Sys2Proof.Machine

/-! ## How long the decimal digits, the header, the payload and the container can be -/

/-- A number below 10^(k+1) has at most k + 1 digits. -/
theorem dec_length_le (k n : Nat) (h : n < 10 ^ (k + 1)) : (dec n).length ≤ k + 1 := by
  induction k generalizing n with
  | zero => simp [dec_of_lt (n := n) (by simpa using h)]
  | succ k ih =>
    rw [dec_eq]
    split
    · simp
    · have hq : (dec (n / 10)).length ≤ k + 1 := ih _ (by rw [Nat.pow_succ] at h; omega)
      simpa using hq

/-- CLEN is eight bits wide, so no code is longer than CODE_MAX. -/
theorem State.codeLen_le (s : State) (b : Byte) : s.codeLen b ≤ 255 :=
  Nat.le_of_lt_succ (s.clenAt b.toNat).isLt

@[simp] theorem State.input_length (s : State) : s.input.length = s.len := by simp [State.input]

/-- The bytes one symbol adds to the header, a separating comma among them; 0 for a symbol without a code. -/
def pairSize (codeLen : Byte → Nat) (sym : Byte) : Nat :=
  if codeLen sym = 0 then 0 else (dec sym.toNat).length + codeLen sym + 2

/-- Behind the first pair, every further pair adds its size with the comma. -/
theorem foldl_sizePair_false (codeLen : Byte → Nat) (syms : List Byte) (n : Nat) :
    (syms.foldl (sizePair codeLen) (false, n)).2 = n + (syms.map (pairSize codeLen)).sum := by
  induction syms generalizing n with
  | nil => simp
  | cons sym syms ih =>
    by_cases h : codeLen sym = 0
    · simp [sizePair, pairSize, h, ih]
    · simp only [List.foldl_cons, List.map_cons, List.sum_cons, sizePair, pairSize, h, if_false, ih, Bool.false_eq_true]
      omega

/-- The first pair has no comma. -/
theorem foldl_sizePair_true (codeLen : Byte → Nat) (syms : List Byte) :
    (syms.foldl (sizePair codeLen) (true, 0)).2 = (syms.map (pairSize codeLen)).sum - 1 := by
  induction syms with
  | nil => rfl
  | cons sym syms ih =>
    by_cases h : codeLen sym = 0
    · simp [sizePair, pairSize, h, ih]
    · simp only [List.foldl_cons, List.map_cons, List.sum_cons, sizePair, pairSize, h, if_false, if_true,
        foldl_sizePair_false]
      omega

/-- H as a sum over the symbols (44_bit_packer.md R181). -/
theorem headerLength_eq (codeLen : Byte → Nat) :
    headerLength codeLen = (allSymbols.map (pairSize codeLen)).sum - 1 :=
  foldl_sizePair_true codeLen allSymbols

theorem pairSize_le {codeLen : Byte → Nat} (hc : ∀ b, codeLen b ≤ 255) (sym : Byte) :
    pairSize codeLen sym ≤ (dec sym.toNat).length + 257 := by
  have := hc sym
  unfold pairSize
  split <;> omega

/-- The 256 symbols have 658 digits altogether; each adds a colon, a comma and 255 code bits at most. -/
theorem sum_largestPairs : (allSymbols.map fun sym => (dec sym.toNat).length + 257).sum = 66450 := by
  decide +kernel

/-- 30_encoding.md R108 for the length PACK computes. -/
theorem headerLength_le {codeLen : Byte → Nat} (hc : ∀ b, codeLen b ≤ 255) : headerLength codeLen ≤ 66449 := by
  have hsum : (allSymbols.map (pairSize codeLen)).sum ≤ 66450 :=
    sum_largestPairs ▸ List.sum_le_sum fun sym _ => pairSize_le hc sym
  rw [headerLength_eq]
  omega

theorem totalBits_le {codeLen : Byte → Nat} (hc : ∀ b, codeLen b ≤ 255) (input : List Byte) :
    totalBits codeLen input ≤ 255 * input.length := by
  have h := List.sum_le_card_nsmul (input.map codeLen) 255 (by simpa using fun b _ => hc b)
  rw [totalBits_eq]
  simpa [Nat.mul_comm] using h

/-- The payload has ⌈T / 8⌉ bytes (30_encoding.md R100). -/
theorem payloadLength_eq (t : Nat) : payloadLength t = (t + 7) / 8 := by
  have := payloadLength_mul t
  have := padCount_le t
  omega

/-- The container is no longer than the output buffer of 00_scope.md R9. -/
theorem containerLength_le (s : State) :
    containerLength (headerLength s.codeLen) (totalBits s.codeLen s.input) ≤ 66455 + (255 * s.len + 7) / 8 := by
  have hh : headerLength s.codeLen ≤ 66449 := headerLength_le s.codeLen_le
  have hd : (dec (headerLength s.codeLen)).length ≤ 5 := dec_length_le 4 _ (by omega)
  have ht : totalBits s.codeLen s.input ≤ 255 * s.len := by simpa using totalBits_le s.codeLen_le s.input
  rw [containerLength, payloadLength_eq]
  omega

/-! ## Which errors a command can end with (45_compress.md R204) -/

/-- A run under the parameters `c` that finishes without an error and with the same parameters, or raises one of
`errs`. -/
def Ran.endsWithin (c : Config) (errs : List ErrCode) : Ran → Prop
  | .finished t => t.cfg = c ∧ t.status.err = .noError
  | .raised t => t.status.err ∈ errs

theorem Ran.endsWithin_raise (c : Config) {errs : List ErrCode} {e : ErrCode} (he : e ∈ errs) (sym : Byte) (idx : Nat)
    (s : State) : (Machine.raise e sym idx s).endsWithin c errs := he

/-- The next phase starts in a state without an error, so each phase adds only its own errors. -/
theorem Ran.endsWithin_andThen {c : Config} {errs : List ErrCode} {r : Ran} {f : State → Ran} (hr : r.endsWithin c errs)
    (hf : ∀ t, t.cfg = c → t.status.err = .noError → (f t).endsWithin c errs) : (r.andThen f).endsWithin c errs := by
  cases r with
  | finished t =>
    obtain ⟨hcfg, herr⟩ := hr
    exact hf t hcfg herr
  | raised t => exact hr

theorem Ran.err_complete {c : Config} {errs : List ErrCode} {r : Ran} (hr : r.endsWithin c errs) :
    r.complete.status.err = .noError ∨ r.complete.status.err ∈ errs := by
  cases r with
  | finished t =>
    obtain ⟨-, herr⟩ := hr
    exact .inl herr
  | raised t => exact .inr hr

section
variable {s : State} {errs : List ErrCode} (h : s.status.err = .noError)
include h

theorem freqCountBody_endsWithin (hl : .lenRange ∈ errs) : (freqCountBody s).endsWithin s.cfg errs := by
  rcases freqCountBody_cases s with ⟨_, e⟩ | ⟨_, _, _, e⟩ <;> rw [e]
  · exact Ran.endsWithin_raise _ hl ..
  · exact ⟨rfl, h⟩

theorem treeBuildBody_endsWithin (he : .emptyInput ∈ errs) : (treeBuildBody s).endsWithin s.cfg errs := by
  rcases treeBuildBody_cases s with ⟨_, e⟩ | ⟨_, _, _, _, _, e⟩ <;> rw [e]
  · exact Ran.endsWithin_raise _ he ..
  · exact ⟨rfl, h⟩

theorem codeAssignBody_endsWithin (hn : .noTree ∈ errs) : (codeAssignBody s).endsWithin s.cfg errs := by
  rcases codeAssignBody_cases s with ⟨_, e⟩ | ⟨_, e⟩ <;> rw [e]
  · exact Ran.endsWithin_raise _ hn ..
  · exact ⟨rfl, h⟩

theorem pqInsertBody_endsWithin (hf : .pqFull ∈ errs) : (pqInsertBody s).endsWithin s.cfg errs := by
  rcases pqInsertBody_cases s with ⟨_, e⟩ | ⟨_, _, _, e⟩ <;> rw [e]
  · exact Ran.endsWithin_raise _ hf ..
  · exact ⟨rfl, h⟩

/-- With the output buffer of 00_scope.md R9, PACK raises one of its other three errors or none: it rejects a LEN above
IBUF_CAP before it compares the container with OBUF_CAP. -/
theorem packBody_endsWithin_of_largeObuf (hbuf : 66455 + (255 * s.cfg.ibufCap + 7) / 8 ≤ s.cfg.obufCap)
    (hl : .lenRange ∈ errs) (he : .emptyInput ∈ errs) (hm : .missingCode ∈ errs) :
    (packBody s).endsWithin s.cfg errs := by
  rcases packBody_cases s with ⟨_, e⟩ | ⟨_, _, e⟩ | ⟨_, _, _, _, _, e⟩ | ⟨hlen, _, _, _, _, rfl, rfl, hsize⟩
  · exact e ▸ Ran.endsWithin_raise _ hl ..
  · exact e ▸ Ran.endsWithin_raise _ he ..
  · exact e ▸ Ran.endsWithin_raise _ hm ..
  · rcases hsize with ⟨hover, _⟩ | ⟨_, _, _, e⟩
    · have := containerLength_le s
      omega
    · exact e ▸ ⟨rfl, h⟩

/-- COMPRESS is its four phases in order. -/
theorem compressBody_endsWithin_of_largeObuf (hbuf : 66455 + (255 * s.cfg.ibufCap + 7) / 8 ≤ s.cfg.obufCap)
    (hl : .lenRange ∈ errs) (he : .emptyInput ∈ errs) (hn : .noTree ∈ errs) (hm : .missingCode ∈ errs) :
    (compressBody s).endsWithin s.cfg errs := by
  refine Ran.endsWithin_andThen (freqCountBody_endsWithin (s := s.clearResults.enterPhase .freq) h hl) fun s1 c1 h1 => ?_
  refine Ran.endsWithin_andThen (c1 ▸ treeBuildBody_endsWithin (s := s1.enterPhase .tree) h1 he) fun s2 c2 h2 => ?_
  refine Ran.endsWithin_andThen (c2 ▸ codeAssignBody_endsWithin (s := s2.enterPhase .code) h2 hn) fun s3 c3 h3 => ?_
  exact c3 ▸ packBody_endsWithin_of_largeObuf (s := s3.enterPhase .pack) h3 (by simpa [c3] using hbuf) hl he hm

end

/-- The errors of the table of 45_compress.md R204 but OUT_OVERFLOW. -/
def errorsButOverflow : List ErrCode := [.lenRange, .emptyInput, .missingCode, .noTree, .pqFull]

theorem bodyOf_endsWithin_of_largeObuf (i : Instr) {s : State} (h : s.status.err = .noError)
    (hbuf : 66455 + (255 * s.cfg.ibufCap + 7) / 8 ≤ s.cfg.obufCap) : (bodyOf i s).endsWithin s.cfg errorsButOverflow := by
  cases i with
  | nop | pqClear | pqExtractMin => exact ⟨rfl, h⟩
  | compress => exact compressBody_endsWithin_of_largeObuf h hbuf (by decide) (by decide) (by decide) (by decide)
  | freqCount => exact freqCountBody_endsWithin h (by decide)
  | treeBuild => exact treeBuildBody_endsWithin h (by decide)
  | codeAssign => exact codeAssignBody_endsWithin h (by decide)
  | pack => exact packBody_endsWithin_of_largeObuf h hbuf (by decide) (by decide) (by decide)
  | pqInsert => exact pqInsertBody_endsWithin h (by decide)

/-- Settles O42: the container PACK computes is never longer than such a buffer, and no other pseudocode raises
OUT_OVERFLOW. -/
theorem largeOutputBufferNeverOverflows : Obligations.LargeOutputBufferNeverOverflows := by
  intro i s t hbuf hexec hover
  obtain rfl := exec_next_iff.mp hexec
  rcases Ran.err_complete (bodyOf_endsWithin_of_largeObuf i (s := s.accept (phaseOf i)) rfl hbuf) with herr | herr
  · rw [hover] at herr
    cases herr
  · rw [hover] at herr
    exact absurd herr (by decide)

end Sys2Proof.Machine
end

section
/-! SUPPORT. How a run of a command's pseudocode ends, and what each command leaves unchanged (10_state.md R26 to R41,
70_reset_and_hazards.md R274), one view of the state for each group of registers and memories that are written
together. -/

namespace Sys2Proof.Machine

/-! ## The state a run ends in -/

/-- The state in which the pseudocode ended, before completion. -/
def Ran.state : Ran → State
  | .finished s => s
  | .raised s => s

@[simp] theorem Ran.state_finished (s : State) : (Ran.finished s).state = s := rfl

theorem Ran.complete_cases (r : Ran) : r.complete = r.state.finish ∨ r.complete = r.state := by
  cases r with
  | finished s => exact .inl rfl
  | raised s => exact .inr rfl

/-- What holds at the end of the first part and is kept by the second holds at the end of both. -/
theorem Ran.state_andThen {P : State → Prop} {r : Ran} {f : State → Ran} (hr : P r.state)
    (hf : ∀ t, P t → P (f t).state) : P (r.andThen f).state := by
  cases r with
  | finished t => exact hf t hr
  | raised t => exact hr

/-- A property of the states that finish and one of the states that raise. -/
def Ran.Ends (P Q : State → Prop) : Ran → Prop
  | .finished t => P t
  | .raised t => Q t

theorem Ran.ends_andThen {P Q : State → Prop} {r : Ran} {f : State → Ran} (hr : r.Ends P Q)
    (hf : ∀ t, P t → (f t).Ends P Q) : (r.andThen f).Ends P Q := by
  cases r with
  | finished t => exact hf t hr
  | raised t => exact hr

theorem Ran.ends_complete {P Q : State → Prop} {r : Ran} (hr : r.Ends P Q) (hf : ∀ t, P t → Q t.finish) :
    Q r.complete := by
  cases r with
  | finished t => exact hf t hr
  | raised t => exact hr

/-! ## The groups of registers and memories -/

/-- What no command writes (70_reset_and_hazards.md R274). -/
structure Inputs where
  cfg : Config
  resets : Nat
  len : Nat
  argFreq : Nat
  argNode : NodeNo
  ibuf : List Host.Cell
  host : HostPort

def State.inputs (s : State) : Inputs where
  cfg := s.cfg
  resets := s.free.resets
  len := s.len
  argFreq := s.argFreq
  argNode := s.argNode
  ibuf := s.ibuf
  host := s.host

/-- FREQ, ORD and K. -/
def State.table (s : State) : FreqTable := { freq := s.freq, ord := s.ord, k := s.k }

/-- NODE, NN, ROOT and TREE_VALID. -/
def State.treeRegs (s : State) : List (Nat × HuffNode) × BitVec 9 × NodeNo × Bool :=
  (s.node, s.nn, s.root, s.status.treeValid)

/-- CLEN and CBITS. -/
def State.codes (s : State) : List Host.Cell × List (Nat × Path) := (s.clen, s.cbits)

/-- OBUF, HDR_LEN, PAD_BITS, PAY_LEN and OUT_LEN. -/
def State.containerRegs (s : State) : List Host.Cell × BitVec 17 × BitVec 3 × Nat × Nat :=
  (s.obuf, s.hdrLen, s.padBits, s.payLen, s.outLen)

/-- RES_FREQ, RES_NODE and RES_EMPTY. -/
def State.resultRegs (s : State) : Nat × NodeNo × Bool := (s.resFreq, s.resNode, s.status.resEmpty)

/-! ## What each body leaves unchanged -/

theorem freqCountBody_frame (s : State) {t : State} (h : t = (freqCountBody s).state) :
    t.inputs = s.inputs ∧ t.treeRegs = s.treeRegs ∧ t.codes = s.codes ∧ t.containerRegs = s.containerRegs ∧
      t.queue = s.queue ∧ t.resultRegs = s.resultRegs := by
  rcases freqCountBody_cases s with ⟨_, e⟩ | ⟨_, _, _, e⟩ <;> rw [e] at h <;> subst h <;>
    exact ⟨rfl, rfl, rfl, rfl, rfl, rfl⟩

theorem treeBuildBody_frame (s : State) {t : State} (h : t = (treeBuildBody s).state) :
    t.inputs = s.inputs ∧ t.table = s.table ∧ t.codes = s.codes ∧ t.containerRegs = s.containerRegs := by
  rcases treeBuildBody_cases s with ⟨_, e⟩ | ⟨_, _, _, _, _, e⟩ <;> rw [e] at h <;> subst h <;>
    exact ⟨rfl, rfl, rfl, rfl⟩

theorem codeAssignBody_frame (s : State) {t : State} (h : t = (codeAssignBody s).state) :
    t.inputs = s.inputs ∧ t.table = s.table ∧ t.treeRegs = s.treeRegs ∧ t.containerRegs = s.containerRegs ∧
      t.queue = s.queue ∧ t.resultRegs = s.resultRegs := by
  rcases codeAssignBody_cases s with ⟨_, e⟩ | ⟨_, e⟩ <;> rw [e] at h <;> subst h <;>
    exact ⟨rfl, rfl, rfl, rfl, rfl, rfl⟩

theorem packBody_frame (s : State) {t : State} (h : t = (packBody s).state) :
    t.inputs = s.inputs ∧ t.table = s.table ∧ t.treeRegs = s.treeRegs ∧ t.codes = s.codes ∧ t.queue = s.queue ∧
      t.resultRegs = s.resultRegs := by
  rcases packBody_cases s with ⟨_, e⟩ | ⟨_, _, e⟩ | ⟨_, _, _, _, _, e⟩ |
    ⟨_, _, _, _, _, _, _, ⟨_, e⟩ | ⟨_, _, _, e⟩⟩ <;> rw [e] at h <;> subst h <;> exact ⟨rfl, rfl, rfl, rfl, rfl, rfl⟩

theorem pqInsertBody_frame (s : State) {t : State} (h : t = (pqInsertBody s).state) :
    t.inputs = s.inputs ∧ t.table = s.table ∧ t.treeRegs = s.treeRegs ∧ t.codes = s.codes ∧
      t.containerRegs = s.containerRegs ∧ t.resultRegs = s.resultRegs := by
  rcases pqInsertBody_cases s with ⟨_, e⟩ | ⟨_, _, _, e⟩ <;> rw [e] at h <;> subst h <;>
    exact ⟨rfl, rfl, rfl, rfl, rfl, rfl⟩

/-- What COMPRESS keeps, whichever phase it ends in: what its first three phases and PACK each keep. -/
theorem compressBody_state {P : State → Prop} (s : State) (h0 : P (s.clearResults.enterPhase .freq))
    (hphase : ∀ t p, P t → P (t.enterPhase p)) (hfreq : ∀ t, P t → P (freqCountBody t).state)
    (htree : ∀ t, P t → P (treeBuildBody t).state) (hcode : ∀ t, P t → P (codeAssignBody t).state)
    (hpack : ∀ t, P t → P (packBody t).state) : P (compressBody s).state :=
  Ran.state_andThen (hfreq _ h0) fun t1 h1 =>
    Ran.state_andThen (htree _ (hphase t1 _ h1)) fun t2 h2 =>
      Ran.state_andThen (hcode _ (hphase t2 _ h2)) fun t3 h3 => hpack _ (hphase t3 _ h3)

/-! ## What each command leaves unchanged -/

/-- No command writes what the host alone writes (70_reset_and_hazards.md R274, 10_state.md R22, R23, R32, R45). -/
theorem bodyOf_inputs (i : Instr) (s : State) : (bodyOf i s).state.inputs = s.inputs := by
  cases i with
  | nop | pqClear | pqExtractMin => rfl
  | freqCount => exact (freqCountBody_frame s rfl).1
  | treeBuild => exact (treeBuildBody_frame s rfl).1
  | codeAssign => exact (codeAssignBody_frame s rfl).1
  | pack => exact (packBody_frame s rfl).1
  | pqInsert => exact (pqInsertBody_frame s rfl).1
  | compress =>
    refine compressBody_state (P := fun t => t.inputs = s.inputs) s rfl (fun _ _ h => h) ?_ ?_ ?_ ?_ <;> intro t h
    · exact (freqCountBody_frame t rfl).1.trans h
    · exact (treeBuildBody_frame t rfl).1.trans h
    · exact (codeAssignBody_frame t rfl).1.trans h
    · exact (packBody_frame t rfl).1.trans h

theorem bodyOf_table {i : Instr} (hi : i ∉ [Instr.freqCount, .compress]) (s : State) :
    (bodyOf i s).state.table = s.table := by
  cases i with
  | freqCount | compress => simp at hi
  | nop | pqClear | pqExtractMin => rfl
  | treeBuild => obtain ⟨-, h, -⟩ := treeBuildBody_frame s rfl; exact h
  | codeAssign => obtain ⟨-, h, -⟩ := codeAssignBody_frame s rfl; exact h
  | pack => obtain ⟨-, h, -⟩ := packBody_frame s rfl; exact h
  | pqInsert => obtain ⟨-, h, -⟩ := pqInsertBody_frame s rfl; exact h

theorem bodyOf_treeRegs {i : Instr} (hi : i ∉ [Instr.treeBuild, .compress]) (s : State) :
    (bodyOf i s).state.treeRegs = s.treeRegs := by
  cases i with
  | treeBuild | compress => simp at hi
  | nop | pqClear | pqExtractMin => rfl
  | freqCount => obtain ⟨-, h, -⟩ := freqCountBody_frame s rfl; exact h
  | codeAssign => obtain ⟨-, -, h, -⟩ := codeAssignBody_frame s rfl; exact h
  | pack => obtain ⟨-, -, h, -⟩ := packBody_frame s rfl; exact h
  | pqInsert => obtain ⟨-, -, h, -⟩ := pqInsertBody_frame s rfl; exact h

theorem bodyOf_codes {i : Instr} (hi : i ∉ [Instr.codeAssign, .compress]) (s : State) :
    (bodyOf i s).state.codes = s.codes := by
  cases i with
  | codeAssign | compress => simp at hi
  | nop | pqClear | pqExtractMin => rfl
  | freqCount => obtain ⟨-, -, h, -⟩ := freqCountBody_frame s rfl; exact h
  | treeBuild => obtain ⟨-, -, h, -⟩ := treeBuildBody_frame s rfl; exact h
  | pack => obtain ⟨-, -, -, h, -⟩ := packBody_frame s rfl; exact h
  | pqInsert => obtain ⟨-, -, -, h, -⟩ := pqInsertBody_frame s rfl; exact h

theorem bodyOf_containerRegs {i : Instr} (hi : i ∉ [Instr.pack, .compress]) (s : State) :
    (bodyOf i s).state.containerRegs = s.containerRegs := by
  cases i with
  | pack | compress => simp at hi
  | nop | pqClear | pqExtractMin => rfl
  | freqCount => obtain ⟨-, -, -, h, -⟩ := freqCountBody_frame s rfl; exact h
  | treeBuild => obtain ⟨-, -, -, h⟩ := treeBuildBody_frame s rfl; exact h
  | codeAssign => obtain ⟨-, -, -, h, -⟩ := codeAssignBody_frame s rfl; exact h
  | pqInsert => obtain ⟨-, -, -, -, h, -⟩ := pqInsertBody_frame s rfl; exact h

theorem bodyOf_queue {i : Instr} (hi : i ∉ [Instr.pqClear, .pqInsert, .pqExtractMin, .treeBuild, .compress])
    (s : State) : (bodyOf i s).state.queue = s.queue := by
  cases i with
  | pqClear | pqInsert | pqExtractMin | treeBuild | compress => simp at hi
  | nop => rfl
  | freqCount => obtain ⟨-, -, -, -, h, -⟩ := freqCountBody_frame s rfl; exact h
  | codeAssign => obtain ⟨-, -, -, -, h, -⟩ := codeAssignBody_frame s rfl; exact h
  | pack => obtain ⟨-, -, -, -, h, -⟩ := packBody_frame s rfl; exact h

theorem bodyOf_resultRegs {i : Instr} (hi : i ∉ [Instr.pqExtractMin, .treeBuild, .compress]) (s : State) :
    (bodyOf i s).state.resultRegs = s.resultRegs := by
  cases i with
  | pqExtractMin | treeBuild | compress => simp at hi
  | nop | pqClear => rfl
  | freqCount => obtain ⟨-, -, -, -, -, h⟩ := freqCountBody_frame s rfl; exact h
  | codeAssign => obtain ⟨-, -, -, -, -, h⟩ := codeAssignBody_frame s rfl; exact h
  | pack => obtain ⟨-, -, -, -, -, h⟩ := packBody_frame s rfl; exact h
  | pqInsert => obtain ⟨-, -, -, -, -, h⟩ := pqInsertBody_frame s rfl; exact h

/-- Acceptance and completion write none of a view's registers, so a command keeps a view that its body keeps. -/
theorem exec_view {α : Type} (view : State → α) (haccept : ∀ s p, view (s.accept p) = view s)
    (hfinish : ∀ s, view s.finish = view s) {i : Instr} {s t : State} (hexec : exec i s = .next t)
    (hbody : ∀ s, view (bodyOf i s).state = view s) : view t = view s := by
  have hstate := (hbody (s.accept (phaseOf i))).trans (haccept s (phaseOf i))
  rw [exec_next_iff.mp hexec]
  rcases Ran.complete_cases (bodyOf i (s.accept (phaseOf i))) with h | h <;> rw [h]
  · exact (hfinish _).trans hstate
  · exact hstate

/-- Settles O12, view by view. -/
theorem onlyTheirCommandsWriteThem : Obligations.OnlyTheirCommandsWriteThem := by
  intro i s t hexec
  refine ⟨fun hi => ?_, fun hi => ?_, fun hi => ?_, fun hi => ?_, fun hi => ?_, fun hi => ?_⟩
  · simpa [State.table] using exec_view State.table (fun _ _ => rfl) (fun _ => rfl) hexec (bodyOf_table hi)
  · simpa [State.treeRegs] using exec_view State.treeRegs (fun _ _ => rfl) (fun _ => rfl) hexec (bodyOf_treeRegs hi)
  · simpa [State.codes] using exec_view State.codes (fun _ _ => rfl) (fun _ => rfl) hexec (bodyOf_codes hi)
  · simpa [State.containerRegs] using
      exec_view State.containerRegs (fun _ _ => rfl) (fun _ => rfl) hexec (bodyOf_containerRegs hi)
  · simpa [State.queue] using exec_view State.queue (fun _ _ => rfl) (fun _ => rfl) hexec (bodyOf_queue hi)
  · simpa [State.resultRegs] using
      exec_view State.resultRegs (fun _ _ => rfl) (fun _ => rfl) hexec (bodyOf_resultRegs hi)

end Sys2Proof.Machine
end

section
/-! SUPPORT. The step, the host's writes to registers and the STATUS word (10_state.md R20, R21, R28, R30, R31). -/

namespace Sys2Proof.Machine

/-- Settles O4: the step serves the write, which is one to CMD. -/
theorem stepRunsTheWrittenCommand : Obligations.StepRunsTheWrittenCommand := by
  intro s v es i hidle hpending hword
  have hserve : step s = serve (.write 0 0 v) (s.withPending es) := by simp only [step, serveFirst, hpending]
  rw [hserve]
  simp [serve, hidle, isCmd, command, hword]

/-- No register but CMD, LEN, ARG_FREQ and ARG_NODE takes a written value (10_state.md R20). -/
theorem State.writeReg_of_ne (s : State) {i : Nat} (v : Nat) (h2 : i ≠ 2) (h3 : i ≠ 3) (h4 : i ≠ 4) :
    s.writeReg i v = s := by
  unfold State.writeReg
  split
  · exact absurd rfl h2
  · exact absurd rfl h3
  · exact absurd rfl h4
  · rfl

/-- A write to REG is a register write, whether or not the number exists (10_state.md R31, 20_memory.md R64). -/
theorem State.hostWrite_reg (s : State) (i v : Nat) : s.hostWrite 0 i v = s.writeReg i v := by
  by_cases hi : i < Space.words s.cfg .reg
  · exact if_pos hi
  · have hi : 17 ≤ i := Nat.le_of_not_lt hi
    exact (if_neg (Nat.not_lt.mpr hi)).trans (s.writeReg_of_ne v (by omega) (by omega) (by omega)).symm

/-- Settles O52. -/
theorem hostWritesOfRegisters : Obligations.HostWritesOfRegisters := by
  intro s v
  refine ⟨⟨rfl, rfl⟩, ⟨rfl, rfl⟩, ⟨rfl, ?_⟩, fun i _ h2 h3 h4 => ?_⟩
  · show (BitVec.ofNat 9 v).toNat = v % 512
    exact BitVec.toNat_ofNat ..
  · exact (s.hostWrite_reg i v).trans (s.writeReg_of_ne v h2 h3 h4)

/-- Bit by bit, the concatenation of the fields of STATUS, whatever the two numbers (10_state.md R28). -/
theorem getLsbD_statusFields (phase err : BitVec 3) (resEmpty treeValid done busy : Bool) (i : Nat) :
    (0#5 ++ phase ++ 0#1 ++ err ++ BitVec.ofBool resEmpty ++ BitVec.ofBool treeValid ++ BitVec.ofBool done ++
      BitVec.ofBool busy).getLsbD i =
      if i < 1 then busy else if i < 2 then done else if i < 3 then treeValid else if i < 4 then resEmpty
      else if i < 7 then err.getLsbD (i - 4) else if i < 8 then false
      else if i < 11 then phase.getLsbD (i - 8) else false := by
  have h2 : i - 1 < 1 ↔ i < 2 := by omega
  have h3 : i - 2 < 1 ↔ i < 3 := by omega
  have h4 : i - 3 < 1 ↔ i < 4 := by omega
  have h7 : i - 4 < 3 ↔ i < 7 := by omega
  have h8 : i - 7 < 1 ↔ i < 8 := by omega
  have h11 : i - 8 < 3 ↔ i < 11 := by omega
  simp only [BitVec.getLsbD_append, BitVec.getLsbD_ofBool, BitVec.getLsbD_zero, Nat.sub_sub]
  simp only [Nat.reduceAdd, h2, h3, h4, h7, h8, h11]
  grind

theorem Status.getLsbD_word (st : Status) (i : Nat) :
    st.word.getLsbD i =
      if i < 1 then st.busy else if i < 2 then st.done else if i < 3 then st.treeValid else if i < 4 then st.resEmpty
      else if i < 7 then st.err.number.getLsbD (i - 4) else if i < 8 then false
      else if i < 11 then st.phase.number.getLsbD (i - 8) else false :=
  getLsbD_statusFields ..

/-- A field of STATUS, from its bits. -/
theorem Status.extractLsb'_word {st : Status} {start len : Nat} {v : BitVec len}
    (h : ∀ i, i < len → st.word.getLsbD (start + i) = v.getLsbD i) : st.word.extractLsb' start len = v :=
  BitVec.eq_of_getLsbD_eq fun i hi => by rw [BitVec.getLsbD_extractLsb', h i hi]; simp [hi]

/-- Settles O59: the fields of STATUS from its bits. -/
theorem statusWordFields : Obligations.StatusWordFields := by
  refine ⟨rfl, rfl, fun st => ⟨st.getLsbD_word 0, st.getLsbD_word 1, st.getLsbD_word 2, st.getLsbD_word 3,
    Status.extractLsb'_word fun i hi => ?_, st.getLsbD_word 7, Status.extractLsb'_word fun i hi => ?_,
    Status.extractLsb'_word fun i hi => ?_⟩⟩ <;> rw [Status.getLsbD_word]
  · rw [if_neg (by omega), if_neg (by omega), if_neg (by omega), if_neg (by omega), if_pos (by omega)]
    congr 1
    omega
  · rw [if_neg (by omega), if_neg (by omega), if_neg (by omega), if_neg (by omega), if_neg (by omega),
      if_neg (by omega), if_pos (by omega)]
    congr 1
    omega
  · rw [if_neg (by omega), if_neg (by omega), if_neg (by omega), if_neg (by omega), if_neg (by omega),
      if_neg (by omega), if_neg (by omega)]
    simp

end Sys2Proof.Machine
end

section
/-! SUPPORT. The error report at completion (10_state.md R25). -/

namespace Sys2Proof.Machine

/-- ERR_SYM and ERR_IDX of `t` are what 10_state.md R25 says for the input of `s` and the code table of `t`. -/
def State.ReportFor (s t : State) : Prop :=
  (t.status.err ≠ .missingCode → t.errSym = 0 ∧ t.errIdx = 0) ∧
    (t.status.err = .missingCode →
      t.errIdx < s.len ∧ t.errSym = s.ibufAt t.errIdx ∧ t.codeLen t.errSym = 0 ∧
        ∀ j, j < t.errIdx → t.codeLen (s.ibufAt j) ≠ 0)

/-- No error so far, the report registers are 0, and the command's inputs are those of `s`. -/
def State.Silent (s t : State) : Prop :=
  t.inputs = s.inputs ∧ t.status.err = .noError ∧ t.errSym = 0 ∧ t.errIdx = 0

theorem State.Silent.reportFor {s t : State} (h : s.Silent t) : s.ReportFor t.finish := by
  obtain ⟨-, herr, hsym, hidx⟩ := h
  refine ⟨fun _ => ⟨hsym, hidx⟩, fun hmiss => ?_⟩
  simp [herr] at hmiss

/-- An error other than MISSING_CODE is raised with symbol and index 0. -/
theorem reportFor_raise (s t : State) {e : ErrCode} (he : e ≠ .missingCode) : s.ReportFor (t.raise e 0 0) :=
  ⟨fun _ => ⟨rfl, Nat.zero_mod _⟩, fun hmiss => absurd hmiss he⟩

theorem ends_raise {P : State → Prop} (s t : State) {e : ErrCode} (he : e ≠ .missingCode) :
    (Machine.raise e 0 0 t).Ends P s.ReportFor := reportFor_raise s t he

/-- Views that agree on the host's inputs agree on each byte of IBUF. -/
theorem State.ibufAt_congr {s t : State} (h : t.inputs = s.inputs) : t.ibufAt = s.ibufAt := by
  have hbuf : t.ibuf = s.ibuf := congrArg Inputs.ibuf h
  have hres : t.free.resets = s.free.resets := congrArg Inputs.resets h
  funext i
  rw [State.ibufAt, State.ibufAt, hbuf, hres]

theorem State.input_getElem? (s : State) {j : Nat} {b : Byte} :
    s.input[j]? = some b ↔ j < s.len ∧ s.ibufAt j = b := by
  by_cases hj : j < s.len <;> simp [State.input, hj]

/-- PACK's pass 1 names the byte without a code of lowest index (44_bit_packer.md R181). -/
theorem firstMissing_input {s : State} {sym : Byte} {idx : Nat}
    (h : firstMissing s.codeLen 0 s.input = some (sym, idx)) :
    idx < s.len ∧ sym = s.ibufAt idx ∧ s.codeLen sym = 0 ∧ ∀ j, j < idx → s.codeLen (s.ibufAt j) ≠ 0 := by
  obtain ⟨j, rfl, hsym, hmiss, hbefore⟩ := firstMissing_eq_some _ _ _ _ _ h
  rw [Nat.zero_add]
  obtain ⟨hj, rfl⟩ := s.input_getElem?.mp hsym
  refine ⟨hj, rfl, hmiss, fun i hi => hbefore _ ?_⟩
  refine List.mem_iff_getElem?.mpr ⟨i, ?_⟩
  rw [List.getElem?_take_of_lt hi]
  exact s.input_getElem?.mpr ⟨hi.trans hj, rfl⟩

theorem configWf_iff (c : Config) :
    c.wf = true ↔ 1 ≤ c.cntW ∧ 1 ≤ c.ibufCap ∧ c.ibufCap < 2 ^ c.cntW ∧ 6 ≤ c.obufCap := by
  simp [Config.wf, Config.cntOk, Config.ibufNonempty, Config.ibufFits, Config.obufOk, and_assoc]

/-- MISSING_CODE of the input of `t`, which is that of `s`, is reported in full: the index fits ERR_IDX. -/
theorem reportFor_missingCode {s t : State} (hc : s.cfg.wf = true) (hin : t.inputs = s.inputs)
    (hlen : t.len ≤ t.cfg.ibufCap) {sym : Byte} {idx : Nat}
    (hmiss : firstMissing t.codeLen 0 t.input = some (sym, idx)) :
    s.ReportFor (t.clearResults.raise .missingCode sym idx) := by
  obtain ⟨-, -, hcap, -⟩ := (configWf_iff _).mp hc
  obtain ⟨hidx, hsym, hnone, hbefore⟩ := firstMissing_input hmiss
  have hcfg : t.cfg = s.cfg := congrArg Inputs.cfg hin
  have hsame : t.len = s.len := congrArg Inputs.len hin
  rw [hcfg] at hlen
  rw [State.ibufAt_congr hin] at hsym hbefore
  have herr : (t.clearResults.raise .missingCode sym idx).errIdx = idx := by
    rw [State.raise_errIdx, State.clearResults_cfg, hcfg]
    exact cntTrunc_of_lt (by omega)
  refine ⟨fun h => absurd rfl h, fun _ => ?_⟩
  rw [herr]
  exact ⟨hsame ▸ hidx, hsym, hnone, hbefore⟩

section
variable {s t : State} (h : s.Silent t)
include h

theorem freqCountBody_report : (freqCountBody t).Ends s.Silent s.ReportFor := by
  rcases freqCountBody_cases t with ⟨_, e⟩ | ⟨_, _, _, e⟩ <;> rw [e]
  · exact ends_raise _ _ (by decide)
  · exact h

theorem treeBuildBody_report : (treeBuildBody t).Ends s.Silent s.ReportFor := by
  rcases treeBuildBody_cases t with ⟨_, e⟩ | ⟨_, _, _, _, _, e⟩ <;> rw [e]
  · exact ends_raise _ _ (by decide)
  · exact h

theorem codeAssignBody_report : (codeAssignBody t).Ends s.Silent s.ReportFor := by
  rcases codeAssignBody_cases t with ⟨_, e⟩ | ⟨_, e⟩ <;> rw [e]
  · exact ends_raise _ _ (by decide)
  · exact h

theorem pqInsertBody_report : (pqInsertBody t).Ends s.Silent s.ReportFor := by
  rcases pqInsertBody_cases t with ⟨_, e⟩ | ⟨_, _, _, e⟩ <;> rw [e]
  · exact ends_raise _ _ (by decide)
  · exact h

theorem packBody_report (hc : s.cfg.wf = true) : (packBody t).Ends s.Silent s.ReportFor := by
  rcases packBody_cases t with ⟨_, e⟩ | ⟨_, _, e⟩ | ⟨hlen, _, _, _, hmiss, e⟩ |
    ⟨_, _, _, _, _, _, _, ⟨_, e⟩ | ⟨_, _, _, e⟩⟩ <;> rw [e]
  · exact ends_raise _ _ (by decide)
  · exact ends_raise _ _ (by decide)
  · exact reportFor_missingCode hc h.1 hlen hmiss
  · exact ends_raise _ _ (by decide)
  · exact h

theorem compressBody_report (hc : s.cfg.wf = true) : (compressBody t).Ends s.Silent s.ReportFor :=
  Ran.ends_andThen (freqCountBody_report (t := t.clearResults.enterPhase .freq) h) fun t1 h1 =>
    Ran.ends_andThen (treeBuildBody_report (t := t1.enterPhase .tree) h1) fun t2 h2 =>
      Ran.ends_andThen (codeAssignBody_report (t := t2.enterPhase .code) h2) fun t3 h3 =>
        packBody_report (t := t3.enterPhase .pack) h3 hc

theorem bodyOf_report (hc : s.cfg.wf = true) (i : Instr) : (bodyOf i t).Ends s.Silent s.ReportFor := by
  cases i with
  | nop | pqClear | pqExtractMin => exact h
  | compress => exact compressBody_report h hc
  | freqCount => exact freqCountBody_report h
  | treeBuild => exact treeBuildBody_report h
  | codeAssign => exact codeAssignBody_report h
  | pack => exact packBody_report h hc
  | pqInsert => exact pqInsertBody_report h

end

/-- Settles O9: acceptance clears the report, and of the errors only MISSING_CODE is raised with a symbol and an
index. -/
theorem errorReportNamesTheOffendingByte : Obligations.ErrorReportNamesTheOffendingByte := by
  rintro i s t hc (hexec | hillegal)
  · obtain rfl := exec_next_iff.mp hexec
    have hsilent : s.Silent (s.accept (phaseOf i)) := ⟨rfl, rfl, rfl, rfl⟩
    exact Ran.ends_complete (bodyOf_report hsilent hc i) fun _ h => h.reportFor
  · injection hillegal with hillegal
    exact hillegal ▸ reportFor_raise s _ (by decide)

end Sys2Proof.Machine
end

section
/-! SUPPORT. An invariant of every step, packaged once: what the host's actions, acceptance, completion and each
command's body keep, every step keeps. -/

namespace Sys2Proof.Machine

/-- What every part of a step keeps. -/
structure Kept (P : State → Prop) : Prop where
  host : ∀ s h, P s → P { s with host := h }
  write : ∀ s sp i v, P s → P (s.hostWrite sp i v)
  rst : ∀ s, P s → P s.afterRst
  accept : ∀ s p, P s → P (s.accept p)
  finish : ∀ s, P s → P s.finish
  illegal : ∀ s, P s → P (s.raise .illegalCmd 0 0)
  body : ∀ i s, P s → P (bodyOf i s).state

/-- A command is acceptance, its body and completion (45_compress.md R200). -/
theorem Kept.exec {P : State → Prop} (hP : Kept P) {i : Instr} {s t : State} (hs : P s) (hexec : exec i s = .next t) :
    P t := by
  have hbody := hP.body i _ (hP.accept s (phaseOf i) hs)
  rw [exec_next_iff.mp hexec]
  rcases Ran.complete_cases (bodyOf i (s.accept (phaseOf i))) with h | h <;> rw [h]
  · exact hP.finish _ hbody
  · exact hbody

/-- What every part of a step keeps, the step keeps. -/
theorem Kept.step {P : State → Prop} (hP : Kept P) {s t : State} (hs : P s) (hstep : step s = .next t) : P t := by
  have hpend : ∀ es, P (s.withPending es) := fun es => hP.host s _ hs
  rcases step_next hstep with ⟨_, _, rfl⟩ | ⟨_, _, es, _, rfl⟩ | ⟨_, _, _, es, _, _, _, rfl⟩ |
    ⟨_, es, _, _, _, _, hexec⟩ | ⟨_, es, _, _, _, rfl⟩ | ⟨_, es, _, _, rfl⟩
  · exact hs
  · exact hP.host _ _ (hpend es)
  · exact hP.write _ _ _ _ (hpend es)
  · exact hP.exec (hpend es) hexec
  · exact hP.illegal _ (hP.accept _ _ (hpend es))
  · exact hP.rst _ (hpend es)

/-- A host write changes none of the registers and memories that the commands alone write (20_memory.md R60). -/
theorem hostWrite_frame (s : State) (sp i v : Nat) {t : State} (h : t = s.hostWrite sp i v) :
    t.cfg = s.cfg ∧ t.free.resets = s.free.resets ∧ t.table = s.table ∧ t.treeRegs = s.treeRegs ∧ t.queue = s.queue ∧
      t.status = s.status := by
  rcases hostWrite_cases s sp i v with e | ⟨_, _, e⟩ | ⟨_, _, e⟩ | ⟨_, _, e⟩ | ⟨_, _, e⟩ | ⟨_, _, e⟩ | ⟨_, _, e⟩ <;>
    rw [e] at h <;> subst h <;> exact ⟨rfl, rfl, rfl, rfl, rfl, rfl⟩

end Sys2Proof.Machine
end

section
/-! SUPPORT. FREQ_COUNT (40_frequency_table.md R121, R123): after the loop FREQ holds the counts and ORD the symbols in
first-seen order, so the table is sound (10_state.md R35). -/

namespace Sys2Proof.Machine

/-! ## The symbols -/

theorem mem_allSymbols (b : Byte) : b ∈ allSymbols :=
  List.mem_map.mpr ⟨b.toNat, List.mem_range.mpr b.isLt, by simp⟩

theorem allSymbols_nodup : allSymbols.Nodup := by
  refine List.Nodup.map_on (fun i hi j hj hij => ?_) List.nodup_range
  have hij := congrArg BitVec.toNat hij
  rw [BitVec.toNat_ofNat, BitVec.toNat_ofNat] at hij
  rw [numSymbols, List.mem_range] at hi hj
  omega

theorem length_le_numSymbols {l : List Byte} (h : l.Nodup) : l.length ≤ numSymbols := by
  have hlen := (h.subperm fun b _ => mem_allSymbols b).length_le
  rwa [allSymbols, List.length_map, List.length_range] at hlen

/-- The counts of all symbols sum to the length of the input. -/
theorem sum_count_allSymbols (input : List Byte) : (allSymbols.map fun b => input.count b).sum = input.length := by
  have hsub : ∀ b ∈ (input : Multiset Byte), b ∈ allSymbols.toFinset := fun b _ =>
    List.mem_toFinset.mpr (mem_allSymbols b)
  have hsum := Multiset.sum_count_eq_card hsub
  rw [List.sum_toFinset _ allSymbols_nodup] at hsum
  simpa only [Multiset.coe_count, Multiset.coe_card] using hsum

/-- The symbols of an input, each once, in first-seen order. -/
def firstSeen (input : List Byte) : List Byte := input.reverse.dedup.reverse

@[simp] theorem firstSeen_nil : firstSeen [] = [] := rfl

theorem firstSeen_nodup (input : List Byte) : (firstSeen input).Nodup :=
  List.nodup_reverse.mpr (List.nodup_dedup _)

@[simp] theorem mem_firstSeen {input : List Byte} {b : Byte} : b ∈ firstSeen input ↔ b ∈ input := by
  simp [firstSeen]

theorem firstSeen_append_of_mem {input : List Byte} {b : Byte} (h : b ∈ input) :
    firstSeen (input ++ [b]) = firstSeen input := by
  simp [firstSeen, h]

theorem firstSeen_append_of_notMem {input : List Byte} {b : Byte} (h : b ∉ input) :
    firstSeen (input ++ [b]) = firstSeen input ++ [b] := by
  simp [firstSeen, h]

/-! ## The loop of FREQ_COUNT -/

/-- The table of an input: its counts, and its symbols in first-seen order. -/
structure FreqTable.Counted (t : FreqTable) (input : List Byte) : Prop where
  freq : ∀ b : Byte, freqWord t.freq b.toNat = input.count b
  k : t.k.toNat = (firstSeen input).length
  ord : ∀ j, j < (firstSeen input).length → Mem.find? t.ord j = (firstSeen input)[j]?

theorem FreqTable.counted_cleared (ord : List Host.Cell) : (FreqTable.cleared ord).Counted [] where
  freq _ := rfl
  k := rfl
  ord j h := by simp at h

section
variable {c : Config} {t : FreqTable} {input : List Byte} (h : t.Counted input)
include h

theorem FreqTable.Counted.freq_eq_zero {b : Byte} : freqWord t.freq b.toNat = 0 ↔ b ∉ input := by
  rw [h.freq, List.count_eq_zero]

/-- A symbol not seen so far has room in ORD. -/
theorem FreqTable.Counted.k_lt {b : Byte} (hb : b ∉ input) : t.k.toNat < numSymbols := by
  have hlen := length_le_numSymbols (firstSeen_nodup (input ++ [b]))
  rw [firstSeen_append_of_notMem hb, List.length_append, List.length_singleton] at hlen
  rw [h.k]
  omega

/-- The loop body for one more input byte. -/
theorem FreqTable.Counted.count (b : Byte) (hfit : input.length + 1 < 2 ^ c.cntW) :
    (t.count c b).Counted (input ++ [b]) := by
  have hcount : ∀ a : Byte, freqWord (t.count c b).freq a.toNat = (input ++ [b]).count a := fun a => by
    have hle := List.count_le_length (a := b) (l := input)
    rw [FreqTable.freqWord_count c t b _ (by rw [h.freq]; omega), List.count_append, List.count_singleton]
    by_cases hab : a = b
    · simp [hab, h.freq]
    · simp [hab, Ne.symm hab, BitVec.toNat_inj, h.freq]
  rcases FreqTable.ord_count c t b with ⟨hzero, hord, hk⟩ | ⟨hzero, hord, hk⟩
  · have hb : b ∉ input := h.freq_eq_zero.mp hzero
    have hlt := h.k_lt hb
    refine ⟨hcount, ?_, fun j hj => ?_⟩
    · rw [hk, firstSeen_append_of_notMem hb, List.length_append, ← h.k, BitVec.toNat_add]
      show (t.k.toNat + 1) % 512 = t.k.toNat + 1
      exact Nat.mod_eq_of_lt (by unfold numSymbols at hlt; omega)
    · rw [firstSeen_append_of_notMem hb] at hj ⊢
      rw [hord, Mem.find?_put, h.k]
      split
      · subst_vars; simp
      · have hj' : j < (firstSeen input).length := by
          rw [List.length_append, List.length_singleton] at hj; omega
        rw [h.ord j hj', List.getElem?_append_left hj']
  · have hb : b ∈ input := not_not.mp (mt h.freq_eq_zero.mpr hzero)
    refine ⟨hcount, ?_, ?_⟩ <;> rw [firstSeen_append_of_mem hb]
    · rw [hk, h.k]
    · rw [hord]; exact h.ord

/-- The whole loop; the length of the input fits CNT_W bits, so no count wraps. -/
theorem FreqTable.Counted.foldl (rest : List Byte) (hfit : (input ++ rest).length < 2 ^ c.cntW) :
    (rest.foldl (FreqTable.count c) t).Counted (input ++ rest) := by
  induction rest generalizing t input with
  | nil => simpa using h
  | cons b rest ih =>
    have hfit' : input.length + 1 < 2 ^ c.cntW := by simp at hfit; omega
    rw [List.append_cons] at hfit ⊢
    exact ih (h.count b hfit') hfit

end

/-- The table FREQ_COUNT writes is that of its input. -/
theorem counted_input {s : State} (hc : s.cfg.wf = true) (hlen : s.len ≤ s.cfg.ibufCap) :
    (s.input.foldl (FreqTable.count s.cfg) (FreqTable.cleared s.ord)).Counted s.input := by
  obtain ⟨-, -, hcap, -⟩ := (configWf_iff _).mp hc
  simpa using (FreqTable.counted_cleared s.ord).foldl s.input (by simp; omega)

/-! ## The sound table -/

/-- 10_state.md R35, 40_frequency_table.md R123, as State.tableOk decides it. -/
structure State.TableSound (s : State) : Prop where
  nodup : s.tableSymbols.Nodup
  mem : ∀ b : Byte, s.freqAt b.toNat ≠ 0 ↔ b ∈ s.tableSymbols
  total : s.totalCount < 2 ^ s.cfg.cntW

theorem tableOk_iff (s : State) : s.tableOk = true ↔ s.TableSound := by
  simp only [State.tableOk, fitsCnt, Bool.and_eq_true, List.all_eq_true, decide_eq_true_eq]
  exact ⟨fun ⟨⟨h1, h2⟩, h3⟩ => ⟨h1, fun b => h2 b (mem_allSymbols b), h3⟩,
    fun h => ⟨⟨h.nodup, fun b _ => h.mem b⟩, h.total⟩⟩

theorem State.TableSound.congr {s t : State} (h : s.TableSound) (hcfg : t.cfg = s.cfg)
    (hres : t.free.resets = s.free.resets) (htab : t.table = s.table) : t.TableSound := by
  obtain ⟨hfreq, hord, hk⟩ : t.freq = s.freq ∧ t.ord = s.ord ∧ t.k = s.k := by simpa [State.table] using htab
  have hf : t.freqAt = s.freqAt := funext fun i => by rw [State.freqAt, State.freqAt, hfreq]
  have ho : t.ordAt = s.ordAt := funext fun j => by rw [State.ordAt, State.ordAt, hord, hres]
  have hs : t.tableSymbols = s.tableSymbols := by rw [State.tableSymbols, State.tableSymbols, hk, ho]
  have htot : t.totalCount = s.totalCount := by rw [State.totalCount, State.totalCount, hf]
  exact ⟨hs ▸ h.nodup, by rw [hs, hf]; exact h.mem, by rw [htot, hcfg]; exact h.total⟩

/-- A counted table is sound. -/
theorem tableSound_setTable {s : State} {t : FreqTable} {input : List Byte} (ht : t.Counted input)
    (hfit : input.length < 2 ^ s.cfg.cntW) : (s.setTable t.freq t.ord t.k).TableSound := by
  have hsyms : (s.setTable t.freq t.ord t.k).tableSymbols = firstSeen input := by
    refine List.ext_getElem? fun j => ?_
    by_cases hj : j < (firstSeen input).length
    · simp [State.tableSymbols, State.ordAt, ht.k, ht.ord j hj, hj]
    · simp [State.tableSymbols, ht.k, hj]
  refine ⟨hsyms ▸ firstSeen_nodup input, fun b => ?_, ?_⟩
  · rw [hsyms, mem_firstSeen, ← not_iff_not, not_not]
    exact ht.freq_eq_zero
  · have htot : (s.setTable t.freq t.ord t.k).totalCount = input.length := by
      rw [← sum_count_allSymbols input]
      exact congrArg List.sum (List.map_congr_left fun b _ => ht.freq b)
    rw [htot]
    exact hfit

/-- FREQ_COUNT leaves a sound table, its own or the one it found. -/
theorem freqCountBody_tableSound {s : State} (hc : s.cfg.wf = true) (h : s.TableSound) :
    (freqCountBody s).state.TableSound := by
  rcases freqCountBody_cases s with ⟨_, e⟩ | ⟨hlen, _, rfl, e⟩ <;> rw [e]
  · exact h.congr rfl rfl rfl
  · obtain ⟨-, -, hcap, -⟩ := (configWf_iff _).mp hc
    exact tableSound_setTable (counted_input hc hlen) (by rw [State.input_length]; omega)

/-- The reset state's table is empty, and sound. -/
theorem resetOf_tableSound (c : Config) (resets epoch : Nat) (host : HostPort) :
    (State.resetOf c resets epoch host).TableSound where
  nodup := List.nodup_nil
  mem b := by simp [State.tableSymbols, State.resetOf, State.freqAt, freqWord_eq]
  total := by
    have : (State.resetOf c resets epoch host).totalCount = 0 :=
      List.sum_eq_zero fun n hn => by
        obtain ⟨b, -, rfl⟩ := List.mem_map.mp hn
        rfl
    rw [this]
    positivity

/-- Legal parameters and a sound table. -/
def State.TableInv (s : State) : Prop := s.cfg.wf = true ∧ s.TableSound

/-- A body that writes neither the host's inputs nor the table keeps it sound. -/
theorem State.TableInv.frame {s t : State} (h : s.TableInv) (hin : t.inputs = s.inputs) (htab : t.table = s.table) :
    t.TableInv := by
  obtain ⟨hc, hs⟩ := h
  have hcfg : t.cfg = s.cfg := congrArg Inputs.cfg hin
  exact ⟨hcfg ▸ hc, hs.congr hcfg (congrArg Inputs.resets hin) htab⟩

theorem freqCountBody_tableInv {s : State} (h : s.TableInv) : (freqCountBody s).state.TableInv := by
  obtain ⟨hc, hs⟩ := h
  have hcfg : (freqCountBody s).state.cfg = s.cfg := congrArg Inputs.cfg (bodyOf_inputs .freqCount s)
  exact ⟨hcfg ▸ hc, freqCountBody_tableSound hc hs⟩

theorem bodyOf_tableInv (i : Instr) {s : State} (h : s.TableInv) : (bodyOf i s).state.TableInv := by
  have hother : ∀ i, i ∉ [Instr.freqCount, .compress] → ∀ t : State, t.TableInv → (bodyOf i t).state.TableInv :=
    fun i hi t ht => ht.frame (bodyOf_inputs i t) (bodyOf_table hi t)
  by_cases hi : i ∉ [Instr.freqCount, .compress]
  · exact hother i hi s h
  rcases List.mem_pair.mp (not_not.mp hi) with rfl | rfl
  · exact freqCountBody_tableInv h
  · exact compressBody_state (P := State.TableInv) s (h.frame rfl rfl) (fun t p ht => ht.frame rfl rfl)
      (fun t ht => freqCountBody_tableInv ht) (hother .treeBuild (by decide)) (hother .codeAssign (by decide))
      (hother .pack (by decide))

theorem kept_tableInv : Kept State.TableInv where
  host s h := fun ⟨hc, hs⟩ => ⟨hc, hs.congr rfl rfl rfl⟩
  write s sp i v := fun ⟨hc, hs⟩ => by
    obtain ⟨hcfg, hres, htab, -⟩ := hostWrite_frame s sp i v rfl
    exact ⟨hcfg ▸ hc, hs.congr hcfg hres htab⟩
  rst s := fun ⟨hc, _⟩ => ⟨hc, resetOf_tableSound ..⟩
  accept s p h := h.frame rfl rfl
  finish s h := h.frame rfl rfl
  illegal s h := h.frame rfl rfl
  body i s h := bodyOf_tableInv i h

/-- Settles O17: FREQ_COUNT alone writes the table, and leaves that of its input. -/
theorem stepKeepsTheFrequencyTable : Obligations.StepKeepsTheFrequencyTable := by
  intro s t hc hs hstep
  obtain ⟨-, ht⟩ := kept_tableInv.step ⟨hc, (tableOk_iff s).mp hs⟩ hstep
  exact (tableOk_iff t).mpr ht

end Sys2Proof.Machine
end

section
/-! SUPPORT. The heap order (41_priority_queue.md R137): both sifts restore it, so every queue procedure and every step
keeps it, and the root is an entry of minimum frequency. -/

namespace Sys2Proof.Machine

section
variable (fill : Nat → HeapEntry) (q : Queue)

/-- Entry j is no smaller than its parent (R137). -/
def Queue.OrderedAt (j : Nat) : Prop := (q.at fill ((j - 1) / 2)).freq ≤ (q.at fill j).freq

/-- Heap order (R137). -/
def Queue.Ordered : Prop := ∀ j, 0 < j → j < q.hsize.toNat → q.OrderedAt fill j

/-- The children of entry i are no smaller than its parent, so that i may be exchanged with either. -/
def Queue.Bridged (i : Nat) : Prop :=
  0 < i → ∀ j, 0 < j → j < q.hsize.toNat → (j - 1) / 2 = i → (q.at fill ((i - 1) / 2)).freq ≤ (q.at fill j).freq

/-- Heap order but perhaps between entry i and its parent: the invariant of siftUp. -/
structure Queue.OrderedAbove (i : Nat) : Prop where
  rest : ∀ j, 0 < j → j < q.hsize.toNat → j ≠ i → q.OrderedAt fill j
  bridged : q.Bridged fill i

/-- Heap order but perhaps between entry i and its children: the invariant of siftDown. -/
structure Queue.OrderedBelow (i : Nat) : Prop where
  rest : ∀ j, 0 < j → j < q.hsize.toNat → (j - 1) / 2 ≠ i → q.OrderedAt fill j
  bridged : q.Bridged fill i

/-- A queue of at most one entry is ordered. -/
theorem Queue.ordered_of_le_one (h : q.hsize.toNat ≤ 1) : q.Ordered fill := fun j h0 hj => by omega

/-- The root is an entry of minimum frequency. -/
theorem Queue.Ordered.root_le {fill : Nat → HeapEntry} {q : Queue} (h : q.Ordered fill) (j : Nat)
    (hj : j < q.hsize.toNat) : (q.at fill 0).freq ≤ (q.at fill j).freq := by
  induction j using Nat.strong_induction_on with
  | _ j ih =>
    rcases Nat.eq_zero_or_pos j with rfl | h0
    · exact le_rfl
    · exact (ih ((j - 1) / 2) (by omega) (by omega)).trans (h j h0 hj)

/-! ## pq_insert -/

section
variable {fill : Nat → HeapEntry} {q : Queue} {i : Nat}

/-- One pass of siftUp: entry i is smaller than its parent p and goes there. An entry j is i itself (now above the
old p), a child of i (no smaller than the old p, which bridges), the other child of p (no smaller than the old p), or one
that the exchange leaves alone. -/
theorem Queue.OrderedAbove.swap (h : q.OrderedAbove fill i) (hi : 0 < i) (hn : i < q.hsize.toNat)
    (hlt : (q.at fill i).freq < (q.at fill ((i - 1) / 2)).freq) :
    (q.swap fill i ((i - 1) / 2)).OrderedAbove fill ((i - 1) / 2) := by
  have hbridge := h.bridged hi
  have hparent := h.rest ((i - 1) / 2)
  have hrest := h.rest
  unfold Queue.OrderedAt at hparent hrest
  refine ⟨fun j h0 hj hne => ?_, fun hp j h0 hj hpj => ?_⟩
  · have hb := hbridge j h0 hj
    have hr := hrest j h0 hj
    unfold Queue.OrderedAt
    simp only [Queue.at_swap]
    split_ifs <;> grind
  · have hr := hrest j h0 hj
    have hpp := hparent hp (by omega) (by omega)
    simp only [Queue.at_swap]
    split_ifs <;> grind

theorem Queue.siftUp_ordered (passes : Nat) (h : q.OrderedAbove fill i) (hn : i < q.hsize.toNat) (hp : i ≤ passes) :
    (Queue.siftUp fill passes q i).Ordered fill := by
  have hroot : i = 0 → q.Ordered fill := fun h0 j hj0 hj => h.rest j hj0 hj (by omega)
  induction passes generalizing q i with
  | zero => exact hroot (by omega)
  | succ n ih =>
    unfold Queue.siftUp
    split
    · exact hroot ‹_›
    · dsimp only
      split
      · have h' := h.swap (by omega) hn ‹_›
        exact ih h' (by simp only [Queue.swap_hsize]; omega) (by omega) fun h0 j hj0 hj => h'.rest j hj0 hj (by omega)
      · intro j hj0 hj
        by_cases hji : j = i
        · subst hji
          exact Nat.le_of_not_lt ‹_›
        · exact h.rest j hj0 hj hji

/-- pq_insert keeps the heap order; a size that wraps to 0 leaves nothing to order. -/
theorem pqInsert_ordered (h : q.Ordered fill) (e : HeapEntry) : (pqInsert fill q e).Ordered fill := by
  rcases Nat.lt_or_ge (q.hsize.toNat + 1) 512 with hlt | hge
  · have hs : (q.hsize + 1).toNat = q.hsize.toNat + 1 := by
      rw [BitVec.toNat_add]
      exact Nat.mod_eq_of_lt hlt
    refine Queue.siftUp_ordered _ ⟨fun j h0 hj hne => ?_, fun h0 j hj0 hj hp => ?_⟩ ?_ le_rfl
    · have hj : j < q.hsize.toNat := by simp only [hs] at hj; omega
      unfold Queue.OrderedAt
      rw [Queue.at_put, Queue.at_put, if_neg (by omega), if_neg (by omega)]
      exact h j h0 hj
    · simp only [hs] at hj
      omega
    · simp only [hs]
      omega
  · refine Queue.ordered_of_le_one _ _ ?_
    rw [pqInsert_hsize, BitVec.toNat_add]
    show (q.hsize.toNat + 1) % 512 ≤ 1
    omega

/-! ## pq_extract_min -/

/-- One pass of siftDown: the smallest child m of entry i goes up. An entry j is m itself (now below the smaller one),
the other child of i (no smaller than m), i itself (no smaller than its parent, which m bridges), or one that the
exchange leaves alone. -/
theorem Queue.OrderedBelow.swap (h : q.OrderedBelow fill i) {m : Nat} (hm : m = 2 * i + 1 ∨ m = 2 * i + 2)
    (hn : m < q.hsize.toNat) (hlt : (q.at fill m).freq < (q.at fill i).freq)
    (hmin : ∀ c, c = 2 * i + 1 ∨ c = 2 * i + 2 → c < q.hsize.toNat → (q.at fill m).freq ≤ (q.at fill c).freq) :
    (q.swap fill i m).OrderedBelow fill m := by
  have hrest := h.rest
  unfold Queue.OrderedAt at hrest
  refine ⟨fun j h0 hj hne => ?_, fun h0 j hj0 hj hp => ?_⟩
  · have hb : 0 < i → _ := fun hi => h.bridged hi m (by omega) hn (by omega)
    have hr := hrest j h0 hj
    have hc : (j - 1) / 2 = i → _ := fun hji => hmin j (by omega) hj
    unfold Queue.OrderedAt
    simp only [Queue.at_swap]
    split_ifs <;> grind
  · have hr := hrest j hj0 hj (by omega)
    simp only [Queue.at_swap]
    split_ifs <;> grind

theorem Queue.siftDown_ordered (passes : Nat) (h : q.OrderedBelow fill i) (hp : q.hsize.toNat ≤ i + passes) :
    (Queue.siftDown fill passes q i).Ordered fill := by
  induction passes generalizing q i with
  | zero =>
    intro j h0 hj
    have hj : j < q.hsize.toNat := hj
    exact h.rest j h0 hj (by omega)
  | succ n ih =>
    unfold Queue.siftDown
    dsimp only
    split
    · intro j h0 hj
      by_cases hji : (j - 1) / 2 = i
      · have hle := Queue.smallest_le fill q i j (by omega) (.inr hj)
        rwa [‹q.smallest fill i = i›, ← hji] at hle
      · exact h.rest j h0 hj hji
    · rcases Queue.smallest_cases fill q i with hs | ⟨hm, hn, hlt⟩
      · exact absurd hs ‹_›
      · exact ih (h.swap hm hn hlt fun c hc hcn => Queue.smallest_le fill q i c (.inr hc) (.inr hcn))
          (by simp only [Queue.swap_hsize]; omega)

/-- The queue pq_extract_min sifts: the last entry stands at the root. -/
def Queue.lastToRoot (fill : Nat → HeapEntry) (q : Queue) : Queue :=
  { heap := Mem.put q.heap 0 (q.at fill (q.hsize - 1).toNat), hsize := q.hsize - 1 }

theorem Queue.hsize_sub_one (h : q.hsize ≠ 0) : (q.hsize - 1).toNat + 1 = q.hsize.toNat := by
  have h0 : q.hsize.toNat ≠ 0 := fun h' => h (BitVec.eq_of_toNat_eq h')
  have hlt := q.hsize.isLt
  rw [BitVec.toNat_sub]
  show (512 - 1 + q.hsize.toNat) % 512 + 1 = q.hsize.toNat
  omega

/-- The queue pq_extract_min leaves. -/
theorem pqExtractMin_queue_cases (h : q.hsize ≠ 0) :
    (q.hsize - 1 = 0 ∧ (pqExtractMin fill q).2 = { q with hsize := q.hsize - 1 }) ∨
      (q.hsize - 1 ≠ 0 ∧ (pqExtractMin fill q).2 = Queue.siftDown fill (q.hsize - 1).toNat (q.lastToRoot fill) 0) := by
  by_cases h1 : q.hsize - 1 = 0
  · exact .inl ⟨h1, by simp only [pqExtractMin, if_neg h, if_pos h1]⟩
  · exact .inr ⟨h1, by simp only [pqExtractMin, if_neg h, if_neg h1, Queue.lastToRoot]⟩

theorem Queue.at_lastToRoot (j : Nat) :
    (q.lastToRoot fill).at fill j = if j = 0 then q.at fill (q.hsize - 1).toNat else q.at fill j :=
  Queue.at_put fill q.heap (q.hsize - 1) 0 j _

/-- pq_extract_min keeps the heap order. -/
theorem pqExtractMin_ordered (h : q.Ordered fill) : (pqExtractMin fill q).2.Ordered fill := by
  by_cases h0 : q.hsize = 0
  · simpa only [pqExtractMin, if_pos h0] using h
  have hs := Queue.hsize_sub_one h0
  rcases pqExtractMin_queue_cases (fill := fill) h0 with ⟨h1, e⟩ | ⟨h1, e⟩ <;> rw [e]
  · refine Queue.ordered_of_le_one _ _ ?_
    show (q.hsize - 1).toNat ≤ 1
    rw [h1]
    decide
  · have hp : (q.lastToRoot fill).hsize.toNat ≤ 0 + (q.hsize - 1).toNat := (Nat.zero_add _).ge
    refine Queue.siftDown_ordered _ ⟨fun j hj0 hj hp => ?_, fun h0 => absurd h0 (lt_irrefl 0)⟩ hp
    have hj : j < (q.hsize - 1).toNat := hj
    unfold Queue.OrderedAt
    rw [Queue.at_lastToRoot, Queue.at_lastToRoot, if_neg hp, if_neg (by omega)]
    exact h j hj0 (by omega)

/-- pq_extract_min takes the root out of the contents and alters, loses or duplicates no other entry (R138). -/
theorem pqExtractMin_perm (h : q.hsize ≠ 0) :
    (q.toList fill).Perm (q.at fill 0 :: (pqExtractMin fill q).2.toList fill) := by
  have hs := Queue.hsize_sub_one h
  rcases pqExtractMin_queue_cases (fill := fill) h with ⟨h1, e⟩ | ⟨h1, e⟩ <;> rw [e]
  · rw [h1] at hs
    simp [Queue.toList, ← hs]
  · obtain ⟨m, hm⟩ : ∃ m, (q.hsize - 1).toNat = m + 1 :=
      Nat.exists_eq_succ_of_ne_zero fun h' => h1 (BitVec.eq_of_toNat_eq h')
    have hlast : (q.lastToRoot fill).toList fill =
        q.at fill (m + 1) :: (List.range m).map fun j => q.at fill (j + 1) := by
      show (List.range (q.hsize - 1).toNat).map _ = _
      rw [hm, List.range_succ_eq_map, List.map_cons, List.map_map, Queue.at_lastToRoot, if_pos rfl, hm]
      exact congrArg _ (List.map_congr_left fun j _ => Queue.at_lastToRoot (j + 1))
    have hlist : q.toList fill =
        q.at fill 0 :: (((List.range m).map fun j => q.at fill (j + 1)) ++ [q.at fill (m + 1)]) := by
      rw [Queue.toList, ← hs, hm, List.range_succ_eq_map, List.range_succ, List.map_cons]
      simp [Function.comp_def]
    have hsift := Queue.siftDown_perm fill (q.lastToRoot fill) (q.hsize - 1).toNat (i := 0)
      (show 0 < (q.hsize - 1).toNat by omega)
    rw [hlist]
    exact (List.Perm.cons _ ((List.perm_append_singleton _ _).trans (hlast ▸ hsift.symm)))

end

end

/-! ## TREE_BUILD's queue -/

theorem Build.leaves_ordered (s : State) : (Build.leaves s).queue.Ordered s.heapFill := by
  have hfold : ∀ (js : List Nat) (b : Build), b.queue.Ordered s.heapFill →
      (js.foldl (Build.addLeaf s) b).queue.Ordered s.heapFill := fun js => by
    induction js with
    | nil => exact fun b h => h
    | cons j js ih => exact fun b h => ih _ (pqInsert_ordered h _)
  exact hfold _ _ (Queue.ordered_of_le_one _ _ (by simp))

theorem Build.merge_ordered {c : Config} {fill : Nat → HeapEntry} {b : Build} (h : b.queue.Ordered fill) :
    (b.merge c fill).queue.Ordered fill :=
  pqInsert_ordered (pqExtractMin_ordered (pqExtractMin_ordered h)) _

/-- What the leaves and every merge keep, step 2 keeps. -/
theorem Build.mergeAll_induction {c : Config} {fill : Nat → HeapEntry} {P : Build → Prop}
    (hmerge : ∀ b, P b → 1 < b.queue.hsize.toNat → P (b.merge c fill)) (passes : Nat) {b : Build} (h : P b) :
    P (Build.mergeAll c fill passes b) := by
  induction passes generalizing b with
  | zero => exact h
  | succ n ih =>
    unfold Build.mergeAll
    split
    · exact ih (hmerge b h ‹_›)
    · exact h

theorem Build.mergeAll_ordered {c : Config} {fill : Nat → HeapEntry} (passes : Nat) {b : Build}
    (h : b.queue.Ordered fill) : (Build.mergeAll c fill passes b).queue.Ordered fill :=
  Build.mergeAll_induction (P := fun b => b.queue.Ordered fill) (fun _ hb _ => Build.merge_ordered hb) passes h

/-! ## The state's queue -/

/-- The heap order of the state's queue (R137). -/
def State.QueueOrdered (s : State) : Prop := s.queue.Ordered s.heapFill

theorem heapOrdered_iff (s : State) : s.heapOrdered = true ↔ s.QueueOrdered := by
  simp only [State.heapOrdered, List.all_eq_true, List.mem_range, decide_eq_true_eq]
  exact ⟨fun h j h0 hj => (h j hj).resolve_left (by omega), fun h j hj => or_iff_not_imp_left.mpr fun h0 =>
    h j (Nat.pos_of_ne_zero h0) hj⟩

theorem State.heapFill_congr {s t : State} (hcfg : t.cfg = s.cfg) (hres : t.free.resets = s.free.resets) :
    t.heapFill = s.heapFill := by
  funext i
  rw [State.heapFill, State.heapFill, hcfg, hres]

theorem State.QueueOrdered.congr {s t : State} (h : s.QueueOrdered) (hcfg : t.cfg = s.cfg)
    (hres : t.free.resets = s.free.resets) (hq : t.queue = s.queue) : t.QueueOrdered := by
  rw [State.QueueOrdered, hq, State.heapFill_congr hcfg hres]
  exact h

theorem treeBuildBody_queueOrdered {s : State} (h : s.QueueOrdered) : (treeBuildBody s).state.QueueOrdered := by
  rcases treeBuildBody_cases s with ⟨_, e⟩ | ⟨_, _, _, rfl, rfl, e⟩ <;> rw [e]
  · exact h
  · exact pqExtractMin_ordered (Build.mergeAll_ordered _ (Build.leaves_ordered s))

theorem pqInsertBody_queueOrdered {s : State} (h : s.QueueOrdered) : (pqInsertBody s).state.QueueOrdered := by
  rcases pqInsertBody_cases s with ⟨_, e⟩ | ⟨_, _, rfl, e⟩ <;> rw [e]
  · exact h
  · exact pqInsert_ordered h _

theorem bodyOf_queueOrdered (i : Instr) {s : State} (h : s.QueueOrdered) : (bodyOf i s).state.QueueOrdered := by
  have hother : ∀ i, i ∉ [Instr.pqClear, .pqInsert, .pqExtractMin, .treeBuild, .compress] →
      ∀ t : State, t.QueueOrdered → (bodyOf i t).state.QueueOrdered := fun i hi t ht =>
    have hin := bodyOf_inputs i t
    ht.congr (congrArg Inputs.cfg hin) (congrArg Inputs.resets hin) (bodyOf_queue hi t)
  cases i with
  | nop => exact h
  | pqClear => exact Queue.ordered_of_le_one _ _ (by simp [bodyOf, pqClearBody, State.queue])
  | pqInsert => exact pqInsertBody_queueOrdered h
  | pqExtractMin => exact pqExtractMin_ordered h
  | treeBuild => exact treeBuildBody_queueOrdered h
  | freqCount => exact hother _ (by decide) s h
  | codeAssign => exact hother _ (by decide) s h
  | pack => exact hother _ (by decide) s h
  | compress =>
    exact compressBody_state (P := State.QueueOrdered) s h (fun t p ht => ht) (hother .freqCount (by decide))
      (fun t ht => treeBuildBody_queueOrdered ht) (hother .codeAssign (by decide)) (hother .pack (by decide))

/-- R137 as an invariant of every part of a step. -/
theorem kept_queueOrdered : Kept State.QueueOrdered where
  host s h hs := hs
  write s sp i v hs := by
    obtain ⟨hcfg, hres, -, -, hq, -⟩ := hostWrite_frame s sp i v rfl
    exact hs.congr hcfg hres hq
  rst s _ := Queue.ordered_of_le_one _ _ (by simp [State.queue, State.afterRst, State.resetOf])
  accept s p hs := hs
  finish s hs := hs
  illegal s hs := hs
  body i s hs := bodyOf_queueOrdered i hs

end Sys2Proof.Machine
end

section
/-! SUPPORT. Which words of HEAP, NODE, CLEN and CBITS the queue's procedures, TREE_BUILD and CODE_ASSIGN write: they
stay inside their spaces and every word fits (10_state.md R36 to R40, 20_memory.md R60). -/

namespace Sys2Proof.Machine

theorem fitsCnt_cntTrunc (c : Config) (v : Nat) : fitsCnt c (cntTrunc c v) = true :=
  decide_eq_true (cntTrunc_lt c v)

theorem fitsCnt_zero (c : Config) : fitsCnt c 0 = true := decide_eq_true (by positivity)

/-! ## HEAP -/

section
variable {c : Config} {fill : Nat → HeapEntry} {q : Queue}

/-- HEAP is in canonical form and its frequencies fit CNT_W bits. -/
def Queue.Fits (c : Config) (q : Queue) : Prop :=
  Mem.wf queueCap (fun e => fitsCnt c e.freq) none q.heap = true

section
variable (hfill : ∀ i, fitsCnt c (fill i).freq = true)
include hfill

theorem Queue.Fits.at (h : q.Fits c) (i : Nat) : fitsCnt c (q.at fill i).freq = true := by
  unfold Queue.at
  cases hf : Mem.find? q.heap i with
  | none => exact hfill i
  | some e =>
    obtain ⟨-, he, -⟩ := Mem.wf_find? h hf
    exact he

theorem Queue.Fits.swap (h : q.Fits c) {i j : Nat} (hi : i < queueCap) (hj : j < queueCap) :
    (q.swap fill i j).Fits c :=
  Mem.wf_put (Mem.wf_put h hi (h.at hfill j)) hj (h.at hfill i)

theorem Queue.Fits.siftUp (h : q.Fits c) (passes : Nat) {i : Nat} (hi : i < queueCap) :
    (Queue.siftUp fill passes q i).Fits c := by
  induction passes generalizing q i with
  | zero => exact h
  | succ n ih =>
    unfold Queue.siftUp
    split
    · exact h
    · dsimp only
      split
      · exact ih (h.swap hfill hi (by omega)) (by omega)
      · exact h

theorem Queue.Fits.siftDown (h : q.Fits c) (passes : Nat) {i : Nat} (hi : i < q.hsize.toNat)
    (hq : q.hsize.toNat ≤ queueCap) : (Queue.siftDown fill passes q i).Fits c := by
  induction passes generalizing q i with
  | zero => exact h
  | succ n ih =>
    unfold Queue.siftDown
    dsimp only
    split
    · exact h
    · rcases Queue.smallest_cases fill q i with hs | ⟨-, hm, -⟩
      · exact absurd hs ‹_›
      · exact ih (h.swap hfill (by omega) (by omega)) hm hq

theorem pqInsert_fits (h : q.Fits c) (hq : q.hsize.toNat < queueCap) {e : HeapEntry} (he : fitsCnt c e.freq = true) :
    (pqInsert fill q e).Fits c :=
  Queue.Fits.siftUp hfill (show Queue.Fits c ⟨Mem.put q.heap q.hsize.toNat e, _⟩ from Mem.wf_put h hq he) _ hq

theorem pqExtractMin_fits (h : q.Fits c) (hq : q.hsize.toNat ≤ queueCap) : (pqExtractMin fill q).2.Fits c := by
  by_cases h0 : q.hsize = 0
  · simpa only [pqExtractMin, if_pos h0] using h
  have hs := Queue.hsize_sub_one h0
  rcases pqExtractMin_queue_cases (fill := fill) h0 with ⟨_, e⟩ | ⟨h1, e⟩ <;> rw [e]
  · exact h
  · have hroot : (q.lastToRoot fill).Fits c := Mem.wf_put h (by decide) (h.at hfill _)
    have hn : 0 < (q.hsize - 1).toNat := Nat.pos_of_ne_zero fun h' => h1 (BitVec.eq_of_toNat_eq h')
    exact hroot.siftDown hfill _ hn (by show (q.hsize - 1).toNat ≤ queueCap; omega)

theorem pqExtractMin_entry_fits (h : q.Fits c) : fitsCnt c (pqExtractMin fill q).1.entry.freq = true := by
  rcases pqExtractMin_cases fill q with ⟨_, e⟩ | ⟨_, e, _⟩ <;> rw [e]
  · exact fitsCnt_zero c
  · exact h.at hfill 0

end

/-- The size after pq_extract_min from a queue that is not empty. -/
theorem pqExtractMin_hsize_toNat (h : q.hsize ≠ 0) :
    (pqExtractMin fill q).2.hsize.toNat + 1 = q.hsize.toNat := by
  rcases pqExtractMin_cases fill q with ⟨h0, _⟩ | ⟨_, _, e⟩
  · exact absurd h0 h
  · rw [e, Queue.hsize_sub_one h]

theorem pqExtractMin_hsize_le : (pqExtractMin fill q).2.hsize.toNat ≤ q.hsize.toNat := by
  by_cases h : q.hsize = 0
  · simp only [pqExtractMin, if_pos h, le_refl]
  · have := pqExtractMin_hsize_toNat (fill := fill) h
    omega

theorem Queue.hsize_ne_zero (h : 0 < q.hsize.toNat) : q.hsize ≠ 0 := fun h0 => by simp [h0] at h

end

/-- The size after pq_insert into a queue that is not full. -/
theorem pqInsert_hsize_toNat {fill : Nat → HeapEntry} {q : Queue} (e : HeapEntry) (h : q.hsize.toNat < 511) :
    (pqInsert fill q e).hsize.toNat = q.hsize.toNat + 1 := by
  rw [pqInsert_hsize, BitVec.toNat_add]
  show (q.hsize.toNat + 1) % 512 = _
  omega

/-! ## NODE -/

/-- TREE_BUILD's memories are in canonical form and their words fit. -/
structure Build.Fits (c : Config) (b : Build) : Prop where
  node : Mem.wf nodeCap (fun n => fitsCnt c n.freq) none b.node = true
  queue : b.queue.Fits c

/-- TREE_BUILD after the leaves of ORD[0..n−1]. -/
def Build.firstLeaves (s : State) (n : Nat) : Build :=
  (List.range n).foldl (Build.addLeaf s) { node := s.node, nn := s.nn, queue := { heap := s.heap, hsize := 0 } }

theorem Build.firstLeaves_succ (s : State) (n : Nat) :
    Build.firstLeaves s (n + 1) = (Build.firstLeaves s n).addLeaf s n := by
  simp [Build.firstLeaves, List.range_succ]

theorem Build.leaves_eq (s : State) : Build.leaves s = { Build.firstLeaves s s.k.toNat with nn := s.k } := rfl

theorem Build.firstLeaves_hsize (s : State) {n : Nat} (hn : n ≤ 511) :
    (Build.firstLeaves s n).queue.hsize.toNat = n := by
  induction n with
  | zero => rfl
  | succ n ih =>
    have ih := ih (by omega)
    rw [Build.firstLeaves_succ]
    exact (pqInsert_hsize_toNat _ (by omega)).trans (by rw [ih])

theorem Build.leaves_hsize (s : State) : (Build.leaves s).queue.hsize.toNat = s.k.toNat :=
  Build.firstLeaves_hsize s (Nat.le_of_lt_succ s.k.isLt)

/-- The sizes after a merge as numbers. -/
theorem Build.merge_sizes_toNat {c : Config} {fill : Nat → HeapEntry} {b : Build} (h : 1 < b.queue.hsize.toNat)
    (hnn : b.nn.toNat < 511) :
    (b.merge c fill).queue.hsize.toNat + 1 = b.queue.hsize.toNat ∧ (b.merge c fill).nn.toNat = b.nn.toNat + 1 := by
  obtain ⟨hq, hn⟩ := Build.merge_sizes c fill b h
  refine ⟨?_, ?_⟩
  · rw [hq]
    exact Queue.hsize_sub_one (Queue.hsize_ne_zero (by omega))
  · rw [hn, BitVec.toNat_add]
    show (b.nn.toNat + 1) % 512 = _
    omega

/-- Each merge takes an entry from the queue and adds a node, so NN plus the queue's size stays 2K. -/
structure Build.Sized (k : Nat) (b : Build) : Prop where
  sum : b.nn.toNat + b.queue.hsize.toNat = 2 * k
  hsize_le : b.queue.hsize.toNat ≤ k

theorem Build.leaves_sized (s : State) : (Build.leaves s).Sized s.k.toNat := by
  have hsize := Build.leaves_hsize s
  refine ⟨?_, hsize.le⟩
  show s.k.toNat + _ = _
  omega

/-- While two entries are left, NN is below the capacity of NODE. -/
theorem Build.Sized.nn_lt {k : Nat} {b : Build} (h : b.Sized k) (hk : k ≤ numSymbols)
    (hsize : 1 < b.queue.hsize.toNat) : b.nn.toNat < nodeCap := by
  have hsum := h.sum
  unfold numSymbols at hk
  unfold nodeCap
  omega

theorem Build.Sized.merge {k : Nat} {b : Build} (h : b.Sized k) (hk : k ≤ numSymbols) {c : Config}
    {fill : Nat → HeapEntry} (hsize : 1 < b.queue.hsize.toNat) : (b.merge c fill).Sized k := by
  obtain ⟨hq, hnn⟩ := Build.merge_sizes_toNat (c := c) (fill := fill) hsize (h.nn_lt hk hsize)
  have hsum := h.sum
  have hle := h.hsize_le
  exact ⟨by omega, by omega⟩

section
variable {s : State} (hfill : ∀ i, fitsCnt s.cfg (s.heapFill i).freq = true)
include hfill

theorem Build.firstLeaves_fits (hfreq : ∀ i, fitsCnt s.cfg (s.freqAt i) = true)
    (h : Build.Fits s.cfg ⟨s.node, s.nn, s.heap, 0⟩) {n : Nat} (hn : n ≤ numSymbols) :
    (Build.firstLeaves s n).Fits s.cfg := by
  have hcap : numSymbols < nodeCap := by decide
  induction n with
  | zero => exact h
  | succ n ih =>
    have hb := ih (by omega)
    have hsize := Build.firstLeaves_hsize s (n := n) (by unfold numSymbols at hn; omega)
    rw [Build.firstLeaves_succ]
    exact ⟨Mem.wf_put hb.node (by omega) (hfreq _),
      pqInsert_fits hfill hb.queue (by rw [hsize]; exact hn) (hfreq _)⟩

theorem Build.Fits.merge {b : Build} (h : b.Fits s.cfg) {k : Nat} (hb : b.Sized k) (hk : k ≤ numSymbols)
    (hsize : 1 < b.queue.hsize.toNat) : (b.merge s.cfg s.heapFill).Fits s.cfg := by
  have hnn := hb.nn_lt hk hsize
  have hq : b.queue.hsize.toNat ≤ queueCap := hb.hsize_le.trans hk
  have hx := pqExtractMin_fits hfill h.queue hq
  have hxs := pqExtractMin_hsize_toNat (fill := s.heapFill) (q := b.queue) (Queue.hsize_ne_zero (by omega))
  have hy := pqExtractMin_fits hfill hx (by omega)
  have hys := pqExtractMin_hsize_le (fill := s.heapFill) (q := (pqExtractMin s.heapFill b.queue).2)
  exact ⟨Mem.wf_put h.node hnn (fitsCnt_cntTrunc _ _), pqInsert_fits hfill hy (by omega) (fitsCnt_cntTrunc _ _)⟩

end

/-! ## CLEN and CBITS -/

theorem Mem.sorted_iff_pairwise {α : Type} (m : List (Nat × α)) :
    Mem.sorted m = true ↔ m.Pairwise fun a b => a.1 < b.1 := by
  induction m with
  | nil => simp [Mem.sorted]
  | cons e m ih => simp [Mem.sorted, ← ih]

/-- CODE_ASSIGN's memories are in canonical form. -/
structure Walk.Fits (w : Walk) : Prop where
  clen : Mem.wf numSymbols (fun _ => true) (some 0) w.clen = true
  cbits : Mem.wf numSymbols (fun _ => true) none w.cbits = true

theorem Walk.cleared_fits (stk : List StkEntry) : (Walk.cleared stk).Fits where
  clen := Mem.wf_nil
  cbits := by
    refine Mem.wf_iff.mpr ⟨(Mem.sorted_iff_pairwise _).mpr ?_, fun e he => ?_⟩
    · exact List.pairwise_map.mpr List.pairwise_lt_range
    · obtain ⟨i, hi, rfl⟩ := List.mem_map.mp he
      exact ⟨List.mem_range.mp hi, rfl, by simp⟩

theorem Walk.Fits.assign {w : Walk} (h : w.Fits) (sym len : Byte) (path : Path) : (w.assign sym len path).Fits where
  clen := storeClen_wf h.clen sym.isLt rfl
  cbits := Mem.wf_put h.cbits sym.isLt rfl

theorem Walk.Fits.visit {w : Walk} (h : w.Fits) (node : HuffNode) (e : StkEntry) : (Walk.visit node e w).Fits := by
  rcases Walk.visit_cases node e w with ⟨_, _, _, e⟩ | ⟨_, _, _, _, hl, hb, _⟩
  · exact e ▸ h.assign ..
  · exact ⟨hl ▸ h.clen, hb ▸ h.cbits⟩

theorem Walk.Fits.run {nodeAt : Nat → HuffNode} (pops : Nat) {w : Walk} (h : w.Fits) :
    (Walk.run nodeAt pops w).Fits := by
  induction pops generalizing w with
  | zero => exact h
  | succ n ih =>
    unfold Walk.run
    split
    · exact h
    · rename_i e rest _
      have hrest : ({ w with stk := rest } : Walk).Fits := ⟨h.clen, h.cbits⟩
      exact ih (hrest.visit _ _)

theorem Walk.table_fits (nodeAt : Nat → HuffNode) (root : NodeNo) : (Walk.table nodeAt root).Fits := by
  unfold Walk.table
  split
  · exact (Walk.cleared_fits _).assign ..
  · exact (Walk.cleared_fits _).run _

/-! ## FREQ and ORD -/

/-- FREQ_COUNT's memories are in canonical form and its counts fit. -/
structure FreqTable.Fits (c : Config) (t : FreqTable) : Prop where
  freq : Mem.wf numSymbols (fitsCnt c) (some 0) t.freq = true
  ord : Mem.wf numSymbols (fun _ => true) none t.ord = true

theorem FreqTable.Fits.count {c : Config} {t : FreqTable} {input : List Byte} (h : t.Fits c) (ht : t.Counted input)
    (b : Byte) : (t.count c b).Fits c := by
  refine ⟨?_, ?_⟩
  · unfold FreqTable.count
    split <;> exact storeFreq_wf h.freq b.isLt (fitsCnt_cntTrunc _ _)
  · rcases FreqTable.ord_count c t b with ⟨hzero, hord, -⟩ | ⟨-, hord, -⟩ <;> rw [hord]
    · exact Mem.wf_put h.ord (ht.k_lt (ht.freq_eq_zero.mp hzero)) rfl
    · exact h.ord

theorem FreqTable.Fits.foldl {c : Config} (rest : List Byte) {t : FreqTable} {input : List Byte} (h : t.Fits c)
    (ht : t.Counted input) (hfit : (input ++ rest).length < 2 ^ c.cntW) :
    (rest.foldl (FreqTable.count c) t).Fits c := by
  induction rest generalizing t input with
  | nil => exact h
  | cons b rest ih =>
    have hfit' : input.length + 1 < 2 ^ c.cntW := by simp at hfit; omega
    rw [List.append_cons] at hfit
    exact ih (h.count ht b) (ht.count b hfit') hfit

end Sys2Proof.Machine
end

section
/-! SUPPORT. PACK writes exactly the bytes it has counted (44_bit_packer.md R181), so it stays inside OBUF. -/

namespace Sys2Proof.Machine

/-! ## The number of bytes emitted -/

@[simp] theorem Packer.emitAll_wp (p : Packer) (xs : List Byte) : (p.emitAll xs).wp = p.wp + xs.length :=
  (Packer.emitAll_eq p xs).1

/-- The header loop emits what the sizing loop counts, pair by pair, with the same flag. -/
theorem Packer.emitPair_sizePair {code : Byte → List Bool} {p : Bool × Packer} {h : Bool × Nat} {w : Nat}
    (hflag : p.1 = h.1) (hwp : p.2.wp = w + h.2) (sym : Byte) :
    (Packer.emitPair code p sym).1 = (sizePair (fun b => (code b).length) h sym).1 ∧
      (Packer.emitPair code p sym).2.wp = w + (sizePair (fun b => (code b).length) h sym).2 := by
  unfold Packer.emitPair sizePair
  split
  · exact ⟨hflag, hwp⟩
  · refine ⟨rfl, ?_⟩
    rw [hflag]
    cases h.1 <;> simp [hwp] <;> omega

theorem Packer.header_wp (code : Byte → List Bool) (p0 : Packer) :
    (allSymbols.foldl (Packer.emitPair code) (true, p0)).2.wp =
      p0.wp + headerLength fun b => (code b).length := by
  have hfold : ∀ (syms : List Byte) (p : Bool × Packer) (h : Bool × Nat), p.1 = h.1 → p.2.wp = p0.wp + h.2 →
      (syms.foldl (Packer.emitPair code) p).2.wp =
        p0.wp + (syms.foldl (sizePair fun b => (code b).length) h).2 := fun syms => by
    induction syms with
    | nil => exact fun p h _ hwp => hwp
    | cons sym syms ih =>
      intro p h hflag hwp
      obtain ⟨hflag', hwp'⟩ := Packer.emitPair_sizePair hflag hwp sym
      exact ih _ _ hflag' hwp'
  exact hfold allSymbols (true, p0) (true, 0) rfl rfl

/-- `p` has taken `n` bits since WP was `w`: ACCN counts the bits of the byte begun (R184). -/
def Packer.Took (p : Packer) (w n : Nat) : Prop := p.accn < 8 ∧ 8 * p.wp + p.accn = 8 * w + n

theorem Packer.Took.shiftBit {p : Packer} {w n : Nat} (h : p.Took w n) (bit : Bool) :
    (p.shiftBit bit).Took w (n + 1) := by
  obtain ⟨hlt, hsum⟩ := h
  unfold Packer.shiftBit
  dsimp only
  split
  · exact ⟨by simp, by simp; omega⟩
  · exact ⟨by show p.accn + 1 < 8; omega, by show 8 * p.wp + (p.accn + 1) = _; omega⟩

theorem Packer.Took.bits (bits : List Bool) {p : Packer} {w n : Nat} (h : p.Took w n) :
    (bits.foldl Packer.shiftBit p).Took w (n + bits.length) := by
  induction bits generalizing p n with
  | nil => exact h
  | cons b bits ih =>
    rw [List.length_cons, Nat.add_comm bits.length, ← Nat.add_assoc]
    exact ih (h.shiftBit b)

theorem Packer.Took.codes (code : Byte → List Bool) (input : List Byte) {p : Packer} {w n : Nat} (h : p.Took w n) :
    (input.foldl (fun p b => (code b).foldl Packer.shiftBit p) p).Took w
      (n + totalBits (fun b => (code b).length) input) := by
  rw [totalBits_eq]
  induction input generalizing p n with
  | nil => exact h
  | cons b input ih =>
    rw [List.map_cons, List.sum_cons, ← Nat.add_assoc]
    exact ih (h.bits (code b))

/-- A byte begun is completed with padding (R185). -/
theorem Packer.Took.flush_wp {p : Packer} {w n : Nat} (h : p.Took w n) : p.flush.wp = w + payloadLength n := by
  obtain ⟨hlt, hsum⟩ := h
  rw [payloadLength_eq]
  unfold Packer.flush
  split
  · omega
  · rw [Packer.emit_wp]
    omega

/-- Pass 2 emits TOTAL bytes (R181, R188). -/
theorem Packer.run_wp (code : Byte → List Bool) (input : List Byte) (obuf : List Host.Cell) (h : Nat)
    (hh : h = headerLength fun b => (code b).length) :
    (Packer.run code h input obuf).wp = containerLength h (totalBits (fun b => (code b).length) input) := by
  unfold Packer.run
  dsimp only
  have hstart : ∀ p : Packer, Packer.Took { p with acc := 0, accn := 0 } p.wp 0 := fun p => ⟨Nat.succ_pos 7, rfl⟩
  rw [((hstart _).codes code input).flush_wp, Packer.header_wp, Packer.emit_wp, Packer.emitAll_wp, containerLength,
    ← hh]
  simp only [Nat.zero_add]

/-! ## The words emitted -/

/-- As long as WP has not passed `cap`, every word written is below it. -/
def Packer.Within (cap : Nat) (p : Packer) : Prop := p.wp ≤ cap → Mem.wf cap (fun _ => true) none p.obuf = true

section
variable {cap : Nat} {p : Packer} (h : p.Within cap)
include h

theorem Packer.Within.emit (x : Byte) : (p.emit x).Within cap := fun hle =>
  Mem.wf_put (h (Nat.le_of_succ_le hle)) hle rfl

theorem Packer.Within.emitAll (xs : List Byte) : (p.emitAll xs).Within cap :=
  List.foldlRecOn xs _ h fun _ hp x _ => hp.emit x

theorem Packer.Within.shiftBit (bit : Bool) : (p.shiftBit bit).Within cap := by
  unfold Packer.shiftBit
  dsimp only
  split
  · exact h.emit _
  · exact h

theorem Packer.Within.flush : p.flush.Within cap := by
  unfold Packer.flush
  split
  · exact h
  · exact h.emit _

end

theorem Packer.Within.emitPair {cap : Nat} {code : Byte → List Bool} {acc : Bool × Packer} (h : acc.2.Within cap)
    (sym : Byte) : (Packer.emitPair code acc sym).2.Within cap := by
  unfold Packer.emitPair
  split
  · exact h
  · have hcomma : (if acc.1 then acc.2 else acc.2.emit asciiComma).Within cap := by
      split
      · exact h
      · exact h.emit _
    exact ((hcomma.emitAll _).emit _).emitAll _

theorem Packer.Within.header {cap : Nat} {p : Packer} (h : p.Within cap) (code : Byte → List Bool) :
    (allSymbols.foldl (Packer.emitPair code) (true, p)).2.Within cap :=
  List.foldlRecOn (motive := fun acc : Bool × Packer => acc.2.Within cap) allSymbols _ h
    fun _ hacc sym _ => hacc.emitPair sym

theorem Packer.Within.payload {cap : Nat} {p : Packer} (h : p.Within cap) (code : Byte → List Bool)
    (input : List Byte) : (input.foldl (fun p b => (code b).foldl Packer.shiftBit p) p).Within cap :=
  List.foldlRecOn input _ h fun _ hp b _ => List.foldlRecOn (code b) _ hp fun _ hp bit _ => hp.shiftBit bit

theorem Packer.run_within {cap : Nat} {obuf : List Host.Cell} (h : Mem.wf cap (fun _ => true) none obuf = true)
    (code : Byte → List Bool) (n : Nat) (input : List Byte) : (Packer.run code n input obuf).Within cap := by
  have h0 : Packer.Within cap { obuf := obuf, wp := 0, acc := 0, accn := 0 } := fun _ => h
  have hheader := ((h0.emitAll (dec n)).emit asciiSemicolon).header code
  exact (Packer.Within.payload (p := { (allSymbols.foldl (Packer.emitPair code) _).2 with acc := 0, accn := 0 }) hheader
    code input).flush

/-- What PACK leaves in OBUF and the two lengths stays inside OBUF when the container fits. -/
theorem pack_fits {s : State} (hobuf : Mem.wf s.cfg.obufCap (fun _ => true) none s.obuf = true) {h t : Nat}
    (hh : h = headerLength s.codeLen) (ht : t = totalBits s.codeLen s.input)
    (hle : containerLength h t ≤ s.cfg.obufCap) {p : Packer} (hp : p = Packer.run s.code h s.input s.obuf) :
    Mem.wf s.cfg.obufCap (fun _ => true) none p.obuf = true ∧ outTrunc s.cfg (payloadLength t) ≤ s.cfg.obufCap ∧
      outTrunc s.cfg p.wp ≤ s.cfg.obufCap := by
  have hlen : (fun b => (s.code b).length) = s.codeLen := funext fun b => by simp [State.code]
  have hwp : p.wp ≤ s.cfg.obufCap := by
    rw [hp, Packer.run_wp _ _ _ _ (hlen ▸ hh), hlen, ← ht]
    exact hle
  have hpay : payloadLength t ≤ containerLength h t := by unfold containerLength; omega
  exact ⟨(hp ▸ Packer.run_within hobuf s.code h s.input) hwp, (Nat.mod_le _ _).trans (hpay.trans hle),
    (Nat.mod_le _ _).trans hwp⟩

end Sys2Proof.Machine
end

section
/-! SUPPORT. The well-formed state (10_state.md R26, R30, 20_memory.md R60, R64, 44_bit_packer.md R187): State.wf but
for the idle block, kept by every part of a step; and every command ends idle. -/

namespace Sys2Proof.Machine

/-- Legal parameters, registers and words of their widths, memories in canonical form inside their spaces, K ≤ 256 and
HSIZE ≤ 256. -/
structure State.Fits (s : State) : Prop where
  cfg : s.cfg.wf = true
  len : fitsCnt s.cfg s.len = true
  argFreq : fitsCnt s.cfg s.argFreq = true
  resFreq : fitsCnt s.cfg s.resFreq = true
  errIdx : fitsCnt s.cfg s.errIdx = true
  payLen : s.payLen ≤ s.cfg.obufCap
  outLen : s.outLen ≤ s.cfg.obufCap
  ibuf : Mem.wf s.cfg.ibufCap (fun _ => true) none s.ibuf = true
  obuf : Mem.wf s.cfg.obufCap (fun _ => true) none s.obuf = true
  freq : Mem.wf numSymbols (fitsCnt s.cfg) (some 0) s.freq = true
  ord : Mem.wf numSymbols (fun _ => true) none s.ord = true
  node : Mem.wf nodeCap (fun n => fitsCnt s.cfg n.freq) none s.node = true
  heap : s.queue.Fits s.cfg
  clen : Mem.wf numSymbols (fun _ => true) (some 0) s.clen = true
  cbits : Mem.wf numSymbols (fun _ => true) none s.cbits = true
  k : s.k.toNat ≤ numSymbols
  hsize : s.hsize.toNat ≤ queueCap

theorem wf_iff (s : State) : s.wf = true ↔ s.idle = true ∧ s.Fits := by
  simp only [State.wf, State.regsFit, State.memsOk, Bool.and_eq_true, decide_eq_true_eq]
  constructor
  · rintro ⟨⟨⟨⟨⟨hc, hi⟩, ⟨⟨⟨⟨⟨h1, h2⟩, h3⟩, h4⟩, h5⟩, h6⟩⟩, ⟨⟨⟨⟨⟨⟨⟨m1, m2⟩, m3⟩, m4⟩, m5⟩, m6⟩, m7⟩, m8⟩⟩, hk⟩, hh⟩
    exact ⟨hi, ⟨hc, h1, h2, h3, h4, h5, h6, m1, m2, m3, m4, m5, m6, m7, m8, hk, hh⟩⟩
  · rintro ⟨hi, h⟩
    exact ⟨⟨⟨⟨⟨h.cfg, hi⟩, ⟨⟨⟨⟨⟨h.len, h.argFreq⟩, h.resFreq⟩, h.errIdx⟩, h.payLen⟩, h.outLen⟩⟩,
      ⟨⟨⟨⟨⟨⟨⟨h.ibuf, h.obuf⟩, h.freq⟩, h.ord⟩, h.node⟩, h.heap⟩, h.clen⟩, h.cbits⟩⟩, h.k⟩, h.hsize⟩

theorem heapFill_fits (s : State) (i : Nat) : fitsCnt s.cfg (s.heapFill i).freq = true :=
  fitsCnt_cntTrunc s.cfg _

theorem State.Fits.freqAt {s : State} (h : s.Fits) (i : Nat) : fitsCnt s.cfg (s.freqAt i) = true := by
  rw [State.freqAt, freqWord_eq]
  cases hf : Mem.find? s.freq i with
  | none => exact fitsCnt_zero _
  | some v =>
    obtain ⟨-, hv, -⟩ := Mem.wf_find? h.freq hf
    exact hv

theorem resetOf_fits {c : Config} (hc : c.wf = true) (resets epoch : Nat) (host : HostPort) :
    (State.resetOf c resets epoch host).Fits where
  cfg := hc
  len := fitsCnt_zero c
  argFreq := fitsCnt_zero c
  resFreq := fitsCnt_zero c
  errIdx := fitsCnt_zero c
  payLen := Nat.zero_le _
  outLen := Nat.zero_le _
  ibuf := Mem.wf_nil
  obuf := Mem.wf_nil
  freq := Mem.wf_nil
  ord := Mem.wf_nil
  node := Mem.wf_nil
  heap := Mem.wf_nil
  clen := Mem.wf_nil
  cbits := Mem.wf_nil
  k := Nat.zero_le _
  hsize := Nat.zero_le _

section
variable {s : State} (h : s.Fits)
include h

/-! ## The parts of a step -/

theorem State.Fits.raise (e : ErrCode) (sym : Byte) (idx : Nat) : (s.raise e sym idx).Fits :=
  { h with errIdx := fitsCnt_cntTrunc s.cfg idx }

theorem State.Fits.accept (p : Phase) : (s.accept p).Fits := { h with errIdx := fitsCnt_zero s.cfg }

theorem State.Fits.clearResults : s.clearResults.Fits := { h with payLen := Nat.zero_le _, outLen := Nat.zero_le _ }

theorem hostWrite_fits (sp i v : Nat) : (s.hostWrite sp i v).Fits := by
  rcases hostWrite_cases s sp i v with e | ⟨_, _, e⟩ | ⟨_, _, e⟩ | ⟨_, _, e⟩ | ⟨_, hi, e⟩ | ⟨_, hi, e⟩ | ⟨_, hi, e⟩ <;>
    rw [e]
  · exact h
  · exact { h with len := fitsCnt_cntTrunc s.cfg v }
  · exact { h with argFreq := fitsCnt_cntTrunc s.cfg v }
  · exact { h with }
  · exact { h with ibuf := Mem.wf_put h.ibuf hi rfl }
  · exact { h with clen := storeClen_wf h.clen hi rfl }
  · exact { h with cbits := Mem.wf_put h.cbits hi rfl }

theorem freqCountBody_fits : (freqCountBody s).state.Fits := by
  rcases freqCountBody_cases s with ⟨_, e⟩ | ⟨hlen, t, ht, e⟩ <;> rw [e]
  · exact h.raise ..
  · obtain ⟨-, -, hcap, -⟩ := (configWf_iff _).mp h.cfg
    have hcount : t.Counted s.input := ht ▸ counted_input h.cfg hlen
    have hcleared : (FreqTable.cleared s.ord).Fits s.cfg := ⟨Mem.wf_nil, h.ord⟩
    have hfits : t.Fits s.cfg :=
      ht ▸ hcleared.foldl s.input (FreqTable.counted_cleared s.ord) (by simp; omega)
    exact { h with
      freq := hfits.freq
      ord := hfits.ord
      k := hcount.k.trans_le (length_le_numSymbols (firstSeen_nodup _)) }

theorem treeBuildBody_fits : (treeBuildBody s).state.Fits := by
  rcases treeBuildBody_cases s with ⟨_, e⟩ | ⟨_, b, x, hb, hx, e⟩ <;> rw [e]
  · exact State.Fits.raise (s := s.setTreeValid false) { h with } ..
  · have hfill := heapFill_fits s
    have hleaves : (Build.leaves s).Fits s.cfg :=
      have hf := Build.firstLeaves_fits hfill h.freqAt ⟨h.node, h.heap⟩ h.k
      ⟨hf.node, hf.queue⟩
    obtain ⟨hfits, hsized⟩ : b.Fits s.cfg ∧ b.Sized s.k.toNat :=
      hb ▸ Build.mergeAll_induction (P := fun b => b.Fits s.cfg ∧ b.Sized s.k.toNat)
        (fun b ⟨hf, hz⟩ hsize => ⟨hf.merge hfill hz h.k hsize, hz.merge h.k hsize⟩) s.k.toNat
        ⟨hleaves, Build.leaves_sized s⟩
    have hq : b.queue.hsize.toNat ≤ queueCap := hsized.hsize_le.trans h.k
    exact { h with
      node := hfits.node
      heap := hx ▸ pqExtractMin_fits hfill hfits.queue hq
      hsize := hx ▸ pqExtractMin_hsize_le.trans hq
      resFreq := hx ▸ pqExtractMin_entry_fits hfill hfits.queue }

theorem codeAssignBody_fits : (codeAssignBody s).state.Fits := by
  rcases codeAssignBody_cases s with ⟨_, e⟩ | ⟨_, e⟩ <;> rw [e]
  · exact h.raise ..
  · have hw := Walk.table_fits s.nodeAt s.root
    exact { h with clen := hw.clen, cbits := hw.cbits }

theorem packBody_fits : (packBody s).state.Fits := by
  rcases packBody_cases s with ⟨_, e⟩ | ⟨_, _, e⟩ | ⟨_, _, _, _, _, e⟩ |
    ⟨_, _, _, t, n, ht, hn, ⟨_, e⟩ | ⟨hle, p, hp, e⟩⟩ <;> rw [e]
  · exact h.clearResults.raise ..
  · exact h.clearResults.raise ..
  · exact h.clearResults.raise ..
  · exact h.clearResults.raise ..
  · obtain ⟨hobuf, hpay, hout⟩ := pack_fits h.obuf hn ht hle hp
    exact { h with obuf := hobuf, payLen := hpay, outLen := hout }

theorem pqInsertBody_fits : (pqInsertBody s).state.Fits := by
  rcases pqInsertBody_cases s with ⟨_, e⟩ | ⟨hne, q, hq, e⟩ <;> rw [e]
  · exact h.raise ..
  · have hlt : s.queue.hsize.toNat < queueCap := lt_of_le_of_ne h.hsize hne
    have hsize : q.hsize.toNat = s.queue.hsize.toNat + 1 := hq ▸ pqInsert_hsize_toNat _ (hlt.trans (by decide))
    exact { h with
      heap := hq ▸ pqInsert_fits (heapFill_fits s) h.heap hlt h.argFreq
      hsize := hsize.trans_le hlt }

theorem pqExtractMinBody_fits : (pqExtractMinBody s).state.Fits :=
  { h with
    heap := pqExtractMin_fits (heapFill_fits s) h.heap h.hsize
    hsize := pqExtractMin_hsize_le.trans h.hsize
    resFreq := pqExtractMin_entry_fits (heapFill_fits s) h.heap }

theorem bodyOf_fits (i : Instr) : (bodyOf i s).state.Fits := by
  cases i with
  | nop => exact h
  | freqCount => exact freqCountBody_fits h
  | treeBuild => exact treeBuildBody_fits h
  | codeAssign => exact codeAssignBody_fits h
  | pack => exact packBody_fits h
  | pqClear => exact { h with hsize := Nat.zero_le _ }
  | pqInsert => exact pqInsertBody_fits h
  | pqExtractMin => exact pqExtractMinBody_fits h
  | compress =>
    exact compressBody_state (P := State.Fits) s { h.clearResults with } (fun t p ht => { ht with })
      (fun t ht => freqCountBody_fits ht) (fun t ht => treeBuildBody_fits ht) (fun t ht => codeAssignBody_fits ht)
      (fun t ht => packBody_fits ht)

end

theorem kept_fits : Kept State.Fits where
  host _ _ h := { h with }
  write _ sp i v h := hostWrite_fits h sp i v
  rst _ h := resetOf_fits h.cfg ..
  accept _ p h := h.accept p
  finish _ h := { h with }
  illegal _ h := h.raise ..
  body i _ h := bodyOf_fits h i

/-! ## The idle block -/

/-- A command leaves the block idle (45_compress.md R200). -/
theorem exec_idle {i : Instr} {s t : State} (hexec : exec i s = .next t) : t.idle = true := by
  rw [exec_next_iff.mp hexec]
  have hclosed := bodyOf_closed i (s.accept (phaseOf i))
  cases hr : bodyOf i (s.accept (phaseOf i)) with
  | finished t => rfl
  | raised t =>
    rw [hr] at hclosed
    obtain ⟨_, _, _, _, rfl⟩ := hclosed
    rfl

theorem step_keeps_idle {s t : State} (hs : s.idle = true) (hstep : step s = .next t) : t.idle = true := by
  rcases step_next hstep with ⟨_, _, rfl⟩ | ⟨_, _, es, _, rfl⟩ | ⟨sp, i, v, es, _, _, _, rfl⟩ |
    ⟨_, es, _, _, _, _, hexec⟩ | ⟨_, es, _, _, _, rfl⟩ | ⟨_, es, _, _, rfl⟩
  · exact hs
  · exact hs
  · obtain ⟨-, -, -, -, -, hstatus⟩ := hostWrite_frame (s.withPending es) sp i v rfl
    rw [State.idle, hstatus]
    exact hs
  · exact exec_idle hexec
  · rfl
  · rfl

theorem step_keeps_wf {s t : State} (hs : s.wf = true) (hstep : step s = .next t) : t.wf = true := by
  obtain ⟨hidle, hfits⟩ := (wf_iff s).mp hs
  exact (wf_iff t).mpr ⟨step_keeps_idle hidle hstep, kept_fits.step hfits hstep⟩

/-- Settles O15: every part of a step keeps the fitting state, and every command ends idle. -/
theorem stepKeepsWellFormed : Obligations.StepKeepsWellFormed := fun _ _ => step_keeps_wf

end Sys2Proof.Machine
end

section
/-! SUPPORT. TREE_BUILD keeps a forest in NODE and its roots in the queue, and each merge joins two trees of least
frequency, so that one Huffman tree is left (42_tree_builder.md R153 to R155, 10_state.md R37). -/

namespace Sys2Proof.Machine

/-! ## A tree in NODE -/

/-- The number of a tree's root. -/
def HTree.num : HTree → Nat
  | .leaf n _ _ => n
  | .node n _ _ _ => n

/-- The queue's entry of a tree (42_tree_builder.md R153). -/
def HTree.entry (t : HTree) : HeapEntry := { freq := t.freq, node := BitVec.ofNat 9 t.num }

/-- The tree is listed in NODE, each child's number smaller than its parent's (10_state.md R37). -/
def HTree.StandsIn (node : List (Nat × HuffNode)) : HTree → Prop
  | .leaf n sym f => Mem.find? node n = some (.leaf sym f)
  | .node n f l r =>
    Mem.find? node n = some (.internal f (BitVec.ofNat 9 l.num) (BitVec.ofNat 9 r.num)) ∧ l.num < n ∧ r.num < n ∧
      l.StandsIn node ∧ r.StandsIn node

theorem HTree.num_mem_nums (t : HTree) : t.num ∈ t.nums := by cases t <;> simp [HTree.num, HTree.nums]

section
variable {node : List (Nat × HuffNode)} {t : HTree}

/-- A write to a node outside the tree leaves it standing. -/
theorem HTree.StandsIn.put (h : t.StandsIn node) {n : Nat} (hn : n ∉ t.nums) (v : HuffNode) :
    t.StandsIn (Mem.put node n v) := by
  induction t with
  | leaf m sym f =>
    have hm : m ≠ n := fun e => hn (by simp [HTree.nums, e])
    exact (Mem.find?_put_of_ne _ _ hm).trans h
  | node m f l r ihl ihr =>
    simp only [HTree.nums, List.mem_cons, List.mem_append, not_or] at hn
    obtain ⟨hm, hl, hr⟩ := hn
    obtain ⟨hfind, hln, hrn, hls, hrs⟩ := h
    exact ⟨(Mem.find?_put_of_ne _ _ (Ne.symm hm)).trans hfind, hln, hrn, ihl hls hl, ihr hrs hr⟩

/-- The root has the greatest number. -/
theorem HTree.StandsIn.le_num (h : t.StandsIn node) {m : Nat} (hm : m ∈ t.nums) : m ≤ t.num := by
  induction t with
  | leaf n sym f => exact (List.mem_singleton.mp hm).le
  | node n f l r ihl ihr =>
    obtain ⟨-, hln, hrn, hls, hrs⟩ := h
    rcases List.mem_cons.mp hm with rfl | hm
    · exact le_rfl
    rcases List.mem_append.mp hm with hm | hm
    · exact (ihl hls hm).trans hln.le
    · exact (ihr hrs hm).trans hrn.le

/-- A tree standing in NODE is the one below its root. -/
theorem HTree.StandsIn.treeBelow_eq {nodeAt : Nat → HuffNode} (h : t.StandsIn node)
    (hnode : ∀ n v, Mem.find? node n = some v → nodeAt n = v) {depth : Nat} (hd : t.num < depth) (ht : t.num < 512) :
    treeBelow nodeAt depth t.num = some t := by
  induction t generalizing depth with
  | leaf n sym f =>
    obtain ⟨d, rfl⟩ := Nat.exists_eq_succ_of_ne_zero (Nat.ne_zero_of_lt hd)
    simp only [treeBelow, HTree.num, hnode n _ h]
  | node n f l r ihl ihr =>
    obtain ⟨hfind, hln, hrn, hls, hrs⟩ := h
    obtain ⟨d, rfl⟩ := Nat.exists_eq_succ_of_ne_zero (Nat.ne_zero_of_lt hd)
    have hn : n < 512 := ht
    have hnd : n < d + 1 := hd
    have hl : (BitVec.ofNat 9 l.num).toNat = l.num := Nat.mod_eq_of_lt (show l.num < 512 by omega)
    have hr : (BitVec.ofNat 9 r.num).toNat = r.num := Nat.mod_eq_of_lt (show r.num < 512 by omega)
    show treeBelow nodeAt (d + 1) n = _
    simp only [treeBelow, hnode n _ hfind, hl, hr, hln, hrn, and_self, if_true,
      ihl hls (depth := d) (by omega) (by omega), ihr hrs (depth := d) (by omega) (by omega)]

end

/-! ## The forest -/

/-- While a tree is built from the table of `s`: the trees of `F` stand in NODE and use each node below NN once, their
roots are the queue's contents, their leaves are the table's entries, and their frequencies add up. -/
structure Build.Forest (s : State) (b : Build) (F : List HTree) : Prop where
  entries : (b.queue.toList s.heapFill).Perm (F.map HTree.entry)
  ordered : b.queue.Ordered s.heapFill
  stands : ∀ t ∈ F, t.StandsIn b.node
  nums : (F.flatMap HTree.nums).Perm (List.range b.nn.toNat)
  leaves : (F.flatMap HTree.leaves).Perm ((List.range s.k.toNat).map fun j => (j, s.ordAt j))
  freqsOk : ∀ t ∈ F, t.freqsOk = true
  total : (F.map HTree.freq).sum = s.totalCount

theorem Build.Forest.perm {s : State} {b : Build} {F G : List HTree} (h : b.Forest s F) (hp : F.Perm G) :
    b.Forest s G where
  entries := h.entries.trans (hp.map _)
  ordered := h.ordered
  stands t ht := h.stands t (hp.mem_iff.mpr ht)
  nums := (hp.flatMap_right _).symm.trans h.nums
  leaves := (hp.flatMap_right _).symm.trans h.leaves
  freqsOk t ht := h.freqsOk t (hp.mem_iff.mpr ht)
  total := ((hp.map HTree.freq).sum_eq).symm.trans h.total

/-- The tree of the entry that is taken out of the contents. -/
theorem exists_tree_of_perm {F : List HTree} {e : HeapEntry} {es : List HeapEntry}
    (h : (F.map HTree.entry).Perm (e :: es)) :
    ∃ t G, F.Perm (t :: G) ∧ t.entry = e ∧ (G.map HTree.entry).Perm es := by
  obtain ⟨t, ht, rfl⟩ := List.mem_map.mp (h.mem_iff.mpr List.mem_cons_self)
  have hp := List.perm_cons_erase ht
  exact ⟨t, F.erase t, hp, rfl, ((hp.map HTree.entry).symm.trans h).cons_inv⟩

/-! ## The leaves -/

/-- The leaf of ORD[j] (42_tree_builder.md R151). -/
def State.leafOf (s : State) (j : Nat) : HTree := .leaf j (s.ordAt j) (s.freqAt (s.ordAt j).toNat)

theorem Build.firstLeaves_entries (s : State) {n : Nat} (hn : n ≤ 511) :
    ((Build.firstLeaves s n).queue.toList s.heapFill).Perm ((List.range n).map fun j => (s.leafOf j).entry) := by
  induction n with
  | zero => exact List.Perm.refl _
  | succ n ih =>
    have hsize := Build.firstLeaves_hsize s (n := n) (by omega)
    rw [Build.firstLeaves_succ, List.range_succ, List.map_append]
    exact (pqInsert_perm _ _ _ (by omega)).trans
      ((List.Perm.cons _ (ih (by omega))).trans (List.perm_append_singleton _ _).symm)

theorem Build.firstLeaves_stand (s : State) (n : Nat) :
    ∀ j < n, (s.leafOf j).StandsIn (Build.firstLeaves s n).node := by
  induction n with
  | zero => exact fun j hj => absurd hj (Nat.not_lt_zero j)
  | succ n ih =>
    intro j hj
    rw [Build.firstLeaves_succ]
    rcases Nat.lt_succ_iff_lt_or_eq.mp hj with hlt | rfl
    · exact (ih j hlt).put (by simp [State.leafOf, HTree.nums]; omega) _
    · exact Mem.find?_put_self ..

/-- The counts of the table's symbols sum to the sum of all counts. -/
theorem State.TableSound.sum_tableSymbols {s : State} (h : s.TableSound) :
    (s.tableSymbols.map fun b => s.freqAt b.toNat).sum = s.totalCount := by
  have hperm : s.tableSymbols.Perm (allSymbols.filter fun b => s.freqAt b.toNat ≠ 0) :=
    (List.perm_ext_iff_of_nodup h.nodup (allSymbols_nodup.filter _)).mpr fun b => by
      simp [← h.mem b, mem_allSymbols]
  rw [(hperm.map _).sum_eq, State.totalCount]
  induction allSymbols with
  | nil => rfl
  | cons b l ih =>
    by_cases hb : s.freqAt b.toNat = 0 <;> simpa [hb] using ih

theorem State.TableSound.k_le {s : State} (h : s.TableSound) : s.k.toNat ≤ numSymbols := by
  simpa [State.tableSymbols] using length_le_numSymbols h.nodup

/-- After step 1 every tree is a leaf. -/
theorem Build.leaves_forest {s : State} (h : s.TableSound) :
    (Build.leaves s).Forest s ((List.range s.k.toNat).map s.leafOf) where
  entries := by
    rw [List.map_map]
    exact Build.firstLeaves_entries s (Nat.le_of_lt_succ s.k.isLt)
  ordered := Build.leaves_ordered s
  stands t ht := by
    obtain ⟨j, hj, rfl⟩ := List.mem_map.mp ht
    exact Build.firstLeaves_stand s _ j (List.mem_range.mp hj)
  nums := by
    simp [List.flatMap_map, State.leafOf, HTree.nums, Build.leaves_eq]
  leaves := by
    rw [List.flatMap_map, List.map_eq_flatMap]
    exact List.Perm.refl _
  freqsOk t ht := by
    obtain ⟨j, hj, rfl⟩ := List.mem_map.mp ht
    rfl
  total := by
    rw [← h.sum_tableSymbols, State.tableSymbols, List.map_map, List.map_map]
    rfl

/-! ## A merge -/

theorem Queue.Ordered.root_le_mem {fill : Nat → HeapEntry} {q : Queue} (h : q.Ordered fill) {e : HeapEntry}
    (he : e ∈ q.toList fill) : (q.at fill 0).freq ≤ e.freq := by
  obtain ⟨j, hj, rfl⟩ := List.mem_map.mp he
  exact h.root_le j (List.mem_range.mp hj)

/-- The entry extracted from a queue that is not empty, and what is left of the contents. -/
theorem pqExtractMin_entry {fill : Nat → HeapEntry} {q : Queue} (h : q.hsize ≠ 0) :
    (q.toList fill).Perm ((pqExtractMin fill q).1.entry :: (pqExtractMin fill q).2.toList fill) := by
  rcases pqExtractMin_cases fill q with ⟨h0, _⟩ | ⟨_, he, _⟩
  · exact absurd h0 h
  · rw [he]
    exact pqExtractMin_perm h

/-- No entry left is smaller than the one extracted. -/
theorem pqExtractMin_entry_le {fill : Nat → HeapEntry} {q : Queue} (h : q.hsize ≠ 0) (ho : q.Ordered fill)
    {e : HeapEntry} (he : e ∈ (pqExtractMin fill q).2.toList fill) : (pqExtractMin fill q).1.entry.freq ≤ e.freq := by
  have hmem := (pqExtractMin_perm (fill := fill) h).mem_iff.mpr (List.mem_cons_of_mem _ he)
  rcases pqExtractMin_cases fill q with ⟨h0, _⟩ | ⟨_, hx, _⟩
  · exact absurd h0 h
  · rw [hx]
    exact ho.root_le_mem hmem

/-- The tree of two, numbered NN (42_tree_builder.md R153). -/
def Build.joined (b : Build) (tx ty : HTree) : HTree := .node b.nn.toNat (tx.freq + ty.freq) tx ty

/-- Node NN is written as the parent of two trees and its entry put into `q`, the queue without their entries. -/
def Build.join (fill : Nat → HeapEntry) (b : Build) (q : Queue) (tx ty : HTree) : Build where
  node := Mem.put b.node b.nn.toNat
    (.internal (tx.freq + ty.freq) (BitVec.ofNat 9 tx.num) (BitVec.ofNat 9 ty.num))
  nn := b.nn + 1
  queue := pqInsert fill q (b.joined tx ty).entry

/-- A merge that takes the entries of two trees out of the queue joins the trees. -/
theorem Build.merge_eq {c : Config} {fill : Nat → HeapEntry} {b : Build} {tx ty : HTree}
    (hx : tx.entry = (pqExtractMin fill b.queue).1.entry)
    (hy : ty.entry = (pqExtractMin fill (pqExtractMin fill b.queue).2).1.entry)
    (hfit : tx.freq + ty.freq < 2 ^ c.cntW) :
    b.merge c fill = b.join fill (pqExtractMin fill (pqExtractMin fill b.queue).2).2 tx ty := by
  have hentry : (b.joined tx ty).entry = { freq := tx.freq + ty.freq, node := b.nn } := by
    simp [HTree.entry, Build.joined, HTree.num, HTree.freq]
  unfold Build.merge Build.join
  dsimp only
  rw [← hx, ← hy, hentry]
  simp only [HTree.entry, cntTrunc_of_lt hfit]

/-- Two trees of the forest joined at node NN, the lighter one on the left, leave a forest. -/
theorem Build.Forest.join {s : State} {b : Build} {tx ty : HTree} {F : List HTree} (h : b.Forest s (tx :: ty :: F))
    (hle : tx.freq ≤ ty.freq) (hnn : b.nn.toNat < 511) {q : Queue} (hq : (q.toList s.heapFill).Perm (F.map HTree.entry))
    (ho : q.Ordered s.heapFill) (hsize : q.hsize.toNat < 511) :
    (b.join s.heapFill q tx ty).Forest s (b.joined tx ty :: F) := by
  have hbelow : ∀ t ∈ tx :: ty :: F, ∀ m ∈ t.nums, m < b.nn.toNat := fun t ht m hm =>
    List.mem_range.mp (h.nums.mem_iff.mp (List.mem_flatMap.mpr ⟨t, ht, hm⟩))
  have hput : ∀ t ∈ tx :: ty :: F, t.StandsIn (b.join s.heapFill q tx ty).node := fun t ht =>
    (h.stands t ht).put (fun hm => lt_irrefl _ (hbelow t ht _ hm)) _
  have hsucc : (b.join s.heapFill q tx ty).nn.toNat = b.nn.toNat + 1 := by
    show (b.nn + 1).toNat = _
    rw [BitVec.toNat_add]
    exact Nat.mod_eq_of_lt (show b.nn.toNat + 1 < 512 by omega)
  simp only [List.forall_mem_cons] at hbelow hput
  obtain ⟨hbx, hby, -⟩ := hbelow
  obtain ⟨hsx, hsy, hs⟩ := hput
  obtain ⟨hfx, hfy, hf⟩ : tx.freqsOk = true ∧ ty.freqsOk = true ∧ ∀ t ∈ F, t.freqsOk = true := by
    simpa only [List.forall_mem_cons] using h.freqsOk
  refine
    { entries := (pqInsert_perm _ _ _ hsize).trans (hq.cons _)
      ordered := pqInsert_ordered ho _
      stands := List.forall_mem_cons.mpr ⟨?_, hs⟩
      nums := ?_
      leaves := ?_
      freqsOk := List.forall_mem_cons.mpr ⟨?_, hf⟩
      total := ?_ }
  · exact ⟨Mem.find?_put_self .., hbx _ tx.num_mem_nums, hby _ ty.num_mem_nums, hsx, hsy⟩
  · have hnums := h.nums
    simp only [List.flatMap_cons] at hnums
    rw [hsucc, List.range_succ]
    simp only [List.flatMap_cons, Build.joined, HTree.nums, List.cons_append, List.append_assoc]
    exact (hnums.cons _).trans (List.perm_append_singleton _ _).symm
  · simpa [Build.joined, HTree.leaves] using h.leaves
  · simp [Build.joined, HTree.freqsOk, hfx, hfy, hle]
  · simpa [Build.joined, HTree.freq, Nat.add_assoc] using h.total

/-- One merge joins the two trees of least frequency (42_tree_builder.md R154, R155). -/
theorem Build.Forest.merge {s : State} (htable : s.TableSound) {b : Build} {F : List HTree} (h : b.Forest s F)
    (hb : b.Sized s.k.toNat) (hsize : 1 < b.queue.hsize.toNat) :
    ∃ G, (b.merge s.cfg s.heapFill).Forest s G := by
  have hnn : b.nn.toNat < 511 := hb.nn_lt htable.k_le hsize
  have hx0 : b.queue.hsize ≠ 0 := Queue.hsize_ne_zero (by omega)
  have hx := pqExtractMin_hsize_toNat (fill := s.heapFill) hx0
  have hy0 : (pqExtractMin s.heapFill b.queue).2.hsize ≠ 0 := Queue.hsize_ne_zero (by omega)
  have hy := pqExtractMin_hsize_toNat (fill := s.heapFill) hy0
  obtain ⟨tx, F1, hF, hxe, hF1⟩ := exists_tree_of_perm (h.entries.symm.trans (pqExtractMin_entry hx0))
  obtain ⟨ty, F2, hF2, hye, hrest⟩ := exists_tree_of_perm (hF1.trans (pqExtractMin_entry hy0))
  replace h := h.perm (hF.trans (hF2.cons tx))
  have hfit : tx.freq + ty.freq < 2 ^ s.cfg.cntW := by
    have htotal := h.total
    have := htable.total
    simp only [List.map_cons, List.sum_cons] at htotal
    omega
  have hle : tx.freq ≤ ty.freq := by
    have hmem := (pqExtractMin_entry (fill := s.heapFill) hy0).mem_iff.mpr List.mem_cons_self
    rw [← hye] at hmem
    exact (congrArg HeapEntry.freq hxe).trans_le (pqExtractMin_entry_le hx0 h.ordered hmem)
  have hsize : (pqExtractMin s.heapFill (pqExtractMin s.heapFill b.queue).2).2.hsize.toNat < 511 := by
    have := hb.hsize_le
    have := s.k.isLt
    omega
  refine ⟨b.joined tx ty :: F2, ?_⟩
  rw [Build.merge_eq hxe hye hfit]
  exact h.join hle hnn hrest.symm (pqExtractMin_ordered (pqExtractMin_ordered h.ordered)) hsize

/-! ## The tree at the end -/

/-- Step 2 ends with one entry in the queue: K passes are enough (42_tree_builder.md R156). -/
theorem Build.Sized.mergeAll_hsize {k : Nat} (hk : k ≤ numSymbols) {c : Config} {fill : Nat → HeapEntry}
    (passes : Nat) {b : Build} (h : b.Sized k) (h0 : 0 < b.queue.hsize.toNat) (hp : b.queue.hsize.toNat ≤ passes + 1) :
    (Build.mergeAll c fill passes b).queue.hsize.toNat = 1 := by
  induction passes generalizing b with
  | zero => exact Nat.le_antisymm hp h0
  | succ n ih =>
    unfold Build.mergeAll
    split
    · obtain ⟨hq, -⟩ := Build.merge_sizes_toNat (c := c) (fill := fill) ‹_› (h.nn_lt hk ‹_›)
      exact ih (h.merge hk ‹_›) (by omega) (by omega)
    · omega

/-- What step 2 leaves of a sound table: one tree, its entry the only one in the queue, and NN = 2K − 1. -/
theorem Build.mergeAll_tree {s : State} (htable : s.TableSound) (hk : s.k ≠ 0) {b : Build}
    (hb : b = Build.mergeAll s.cfg s.heapFill s.k.toNat (Build.leaves s)) :
    ∃ T, b.Forest s [T] ∧ b.nn.toNat + 1 = 2 * s.k.toNat ∧ (pqExtractMin s.heapFill b.queue).1.entry = T.entry := by
  have hk0 : 0 < s.k.toNat := Nat.pos_of_ne_zero fun h => hk (BitVec.eq_of_toNat_eq h)
  have hleaves := Build.leaves_sized s
  have hsize := Build.leaves_hsize s
  obtain ⟨⟨F, hF⟩, hsized⟩ : (∃ F, b.Forest s F) ∧ b.Sized s.k.toNat :=
    hb ▸ Build.mergeAll_induction (P := fun b => (∃ F, b.Forest s F) ∧ b.Sized s.k.toNat)
      (fun b ⟨⟨F, hF⟩, hz⟩ hsize => ⟨hF.merge htable hz hsize, hz.merge htable.k_le hsize⟩) _
      ⟨⟨_, Build.leaves_forest htable⟩, hleaves⟩
  have hone : b.queue.hsize.toNat = 1 :=
    hb ▸ hleaves.mergeAll_hsize htable.k_le _ (by omega) (by omega)
  have hlen : F.length = 1 := by simpa [hone] using hF.entries.length_eq.symm
  obtain ⟨T, rfl⟩ := List.length_eq_one_iff.mp hlen
  have hsum := hsized.sum
  refine ⟨T, hF, by omega, ?_⟩
  have hq0 : b.queue.hsize ≠ 0 := Queue.hsize_ne_zero (by omega)
  have hmem := (pqExtractMin_entry (fill := s.heapFill) hq0).mem_iff.mpr List.mem_cons_self
  exact List.mem_singleton.mp (hF.entries.mem_iff.mp hmem)

/-- The one tree left is numbered NN − 1 at its root. -/
theorem Build.Forest.root_num {s : State} {b : Build} {T : HTree} (h : b.Forest s [T]) :
    T.num = b.nn.toNat - 1 := by
  have hnums := h.nums
  rw [List.flatMap_singleton] at hnums
  have hlt : T.num < b.nn.toNat := List.mem_range.mp (hnums.mem_iff.mp T.num_mem_nums)
  have hlast : b.nn.toNat - 1 ∈ T.nums := hnums.mem_iff.mpr (List.mem_range.mpr (by omega))
  have hle := (h.stands T List.mem_cons_self).le_num hlast
  omega

/-- The one tree left is that of NODE[0..NN−1]. -/
theorem Build.Forest.spans {s : State} (htable : s.TableSound) {b : Build} {T : HTree} (h : b.Forest s [T])
    (hnn : b.nn.toNat + 1 = 2 * s.k.toNat) : T.spans b.nn.toNat = true := by
  have hnums := h.nums
  have hleaves := h.leaves
  rw [List.flatMap_singleton] at hnums hleaves
  have hlen : T.leaves.length = s.k.toNat := by simpa using hleaves.length_eq
  have hsyms : (T.leaves.map Prod.snd).Perm s.tableSymbols := by
    simpa [State.tableSymbols, Function.comp_def] using hleaves.map Prod.snd
  simp only [HTree.spans, Bool.and_eq_true, decide_eq_true_eq, List.all_eq_true]
  refine ⟨⟨⟨⟨⟨⟨?_, ?_⟩, fun n hn => ?_⟩, ?_⟩, fun p hp => ?_⟩, ?_⟩, ?_⟩
  · simpa using hnums.length_eq
  · exact hnums.nodup_iff.mpr List.nodup_range
  · exact List.mem_range.mp (hnums.mem_iff.mp hn)
  · omega
  · obtain ⟨j, hj, rfl⟩ := List.mem_map.mp (hleaves.mem_iff.mp hp)
    have hj : j < s.k.toNat := List.mem_range.mp hj
    show j * 2 < b.nn.toNat
    omega
  · exact hsyms.nodup_iff.mpr htable.nodup
  · exact h.freqsOk T List.mem_cons_self

end Sys2Proof.Machine
end

section
/-! SUPPORT. The tree of a state with TREE_VALID = 1 (10_state.md R26, R28, R37), and all invariants together. -/

namespace Sys2Proof.Machine

/-- What TREE_VALID = 1 says, as State.treeOk decides it. -/
def State.TreeSound (s : State) : Prop :=
  s.status.treeValid = true →
    1 ≤ s.nn.toNat ∧ s.root.toNat = s.nn.toNat - 1 ∧ ∃ T, s.tree? = some T ∧ T.spans s.nn.toNat = true

theorem treeOk_iff (s : State) : s.treeOk = true ↔ s.TreeSound := by
  unfold State.treeOk State.TreeSound
  cases s.status.treeValid with
  | false => simp
  | true => cases s.tree? <;> simp [and_assoc]

theorem State.TreeSound.congr {s t : State} (h : s.TreeSound) (hcfg : t.cfg = s.cfg)
    (hres : t.free.resets = s.free.resets) (htree : t.treeRegs = s.treeRegs) : t.TreeSound := by
  obtain ⟨hnode, hnn, hroot, hvalid⟩ :
      t.node = s.node ∧ t.nn = s.nn ∧ t.root = s.root ∧ t.status.treeValid = s.status.treeValid := by
    simpa [State.treeRegs] using htree
  have hat : t.nodeAt = s.nodeAt := funext fun n => by rw [State.nodeAt, State.nodeAt, hnode, hcfg, hres]
  rw [State.TreeSound, State.tree?, hnn, hroot, hvalid, hat]
  exact h

/-- A sound table, and what TREE_VALID says. -/
def State.TreeInv (s : State) : Prop := s.TableInv ∧ s.TreeSound

theorem State.TreeInv.frame {s t : State} (h : s.TreeInv) (hin : t.inputs = s.inputs) (htab : t.table = s.table)
    (htree : t.treeRegs = s.treeRegs) : t.TreeInv := by
  obtain ⟨htable, hsound⟩ := h
  exact ⟨htable.frame hin htab, hsound.congr (congrArg Inputs.cfg hin) (congrArg Inputs.resets hin) htree⟩

/-- TREE_BUILD leaves no tree, or the one it has built. -/
theorem treeBuildBody_treeSound {s : State} (h : s.TableSound) : (treeBuildBody s).state.TreeSound := by
  rcases treeBuildBody_cases s with ⟨_, e⟩ | ⟨hk, b, x, hb, hx, e⟩ <;> rw [e]
  · exact fun hvalid => by cases hvalid
  · obtain ⟨T, hT, hnn, hentry⟩ := Build.mergeAll_tree h hk hb
    have hlt := b.nn.isLt
    have hnum := hT.root_num
    have hroot : x.1.entry.node.toNat = T.num := by
      rw [hx, hentry]
      exact Nat.mod_eq_of_lt (show T.num < 512 by omega)
    intro _
    refine ⟨show 1 ≤ b.nn.toNat by omega, hroot.trans hnum, T, ?_, hT.spans h hnn⟩
    have hk := h.k_le
    unfold numSymbols at hk
    show treeBelow _ nodeCap x.1.entry.node.toNat = some T
    rw [hroot]
    refine (hT.stands T List.mem_cons_self).treeBelow_eq (fun n v hn => ?_) (show T.num < 511 by omega) (by omega)
    show (Mem.find? b.node n).getD _ = v
    rw [hn]
    rfl

theorem bodyOf_treeInv (i : Instr) {s : State} (h : s.TreeInv) : (bodyOf i s).state.TreeInv := by
  have hother : ∀ i, i ∉ [Instr.treeBuild, .compress] → ∀ t : State, t.TreeInv → (bodyOf i t).state.TreeInv :=
    fun i hi t ⟨htable, htree⟩ =>
      have hin := bodyOf_inputs i t
      ⟨bodyOf_tableInv i htable,
        htree.congr (congrArg Inputs.cfg hin) (congrArg Inputs.resets hin) (bodyOf_treeRegs hi t)⟩
  have hbuild : ∀ t : State, t.TreeInv → (treeBuildBody t).state.TreeInv := fun t ⟨htable, _⟩ =>
    ⟨bodyOf_tableInv .treeBuild htable, treeBuildBody_treeSound htable.2⟩
  by_cases hi : i ∉ [Instr.treeBuild, .compress]
  · exact hother i hi s h
  rcases List.mem_pair.mp (not_not.mp hi) with rfl | rfl
  · exact hbuild s h
  · exact compressBody_state (P := State.TreeInv) s (h.frame rfl rfl rfl) (fun t p ht => ht.frame rfl rfl rfl)
      (hother .freqCount (by decide)) hbuild (hother .codeAssign (by decide)) (hother .pack (by decide))

theorem kept_treeInv : Kept State.TreeInv where
  host s host := fun ⟨htable, htree⟩ => ⟨kept_tableInv.host s host htable, htree.congr rfl rfl rfl⟩
  write s sp i v := fun ⟨htable, htree⟩ => by
    obtain ⟨hcfg, hres, -, hregs, -⟩ := hostWrite_frame s sp i v rfl
    exact ⟨kept_tableInv.write s sp i v htable, htree.congr hcfg hres hregs⟩
  rst s := fun ⟨htable, _⟩ => ⟨kept_tableInv.rst s htable, fun hvalid => by cases hvalid⟩
  accept _ _ h := h.frame rfl rfl rfl
  finish _ h := h.frame rfl rfl rfl
  illegal _ h := h.frame rfl rfl rfl
  body i _ h := bodyOf_treeInv i h

/-- Settles O18: each invariant is kept, the tree with the help of the sound table. -/
theorem stepKeepsTheTree : Obligations.StepKeepsTheTree := by
  intro s t hs hstep
  simp only [State.inv, Bool.and_eq_true, heapOrdered_iff, tableOk_iff, treeOk_iff] at hs ⊢
  obtain ⟨⟨⟨hwf, hheap⟩, htable⟩, htree⟩ := hs
  obtain ⟨-, hfits⟩ := (wf_iff s).mp hwf
  obtain ⟨⟨-, htable'⟩, htree'⟩ := kept_treeInv.step ⟨⟨hfits.cfg, htable⟩, htree⟩ hstep
  exact ⟨⟨⟨step_keeps_wf hwf hstep, kept_queueOrdered.step hheap hstep⟩, htable'⟩, htree'⟩

end Sys2Proof.Machine
end

section
/-! SUPPORT. The host's accesses (20_memory.md R60 to R65, R74): what each read returns, what each write changes, and
the fields of the words of NODE and HEAP. -/

namespace Sys2Proof.Machine

/-! ## The event served -/

theorem step_of_pending {s : State} {e : HostEvent} {es : List HostEvent} (h : s.host.pending = e :: es) :
    step s = serve e (s.withPending es) := by simp only [step, serveFirst, h]

/-- Settles O5: the placed word is a pending write to CMD of an idle block. -/
theorem placedWordRunsNext : Obligations.PlacedWordRunsNext := by
  intro s nbits w i hword
  exact stepRunsTheWrittenCommand (s.withFetchWord nbits w) (tableValue nbits w) s.host.pending i rfl rfl hword

/-! ## An access by the number of its space -/

section
variable (s : State) (sp : Space) (i v : Nat)

theorem State.hostRead_number :
    s.hostRead sp.number i = if i < sp.words s.cfg then s.readWord sp i else 0 := by cases sp <;> rfl

theorem State.hostWrite_number :
    s.hostWrite sp.number i v = if i < sp.words s.cfg then s.writeWord sp i v else s := by cases sp <;> rfl

variable {s sp i}

theorem State.hostRead_of_lt (h : i < sp.words s.cfg) : s.hostRead sp.number i = s.readWord sp i :=
  (s.hostRead_number sp i).trans (if_pos h)

theorem State.hostWrite_of_lt (h : i < sp.words s.cfg) : s.hostWrite sp.number i v = s.writeWord sp i v :=
  (s.hostWrite_number sp i v).trans (if_pos h)

end

theorem Space.number_lt (sp : Space) : sp.number < 9 := by cases sp <;> decide

theorem Space.ofNumber?_of_ge {n : Nat} (h : 9 ≤ n) : Space.ofNumber? n = none := by
  cases hs : Space.ofNumber? n with
  | none => rfl
  | some sp =>
    have hn := Space.number_of_ofNumber? hs
    have hlt := sp.number_lt
    omega

/-- Settles O54: neither a number without a space nor an index above the space's words reaches a word. -/
theorem accessesOutsideTheSpacesDoNothing : Obligations.AccessesOutsideTheSpacesDoNothing := by
  intro s n i v
  refine ⟨fun hn => ?_, fun sp hs hi => ?_⟩
  · have hs := Space.ofNumber?_of_ge hn
    exact ⟨by simp only [State.hostRead, hs], by simp only [State.hostWrite, hs]⟩
  · obtain rfl := Space.number_of_ofNumber? hs
    exact ⟨(s.hostRead_number sp i).trans (if_neg (Nat.not_lt.mpr hi)),
      (s.hostWrite_number sp i v).trans (if_neg (Nat.not_lt.mpr hi))⟩

/-- Settles O55: of the spaces a host write can change, none is OBUF, FREQ, ORD, NODE or HEAP. -/
theorem readOnlySpacesIgnoreHostWrites : Obligations.ReadOnlySpacesIgnoreHostWrites := by
  intro s sp i v hsp
  simp only [List.mem_cons, List.not_mem_nil, or_false] at hsp
  rcases hostWrite_cases s sp i v with h | ⟨h, _⟩ | ⟨h, _⟩ | ⟨h, _⟩ | ⟨h, _⟩ | ⟨h, _⟩ | ⟨h, _⟩
  · exact h
  all_goals omega

/-- Of a word of CBITS the host sees the CLEN low bits for certain (20_memory.md R65). -/
theorem State.hostRead_cbits_mod {s : State} {i : Nat} (hi : i < 256) :
    s.hostRead 8 i % 2 ^ (s.clenAt i).toNat = (s.cbitsAt i).toNat % 2 ^ (s.clenAt i).toNat := by
  rw [show s.hostRead 8 i = s.readCbits i from State.hostRead_of_lt (sp := .cbits) hi, State.readCbits_mod]

/-- Settles O56: the step answers the read, and each word read is the one State.readWord names. -/
theorem hostReadHasNoSideEffect : Obligations.HostReadHasNoSideEffect := by
  refine ⟨fun s sp i es hidle hpending => ?_, fun s => ⟨rfl, fun i hi => ?_, fun i hi hout => ?_, fun i hi => ?_,
    fun j hj hk => ?_, fun n hn hnn => ?_, fun i hi hsize => ?_, fun i hi => ?_, fun i hi => ?_⟩⟩
  · rw [step_of_pending hpending]
    simp only [serve, State.withPending_status, hidle, Bool.false_and, Bool.false_eq_true, if_false]
    rfl
  · exact State.hostRead_of_lt (sp := .ibuf) hi
  · exact (State.hostRead_of_lt (sp := .obuf) hi).trans (if_pos hout)
  · exact State.hostRead_of_lt (sp := .freq) hi
  · exact (State.hostRead_of_lt (sp := .ord) hj).trans (if_pos hk)
  · exact (State.hostRead_of_lt (sp := .node) hn).trans (if_pos hnn)
  · exact (State.hostRead_of_lt (sp := .heap) hi).trans (if_pos hsize)
  · exact State.hostRead_of_lt (sp := .clen) hi
  · exact State.hostRead_cbits_mod hi

/-! ## The words of IBUF, CLEN and CBITS before and after a write -/

section
variable (s : State) (i v : Nat)

theorem State.hostRead_ibuf : s.hostRead 1 i = if i < s.cfg.ibufCap then (s.ibufAt i).toNat else 0 :=
  s.hostRead_number .ibuf i

theorem State.hostRead_clen : s.hostRead 7 i = if i < 256 then (s.clenAt i).toNat else 0 := s.hostRead_number .clen i

variable {s i}

theorem State.hostWrite_ibuf (hi : i < s.cfg.ibufCap) :
    s.hostWrite 1 i v = { s with ibuf := Mem.put s.ibuf i (BitVec.ofNat 8 v) } :=
  State.hostWrite_of_lt (sp := .ibuf) v hi

theorem State.hostWrite_clen (hi : i < 256) :
    s.hostWrite 7 i v = { s.nextEpoch with clen := storeClen s.clen i (BitVec.ofNat 8 v) } :=
  State.hostWrite_of_lt (sp := .clen) v hi

theorem State.hostWrite_cbits (hi : i < 256) :
    s.hostWrite 8 i v = { s.nextEpoch with cbits := Mem.put s.cbits i (BitVec.ofNat 255 v) } :=
  State.hostWrite_of_lt (sp := .cbits) v hi

variable (j : Nat)

theorem State.ibufAt_hostWrite (hi : i < s.cfg.ibufCap) :
    (s.hostWrite 1 i v).ibufAt j = if j = i then BitVec.ofNat 8 v else s.ibufAt j := by
  rw [State.hostWrite_ibuf v hi]
  simp only [State.ibufAt, Mem.find?_put]
  split <;> rfl

theorem State.clenAt_hostWrite (hi : i < 256) :
    (s.hostWrite 7 i v).clenAt j = if j = i then BitVec.ofNat 8 v else s.clenAt j := by
  rw [State.hostWrite_clen v hi]
  exact clenWord_storeClen s.clen i j _

theorem State.cbitsAt_hostWrite (hi : i < 256) :
    (s.hostWrite 8 i v).cbitsAt j = if j = i then BitVec.ofNat 255 v else s.cbitsAt j := by
  rw [State.hostWrite_cbits v hi]
  simp only [State.cbitsAt, Mem.find?_put]
  split <;> rfl

end

/-- Settles O53: the step serves the write, and after it each memory reads as it was, but for the written word. -/
theorem hostWritesOfMemoriesReadBack : Obligations.HostWritesOfMemoriesReadBack := by
  refine ⟨fun s sp i v es hidle hpending hcmd => ?_, fun s i v => ⟨fun hi => ?_, fun hi => ?_, fun hi => ?_⟩⟩
  · have hcmd : isCmd sp i = false := by simpa [isCmd] using hcmd
    rw [step_of_pending hpending]
    simp [serve, hidle, hcmd]
  · obtain ⟨hcfg, -⟩ := hostWrite_frame s 1 i v rfl
    refine ⟨by rw [State.hostWrite_ibuf v hi], ?_, fun j hj => ?_⟩
    · simp [State.hostRead_ibuf, State.ibufAt_hostWrite v i hi, hcfg, hi]
    · simp only [State.hostRead_ibuf, State.ibufAt_hostWrite v j hi, hcfg, if_neg hj]
  · refine ⟨by rw [State.hostWrite_clen v hi]; rfl, ?_, fun j hj => ?_⟩
    · simp [State.hostRead_clen, State.clenAt_hostWrite v i hi, hi]
    · simp only [State.hostRead_clen, State.clenAt_hostWrite v j hi, if_neg hj]
  · have hclen : (s.hostWrite 8 i v).clenAt i = s.clenAt i := by rw [State.hostWrite_cbits v hi]; rfl
    have hword : (s.hostWrite 8 i v).cbitsAt i = BitVec.ofNat 255 v := by simp [State.cbitsAt_hostWrite v i hi]
    have hlow := State.hostRead_cbits_mod (s := s.hostWrite 8 i v) hi
    rw [hclen, hword, BitVec.toNat_ofNat] at hlow
    exact ⟨by rw [State.hostWrite_cbits v hi]; rfl, hlow, hword,
      fun j hj => (State.cbitsAt_hostWrite v j hi).trans (if_neg hj)⟩

/-! ## The fields of a word of NODE or HEAP (20_memory.md R61) -/

/-- A word with a field of `w` low bits, read from bit `w + k` on. -/
theorem div_two_pow_add {w f : Nat} (hf : f < 2 ^ w) (x k : Nat) : (x * 2 ^ w + f) / 2 ^ (w + k) = x / 2 ^ k := by
  rw [pow_add, ← Nat.div_div_eq_div_mul, Nat.add_div_of_dvd_right (Dvd.intro_left x rfl), Nat.div_eq_of_lt hf,
    Nat.add_zero, Nat.mul_div_cancel x (by positivity)]

theorem HuffNode.word_leaf (c : Config) (sym : Byte) (f : Nat) :
    HuffNode.word c (.leaf sym f) = (2 ^ 26 + sym.toNat * 2 ^ 18) * 2 ^ c.cntW + f := by
  simp only [HuffNode.word, pow_add]
  ring

theorem HuffNode.word_internal (c : Config) (f : Nat) (left right : NodeNo) :
    HuffNode.word c (.internal f left right) = (left.toNat * 2 ^ 9 + right.toNat) * 2 ^ c.cntW + f := by
  simp only [HuffNode.word, pow_add]
  ring

/-- Settles O60: each word is the frequency in the low CNT_W bits and a number of fixed fields above. -/
theorem hostWordsOfNodesAndEntries : Obligations.HostWordsOfNodesAndEntries := by
  intro c f hf
  have hlow (x : Nat) : (x * 2 ^ c.cntW + f) % 2 ^ c.cntW = f := by rw [Nat.mul_add_mod', Nat.mod_eq_of_lt hf]
  have htop (x : Nat) : (x * 2 ^ c.cntW + f) / 2 ^ c.cntW = x := by simpa using div_two_pow_add hf x 0
  refine ⟨fun n => ⟨hlow _, htop _⟩, fun sym => ?_, fun l r => ?_⟩
  · have hsym := sym.isLt
    rw [HuffNode.word_leaf, hlow, htop, div_two_pow_add hf, div_two_pow_add hf, div_two_pow_add hf]
    omega
  · have hl := l.isLt
    have hr := r.isLt
    rw [HuffNode.word_internal, hlow, htop, div_two_pow_add hf, div_two_pow_add hf]
    omega

end Sys2Proof.Machine
end

section
/-! SUPPORT. Which words select a command (30_encoding.md R91, R94), and what a reserved word does (R95). -/

namespace Sys2Proof.Machine

/-- Every command has the form of 30_encoding.md R90 and decodes to itself. -/
theorem encoding_statement (i : Instr) : Laws.Encoding.Statement i := by
  cases i with
  | nop => exact Laws.Encoding.nop
  | compress => exact Laws.Encoding.compress
  | freqCount => exact Laws.Encoding.freqCount
  | treeBuild => exact Laws.Encoding.treeBuild
  | codeAssign => exact Laws.Encoding.codeAssign
  | pack => exact Laws.Encoding.pack
  | pqClear => exact Laws.Encoding.pqClear
  | pqInsert => exact Laws.Encoding.pqInsert
  | pqExtractMin => exact Laws.Encoding.pqExtractMin

theorem decode_encode (i : Instr) : decode (encode i) = .ok i := by
  obtain ⟨-, -, hdecode⟩ := encoding_statement i
  exact hdecode

/-- The upper field of a command's word is zero. -/
theorem zero_ofWord_encode (i : Instr) : (FormatC.ofWord (encode i)).zero = 0 := by
  obtain ⟨hwf, hfields, -⟩ := encoding_statement i
  obtain ⟨hzero, -⟩ := (Bool.and_eq_true _ _).mp hwf
  rw [hfields]
  exact beq_iff_eq.mp hzero

theorem decode?_eq_map_find? (w : BitVec 8) :
    decode? w = (opcodeMap.find? fun r => r.selects w).map OpcodeRow.instr := by
  unfold decode? decode
  cases opcodeMap.find? fun r => r.selects w with
  | some r => rfl
  | none => by_cases h : (FormatC.ofWord w).zeroOk <;> simp [h]

/-- Every row of the opcode map compares all eight bits with its command's word. -/
theorem opcodeMap_rows : ∀ r ∈ opcodeMap, r.mask = BitVec.allOnes 8 ∧ r.value = encode r.instr := by decide

theorem selects_iff_of_mem {r : OpcodeRow} (hr : r ∈ opcodeMap) (w : BitVec 8) :
    r.selects w = true ↔ w = encode r.instr := by
  obtain ⟨hmask, hvalue⟩ := opcodeMap_rows r hr
  rw [OpcodeRow.selects, hmask, hvalue, BitVec.and_allOnes, beq_iff_eq]

theorem decode?_eq_some_iff {w : BitVec 8} {i : Instr} : decode? w = some i ↔ w = encode i := by
  constructor
  · intro h
    rw [decode?_eq_map_find?] at h
    obtain ⟨r, hfind, rfl⟩ := Option.map_eq_some_iff.mp h
    have hselects : r.selects w = true := List.find?_some (p := fun r : OpcodeRow => r.selects w) hfind
    exact (selects_iff_of_mem (List.mem_of_find?_eq_some hfind) w).mp hselects
  · rintro rfl
    rw [decode?, decode_encode]

/-- The nine words of the opcode map are the numbers below 9. -/
theorem exists_encode_eq_iff (w : BitVec 8) : (∃ i, w = encode i) ↔ w.toNat < 9 := by
  have hmap : (∃ i, w = encode i) ↔ w ∈ opcodeMap.map OpcodeRow.value := by
    constructor
    · rintro ⟨i, rfl⟩
      cases i <;> decide
    · intro hw
      obtain ⟨r, hr, rfl⟩ := List.mem_map.mp hw
      exact ⟨r.instr, (opcodeMap_rows r hr).2⟩
  rw [hmap]
  simp only [opcodeMap, List.map_cons, List.map_nil, List.mem_cons, List.not_mem_nil, or_false]
  bv_omega

theorem decode?_eq_none_iff (w : BitVec 8) : decode? w = none ↔ 9 ≤ w.toNat := by
  rw [Option.eq_none_iff_forall_ne_some, ← Nat.not_lt, ← exists_encode_eq_iff]
  simp only [ne_eq, decode?_eq_some_iff, not_exists]

theorem commandWord_toNat (v : Nat) : (commandWord v).toNat = v % 256 := BitVec.toNat_ofNat ..

/-- Settles O1: a word decodes to a command exactly when it is the command's word, whose upper field is zero. -/
theorem wordSelectsExactlyItsCommand : Obligations.WordSelectsExactlyItsCommand := by
  refine ⟨decode_encode, fun v i => ?_, fun w hw => ?_, by decide⟩
  · rw [decode?_eq_some_iff, BitVec.toNat_eq, commandWord_toNat]
  · refine Option.eq_none_iff_forall_ne_some.mpr fun i hi => hw ?_
    rw [decode?_eq_some_iff.mp hi]
    exact zero_ofWord_encode i

/-- Settles O2: each word written out is the encoder's. -/
theorem opcodeMapWords : Obligations.OpcodeMapWords := by
  refine ⟨?_, ?_, ?_, ?_, ?_, ?_, ?_, ?_, ?_⟩ <;> exact decode?_eq_some_iff.mpr (by decide)

/-- Settles O3. -/
theorem reservedWordsSelectNoCommand : Obligations.ReservedWordsSelectNoCommand := decode?_eq_none_iff

/-- Settles O6: the step serves the write, and acceptance and `raise` write only what every command writes. -/
theorem reservedWordFailsWithIllegalCmd : Obligations.ReservedWordFailsWithIllegalCmd := by
  refine ⟨rfl, fun s v es hidle hpending hv => ?_⟩
  have hword : decode? (commandWord v) = none := by rwa [decode?_eq_none_iff, commandWord_toNat]
  have hstep : step s = illegalCommand (s.withPending es) := by
    rw [step_of_pending hpending]
    simp [serve, hidle, isCmd, command, hword]
  exact ⟨_, hstep, ⟨rfl, rfl, rfl, rfl, rfl, Nat.zero_mod _⟩, rfl⟩

end Sys2Proof.Machine
end

section
/-! SUPPORT. The length of the header string (30_encoding.md R104, R105, R108). -/

namespace Sys2Proof.Machine

/-- A separator stands before every list but the first. -/
theorem length_intercalate_singleton {α : Type} (sep : α) (xss : List (List α)) :
    ([sep].intercalate xss).length = (xss.map fun xs => xs.length + 1).sum - 1 := by
  induction xss with
  | nil => rfl
  | cons xs rest ih =>
    cases rest with
    | nil => simp
    | cons ys rest =>
      simp only [List.intercalate_cons_cons, List.length_append, ih, List.map_cons, List.sum_cons,
        List.length_singleton]
      omega

/-- What one symbol adds to the header string with a comma (30_encoding.md R104) is what PACK's sizing loop counts. -/
theorem length_pairText {code : Byte → List Bool} {sym : Byte} (h : code sym ≠ []) :
    (pairText code sym).length + 1 = pairSize (fun b => (code b).length) sym := by
  simp only [pairText, pairSize, List.length_append, List.length_cons, List.length_map, List.length_eq_zero_iff, h,
    if_false]
  omega

/-- A symbol without a code adds nothing to either sum. -/
theorem sum_length_pairText (code : Byte → List Bool) (syms : List Byte) :
    (((syms.filter fun sym => code sym ≠ []).map (pairText code)).map fun xs => xs.length + 1).sum =
      (syms.map (pairSize fun b => (code b).length)).sum := by
  induction syms with
  | nil => rfl
  | cons sym syms ih =>
    by_cases h : code sym = []
    · simp [h, pairSize, ← ih]
    · simp [h, ← length_pairText h, ← ih]

/-- The length PACK computes is that of the header string (30_encoding.md R105, 44_bit_packer.md R181). -/
theorem length_header (code : Byte → List Bool) : (header code).length = headerLength fun b => (code b).length := by
  rw [header, length_intercalate_singleton, sum_length_pairText, headerLength_eq]

@[simp] theorem State.length_code (s : State) (b : Byte) : (s.code b).length = s.codeLen b := by simp [State.code]

/-- Settles O41: the header string is as long as PACK computes, for a table of codes of at most CODE_MAX bits. -/
theorem headerFitsItsLengthRegister : Obligations.HeaderFitsItsLengthRegister := by
  intro s
  rw [length_header]
  exact headerLength_le fun b => (s.length_code b).trans_le (s.codeLen_le b)

end Sys2Proof.Machine
end

section
/-! SUPPORT. FREQ_COUNT's statements (40_frequency_table.md R121, R123, R124): the order of ORD, the words of ORD it
leaves alone, and that a memory in canonical form is determined by what its words read as. -/

namespace Sys2Proof.Machine

/-! ## A memory in canonical form is determined by its words -/

theorem Mem.find?_eq_some_iff {α : Type} {m : List (Nat × α)} (h : Mem.sorted m = true) {a : Nat} {v : α} :
    Mem.find? m a = some v ↔ (a, v) ∈ m := by
  induction m with
  | nil => simp
  | cons e m ih =>
    obtain ⟨i, w⟩ := e
    rw [Mem.sorted_iff_pairwise, List.pairwise_cons, ← Mem.sorted_iff_pairwise] at h
    obtain ⟨hlt, hm⟩ := h
    unfold Mem.find?
    split
    · subst i
      have hnot : (a, v) ∉ m := fun hmem => Nat.lt_irrefl a (hlt _ hmem)
      simp [hnot, eq_comm]
    · rename_i hne
      simp [ih hm, Ne.symm hne]

theorem Mem.eq_of_find?_eq {α : Type} {m n : List (Nat × α)} (hm : Mem.sorted m = true) (hn : Mem.sorted n = true)
    (h : ∀ a, Mem.find? m a = Mem.find? n a) : m = n := by
  have hirrefl : Std.Irrefl fun a b : Nat × α => a.1 < b.1 := ⟨fun a => Nat.lt_irrefl a.1⟩
  have hasymm : Std.Asymm fun a b : Nat × α => a.1 < b.1 := ⟨fun _ _ => Nat.lt_asymm⟩
  refine ((Mem.sorted_iff_pairwise m).mp hm).eq_of_mem_iff ((Mem.sorted_iff_pairwise n).mp hn) fun ⟨a, v⟩ => ?_
  rw [← Mem.find?_eq_some_iff hm, ← Mem.find?_eq_some_iff hn, h]

section
variable {ok : Nat → Bool} {m : List (Nat × Nat)} (h : Mem.wf numSymbols ok (some 0) m = true)
include h

/-- A canonical FREQ memory lists exactly the words that are not 0. -/
theorem find?_eq_of_freqWord (i : Nat) :
    Mem.find? m i = if freqWord m i = 0 then none else some (freqWord m i) := by
  rw [freqWord_eq]
  cases hf : Mem.find? m i with
  | none => rfl
  | some v =>
    obtain ⟨-, -, hv⟩ := Mem.wf_find? h hf
    exact (if_neg fun hzero => hv (congrArg some hzero.symm)).symm

/-- FREQ has no word beyond the symbols. -/
theorem freqWord_of_numSymbols_le {i : Nat} (hi : numSymbols ≤ i) : freqWord m i = 0 := by
  rw [freqWord_eq]
  cases hf : Mem.find? m i with
  | none => rfl
  | some v =>
    obtain ⟨hlt, -⟩ := Mem.wf_find? h hf
    omega

/-- A canonical FREQ memory is determined by the counts of the symbols. -/
theorem freq_ext {ok' : Nat → Bool} {n : List (Nat × Nat)} (hn : Mem.wf numSymbols ok' (some 0) n = true)
    (heq : ∀ b : Byte, freqWord m b.toNat = freqWord n b.toNat) : m = n := by
  have hword : ∀ i, freqWord m i = freqWord n i := fun i => by
    by_cases hi : i < numSymbols
    · have hb : (BitVec.ofNat 8 i).toNat = i := Nat.mod_eq_of_lt hi
      simpa only [hb] using heq (BitVec.ofNat 8 i)
    · rw [freqWord_of_numSymbols_le h (Nat.le_of_not_lt hi), freqWord_of_numSymbols_le hn (Nat.le_of_not_lt hi)]
  refine Mem.eq_of_find?_eq (Mem.wf_iff.mp h).1 (Mem.wf_iff.mp hn).1 fun i => ?_
  rw [find?_eq_of_freqWord h, find?_eq_of_freqWord hn, hword]

end

/-- FREQ is in canonical form after the loop of FREQ_COUNT, whatever ORD holds. -/
theorem FreqTable.foldl_freq_wf {c : Config} (input : List Byte) {t : FreqTable}
    (h : Mem.wf numSymbols (fitsCnt c) (some 0) t.freq = true) :
    Mem.wf numSymbols (fitsCnt c) (some 0) (input.foldl (FreqTable.count c) t).freq = true := by
  induction input generalizing t with
  | nil => exact h
  | cons b input ih =>
    refine ih ?_
    unfold FreqTable.count
    split <;> exact storeFreq_wf h b.isLt (fitsCnt_cntTrunc _ _)

/-! ## ORD -/

/-- First-seen order is the order of the first occurrences (40_frequency_table.md R123). -/
theorem firstSeen_pairwise_idxOf (input : List Byte) :
    (firstSeen input).Pairwise fun a b => input.idxOf a < input.idxOf b := by
  induction input using List.reverseRecOn with
  | nil => exact List.Pairwise.nil
  | append_singleton input b ih =>
    have hidx : ∀ {a}, a ∈ firstSeen input → (input ++ [b]).idxOf a = input.idxOf a := fun ha =>
      List.idxOf_append_of_mem (mem_firstSeen.mp ha)
    have hold : (firstSeen input).Pairwise fun a c => (input ++ [b]).idxOf a < (input ++ [b]).idxOf c :=
      ih.imp_of_mem fun ha hc hac => by rwa [hidx ha, hidx hc]
    by_cases hb : b ∈ input
    · rwa [firstSeen_append_of_mem hb]
    · rw [firstSeen_append_of_notMem hb]
      refine List.pairwise_append.mpr ⟨hold, List.pairwise_singleton .., fun a ha c hc => ?_⟩
      rw [List.mem_singleton.mp hc, hidx ha, List.idxOf_append_of_notMem hb]
      exact (List.idxOf_lt_length_of_mem (mem_firstSeen.mp ha)).trans_le (Nat.le_add_right ..)

/-- ORD holds the words of `ord` from K on. -/
def FreqTable.KeepsOrdFrom (t : FreqTable) (ord : List Host.Cell) : Prop :=
  ∀ j, t.k.toNat ≤ j → Mem.find? t.ord j = Mem.find? ord j

/-- The loop body writes at most ORD[K], which the new K is above. -/
theorem FreqTable.KeepsOrdFrom.count {c : Config} {t : FreqTable} {ord : List Host.Cell} {input : List Byte}
    (h : t.KeepsOrdFrom ord) (ht : t.Counted input) (b : Byte) : (t.count c b).KeepsOrdFrom ord := by
  intro j hj
  rcases FreqTable.ord_count c t b with ⟨hzero, hord, hk⟩ | ⟨-, hord, hk⟩ <;> rw [hk] at hj <;> rw [hord]
  · have hlt := ht.k_lt (ht.freq_eq_zero.mp hzero)
    have hsucc : (t.k + 1).toNat = t.k.toNat + 1 := by unfold numSymbols at hlt; bv_omega
    rw [Mem.find?_put_of_ne _ _ (by omega)]
    exact h j (by omega)
  · exact h j hj

theorem FreqTable.KeepsOrdFrom.foldl {c : Config} (rest : List Byte) {t : FreqTable} {ord : List Host.Cell}
    {input : List Byte} (h : t.KeepsOrdFrom ord) (ht : t.Counted input)
    (hfit : (input ++ rest).length < 2 ^ c.cntW) : (rest.foldl (FreqTable.count c) t).KeepsOrdFrom ord := by
  induction rest generalizing t input with
  | nil => exact h
  | cons b rest ih =>
    have hfit' : input.length + 1 < 2 ^ c.cntW := by simp at hfit; omega
    rw [List.append_cons] at hfit
    exact ih (h.count ht b) (ht.count b hfit') hfit

/-! ## What the counted table says of the state it is written to -/

section
variable {t : FreqTable} {input : List Byte} (h : t.Counted input) (s : State)
include h

theorem tableSymbols_setTable : (s.setTable t.freq t.ord t.k).tableSymbols = firstSeen input := by
  refine List.ext_getElem (by simp [State.tableSymbols, h.k]) fun j hj hj' => ?_
  simp [State.tableSymbols, State.ordAt, h.ord j hj', hj']

theorem totalCount_setTable : (s.setTable t.freq t.ord t.k).totalCount = input.length := by
  rw [← sum_count_allSymbols input]
  exact congrArg List.sum (List.map_congr_left fun b _ => h.freq b)

theorem FreqTable.Counted.one_le_freq_iff (b : Byte) : 1 ≤ freqWord t.freq b.toNat ↔ b ∈ firstSeen input := by
  rw [Nat.one_le_iff_ne_zero, ne_eq, h.freq_eq_zero, not_not, mem_firstSeen]

/-- K is the number of symbols with a count of at least 1 (40_frequency_table.md R123). -/
theorem FreqTable.Counted.k_eq :
    t.k.toNat = (allSymbols.filter fun b => 1 ≤ freqWord t.freq b.toNat).length := by
  rw [h.k]
  refine ((List.perm_ext_iff_of_nodup (firstSeen_nodup input) (allSymbols_nodup.filter _)).mpr fun b => ?_).length_eq
  simp [List.mem_filter, mem_allSymbols, h.one_le_freq_iff]

end

/-! ## The command -/

/-- The table FREQ_COUNT writes, from the input alone but for the words of ORD from K on. -/
def State.inputTable (s : State) : FreqTable := s.input.foldl (FreqTable.count s.cfg) (FreqTable.cleared s.ord)

theorem inputTable_keepsOrdFrom {s : State} (hc : s.cfg.wf = true) (hlen : s.len ≤ s.cfg.ibufCap) :
    s.inputTable.KeepsOrdFrom s.ord := by
  obtain ⟨-, -, hcap, -⟩ := (configWf_iff _).mp hc
  exact FreqTable.KeepsOrdFrom.foldl s.input (fun _ _ => rfl) (FreqTable.counted_cleared s.ord) (by simp; omega)

/-- FREQ_COUNT of an input that fits IBUF writes its table and finishes. -/
theorem exec_freqCount_of_le {s : State} (hlen : s.len ≤ s.cfg.ibufCap) :
    exec .freqCount s =
      .next ((s.accept .freq).setTable s.inputTable.freq s.inputTable.ord s.inputTable.k).finish := by
  refine exec_next_iff.mpr ?_
  rcases freqCountBody_cases (s.accept .freq) with ⟨hlt, -⟩ | ⟨-, t, rfl, e⟩
  · exact absurd hlt (Nat.not_lt.mpr hlen)
  · exact (congrArg Ran.complete e).symm

/-- FREQ_COUNT of an input longer than IBUF only raises LEN_RANGE. -/
theorem exec_freqCount_of_lt {s : State} (hlt : s.cfg.ibufCap < s.len) :
    exec .freqCount s = .next ((s.accept .freq).raise .lenRange 0 0) := by
  refine exec_next_iff.mpr ?_
  rcases freqCountBody_cases (s.accept .freq) with ⟨-, e⟩ | ⟨hle, -⟩
  · exact (congrArg Ran.complete e).symm
  · exact absurd hlt (Nat.not_lt.mpr hle)

/-- Settles O28: acceptance and `raise` write only what every command writes. -/
theorem freqCountRejectsALongInput : Obligations.FreqCountRejectsALongInput := fun _ hlt =>
  ⟨_, exec_freqCount_of_lt hlt, ⟨rfl, rfl, rfl, rfl, rfl, Nat.zero_mod _⟩, rfl⟩

/-- Settles O27: the table written is that of the input, ORD in first-seen order. -/
theorem freqCountCountsTheInput : Obligations.FreqCountCountsTheInput := by
  intro s hc hlen
  have h : s.inputTable.Counted s.input := counted_input hc hlen
  have hsyms := tableSymbols_setTable h (s.accept .freq)
  refine ⟨_, exec_freqCount_of_le hlen, ⟨rfl, rfl, rfl, rfl, rfl, rfl⟩, rfl, h.freq, h.k_eq, ?nodup, ?mem, ?order,
    ?total, inputTable_keepsOrdFrom hc hlen⟩
  case nodup => exact hsyms ▸ firstSeen_nodup s.input
  case mem => exact fun b => hsyms ▸ (h.one_le_freq_iff b).symm
  case order => exact hsyms ▸ firstSeen_pairwise_idxOf s.input
  case total => exact (totalCount_setTable h (s.accept .freq)).trans s.input_length

/-- Settles O29: a count does not depend on the order, and the counts determine FREQ and K. -/
theorem countsIgnoreTheOrderOfTheInput : Obligations.CountsIgnoreTheOrderOfTheInput := by
  intro s1 s2 t1 t2 hc hcfg hlen hperm hexec1 hexec2
  have hlen2 : s2.len ≤ s2.cfg.ibufCap := by
    have hsame := hperm.length_eq
    rw [State.input_length, State.input_length] at hsame
    rwa [← hsame, ← hcfg]
  have h1 : s1.inputTable.Counted s1.input := counted_input hc hlen
  have h2 : s2.inputTable.Counted s2.input := counted_input (hcfg ▸ hc) hlen2
  have hcounts : ∀ b : Byte, freqWord s1.inputTable.freq b.toNat = freqWord s2.inputTable.freq b.toNat := fun b => by
    rw [h1.freq, h2.freq, hperm.count_eq]
  rw [exec_freqCount_of_le hlen] at hexec1
  rw [exec_freqCount_of_le hlen2] at hexec2
  cases hexec1
  cases hexec2
  constructor
  · exact freq_ext (FreqTable.foldl_freq_wf s1.input Mem.wf_nil) (FreqTable.foldl_freq_wf s2.input Mem.wf_nil) hcounts
  · exact BitVec.eq_of_toNat_eq (by simp only [State.finish_k, State.setTable_k, h1.k_eq, h2.k_eq, hcounts])

end Sys2Proof.Machine
end

section
/-! SUPPORT. The queue's own commands (41_priority_queue.md R132 to R138): where an inserted entry stays, which words an
extraction leaves alone, and which child goes up. -/

namespace Sys2Proof.Machine

/-- Settles O16: both sifts restore the heap order, and no other part of a step writes the queue. -/
theorem stepKeepsHeapOrder : Obligations.StepKeepsHeapOrder := fun s t hs hstep =>
  (heapOrdered_iff t).mpr (kept_queueOrdered.step ((heapOrdered_iff s).mp hs) hstep)

/-! ## pq_insert and pq_extract_min -/

section
variable {fill : Nat → HeapEntry} {q : Queue}

/-- An entry that is the first, or not strictly less than its parent, stays at the end (R132). -/
theorem pqInsert_of_parent_le {e : HeapEntry}
    (h : q.hsize.toNat = 0 ∨ (q.at fill ((q.hsize.toNat - 1) / 2)).freq ≤ e.freq) :
    pqInsert fill q e = { heap := Mem.put q.heap q.hsize.toNat e, hsize := q.hsize + 1 } := by
  unfold pqInsert
  dsimp only
  generalize q.hsize.toNat = i at h ⊢
  cases i with
  | zero => rfl
  | succ n =>
    have hle := h.resolve_left n.succ_ne_zero
    unfold Queue.siftUp
    rw [if_neg n.succ_ne_zero]
    refine if_neg (Nat.not_lt.mpr ?_)
    rw [Queue.at_put, Queue.at_put, if_pos rfl, if_neg (by omega)]
    exact hle

/-- pq_extract_min writes no word from the new size on. -/
theorem pqExtractMin_find?_of_le (h : q.hsize ≠ 0) {k : Nat} (hk : q.hsize.toNat - 1 ≤ k) :
    Mem.find? (pqExtractMin fill q).2.heap k = Mem.find? q.heap k := by
  have hs := Queue.hsize_sub_one h
  rcases pqExtractMin_queue_cases (fill := fill) h with ⟨-, e⟩ | ⟨h1, e⟩ <;> rw [e]
  have h0 : (q.hsize - 1).toNat ≠ 0 := fun h' => h1 (BitVec.eq_of_toNat_eq h')
  have hroot : 0 < (q.lastToRoot fill).hsize.toNat := Nat.pos_of_ne_zero h0
  have hlast : (q.lastToRoot fill).hsize.toNat ≤ k := by
    show (q.hsize - 1).toNat ≤ k
    omega
  rw [Queue.find?_siftDown fill _ _ hroot (.inr hlast)]
  exact Mem.find?_put_of_ne _ _ (by omega)

/-! ## The sift of pq_extract_min -/

section
variable {i m : Nat} (passes : Nat)

theorem Queue.siftDown_of_smallest_eq (h : q.smallest fill i = i) : Queue.siftDown fill (passes + 1) q i = q :=
  if_pos h

theorem Queue.siftDown_of_smallest_ne (h : q.smallest fill i = m) (hm : m ≠ i) :
    Queue.siftDown fill (passes + 1) q i = Queue.siftDown fill passes (q.swap fill i m) m := by
  subst h
  exact if_neg hm

/-- The sift from index i goes on among the children of i, so it leaves every other entry up to
index 2i alone. -/
theorem Queue.at_siftDown_of_le {k : Nat} (hk : k ≤ 2 * i) (hne : k ≠ i) :
    (Queue.siftDown fill passes q i).at fill k = q.at fill k := by
  cases passes with
  | zero => rfl
  | succ n =>
    rcases Queue.smallest_cases fill q i with h | ⟨hm, hlt, -⟩
    · rw [Queue.siftDown_of_smallest_eq n h]
    · rw [Queue.siftDown_of_smallest_ne n rfl (by omega), Queue.at,
        Queue.find?_siftDown fill (q.swap fill i _) n hlt (.inl (by omega)),
        Queue.find?_swap_of_ne fill q hne (by omega), Queue.at]

end

/-! ## Which of two present children is chosen (R133) -/

section
variable {i : Nat} (hr : 2 * i + 2 < q.hsize.toNat)
include hr

/-- The left child, unless the right one is strictly smaller. -/
theorem Queue.smallest_eq_left (hlr : (q.at fill (2 * i + 1)).freq ≤ (q.at fill (2 * i + 2)).freq)
    (hlt : (q.at fill (2 * i + 1)).freq < (q.at fill i).freq) : q.smallest fill i = 2 * i + 1 := by
  have hl : 2 * i + 1 < q.hsize.toNat := by omega
  simp only [Queue.smallest, if_pos (And.intro hl hlt), hr, Nat.not_lt.mpr hlr, and_false, if_false]

/-- The right child where it is strictly smaller than the left one and than entry i. -/
theorem Queue.smallest_eq_right (hrl : (q.at fill (2 * i + 2)).freq < (q.at fill (2 * i + 1)).freq)
    (hlt : (q.at fill (2 * i + 2)).freq < (q.at fill i).freq) : q.smallest fill i = 2 * i + 2 := by
  unfold Queue.smallest
  dsimp only
  refine if_pos ⟨hr, ?_⟩
  split
  · exact hrl
  · exact hlt

end

/-- Neither child where neither is strictly smaller than entry i. -/
theorem Queue.smallest_eq_self {i : Nat} (hl : (q.at fill i).freq ≤ (q.at fill (2 * i + 1)).freq)
    (hr : (q.at fill i).freq ≤ (q.at fill (2 * i + 2)).freq) : q.smallest fill i = i := by
  simp only [Queue.smallest, Nat.not_lt.mpr hl, Nat.not_lt.mpr hr, and_false, if_false]

/-- At the root: of two equal children smaller than the last entry, the left one goes up and the right one stays. -/
theorem pqExtractMin_of_equal_children (hn : 4 ≤ q.hsize.toNat) (heq : (q.at fill 1).freq = (q.at fill 2).freq)
    (hlt : (q.at fill 1).freq < (q.at fill (q.hsize.toNat - 1)).freq) :
    (pqExtractMin fill q).2.at fill 0 = q.at fill 1 ∧ (pqExtractMin fill q).2.at fill 2 = q.at fill 2 := by
  have h := Queue.hsize_ne_zero (q := q) (by omega)
  have hs := Queue.hsize_sub_one h
  rcases pqExtractMin_queue_cases (fill := fill) h with ⟨h1, -⟩ | ⟨-, e⟩
  · exact absurd (congrArg BitVec.toNat h1) (show (q.hsize - 1).toNat ≠ 0 by omega)
  have hlast : (q.hsize - 1).toNat = q.hsize.toNat - 1 := by omega
  obtain ⟨n, hpasses⟩ : ∃ n, (q.hsize - 1).toNat = n + 1 := ⟨q.hsize.toNat - 2, by omega⟩
  have hsize : 2 < (q.lastToRoot fill).hsize.toNat := by
    show 2 < (q.hsize - 1).toNat
    omega
  have hleft : (q.lastToRoot fill).smallest fill 0 = 1 := by
    refine Queue.smallest_eq_left hsize ?_ ?_
    · simp [Queue.at_lastToRoot, heq]
    · rw [Queue.at_lastToRoot, Queue.at_lastToRoot, if_pos rfl, hlast]
      exact hlt
  have hkeep : ∀ k, k ≤ 2 → k ≠ 1 →
      (pqExtractMin fill q).2.at fill k = ((q.lastToRoot fill).swap fill 0 1).at fill k := fun k hk hne => by
    rw [e, hpasses, Queue.siftDown_of_smallest_ne n hleft (by omega)]
    exact Queue.at_siftDown_of_le n hk hne
  constructor
  · rw [hkeep 0 (by omega) (by omega)]
    simp [Queue.at_swap, Queue.at_lastToRoot]
  · rw [hkeep 2 (by omega) (by omega)]
    simp [Queue.at_swap, Queue.at_lastToRoot]

end

/-! ## The commands -/

/-- The queue PQ_INSERT writes when it is not full. -/
def State.inserted (s : State) : Queue := pqInsert s.heapFill s.queue s.argEntry

/-- What PQ_EXTRACT_MIN reports and the queue it writes. -/
def State.extracted (s : State) : Extracted × Queue := pqExtractMin s.heapFill s.queue

theorem exec_pqClear (s : State) : exec .pqClear s = .next ((s.accept .pq).setQueue s.heap 0).finish := rfl

theorem exec_pqInsert_of_lt {s : State} (h : s.hsize.toNat < 256) :
    exec .pqInsert s = .next ((s.accept .pq).setQueue s.inserted.heap (s.hsize + 1)).finish := by
  refine exec_next_iff.mpr ?_
  rcases pqInsertBody_cases (s.accept .pq) with ⟨hfull, -⟩ | ⟨-, q, rfl, e⟩
  · exact absurd hfull (Nat.ne_of_lt h)
  · refine .trans ?_ (congrArg Ran.complete e).symm
    rw [pqInsert_hsize]
    rfl

theorem exec_pqExtractMin (s : State) :
    exec .pqExtractMin s =
      .next (((s.accept .pq).setQueue s.extracted.2.heap s.extracted.2.hsize).setResult s.extracted.1.empty
        s.extracted.1.entry).finish := rfl

/-- Settles O20. -/
theorem pqClearEmptiesTheQueue : Obligations.PqClearEmptiesTheQueue := fun s =>
  ⟨_, exec_pqClear s, ⟨rfl, rfl, rfl, rfl, rfl, rfl⟩, rfl⟩

/-- Settles O21: the sift only exchanges entries up to the new one. -/
theorem pqInsertAddsItsEntry : Obligations.PqInsertAddsItsEntry := by
  intro s h
  have hperm : (s.inserted.toList s.heapFill).Perm (s.argEntry :: s.queueList) :=
    pqInsert_perm s.heapFill s.queue s.argEntry (Nat.lt_trans h (by decide))
  have hsize : s.inserted.hsize = s.hsize + 1 := pqInsert_hsize s.heapFill s.queue s.argEntry
  rw [Queue.toList, hsize] at hperm
  exact ⟨_, exec_pqInsert_of_lt h, ⟨rfl, rfl, rfl, rfl, rfl, rfl⟩, rfl, hperm, fun _ hi =>
    pqInsert_find?_of_lt s.heapFill s.queue s.argEntry hi⟩

/-- Settles O22: the first test of the sift fails. -/
theorem pqInsertStaysUnderAnEqualParent : Obligations.PqInsertStaysUnderAnEqualParent := by
  intro s h hparent
  have hat : ∀ i, s.inserted.at s.heapFill i = if i = s.hsize.toNat then s.argEntry else s.heapAt i := fun i => by
    rw [State.inserted, pqInsert_of_parent_le hparent, Queue.at_put]
    rfl
  exact ⟨_, exec_pqInsert_of_lt h, (hat _).trans (if_pos rfl), fun i hi => (hat i).trans (if_neg hi)⟩

/-- Settles O24: in heap order the root is a minimum, and the sift only exchanges the entries that are left. -/
theorem pqExtractMinRemovesAMinimum : Obligations.PqExtractMinRemovesAMinimum := by
  intro s h hordered
  have hroot : s.QueueOrdered := (heapOrdered_iff s).mp hordered
  rcases pqExtractMin_cases s.heapFill s.queue with ⟨h0, -⟩ | ⟨-, hresult, hsize⟩
  · exact absurd h0 h
  have hexec := exec_pqExtractMin s
  rw [State.extracted, hresult, hsize] at hexec
  have hperm : s.queueList.Perm (s.heapAt 0 :: s.extracted.2.toList s.heapFill) :=
    pqExtractMin_perm (q := s.queue) h
  rw [Queue.toList, State.extracted, hsize] at hperm
  exact ⟨_, hexec, ⟨rfl, rfl, rfl, rfl, rfl, rfl⟩, rfl, fun _ he => hroot.root_le_mem he, hperm, fun _ hi =>
    pqExtractMin_find?_of_le h hi⟩

/-- Settles O25: the empty queue is left as it is. -/
theorem pqExtractMinFromAnEmptyQueue : Obligations.PqExtractMinFromAnEmptyQueue := by
  intro s h
  have hexec := exec_pqExtractMin s
  rcases pqExtractMin_cases s.heapFill s.queue with ⟨-, e⟩ | ⟨hne, -⟩
  · rw [State.extracted, e] at hexec
    exact ⟨_, hexec, ⟨rfl, rfl, rfl, rfl, rfl, rfl⟩, rfl⟩
  · exact absurd h hne

/-- Settles O26: the index chosen decides the pass of the sift, and the sift never returns to the right child of the
root after it has gone left. -/
theorem extractPromotesTheLeftOfEqualChildren : Obligations.ExtractPromotesTheLeftOfEqualChildren := by
  refine ⟨fun fill q i passes hr => ⟨fun hlr hlt => ?left, fun hrl hlt => ?right, fun hl hr => ?stays⟩, ?root⟩
  case left =>
    have h := Queue.smallest_eq_left hr hlr hlt
    exact ⟨h, Queue.siftDown_of_smallest_ne passes h (by omega)⟩
  case right =>
    have h := Queue.smallest_eq_right hr hrl hlt
    exact ⟨h, Queue.siftDown_of_smallest_ne passes h (by omega)⟩
  case stays =>
    have h := Queue.smallest_eq_self hl hr
    exact ⟨h, Queue.siftDown_of_smallest_eq passes h⟩
  case root =>
    exact fun s hn heq hlt => ⟨_, exec_pqExtractMin s, pqExtractMin_of_equal_children hn heq hlt⟩

end Sys2Proof.Machine
end

section
/-! SUPPORT. TREE_BUILD as a command (42_tree_builder.md R151 to R157): what it leaves whatever the table, and what the
tree of a sound table is. -/

namespace Sys2Proof.Machine

/-! ## What the leaves and the merges leave, whatever the table -/

theorem Build.find?_firstLeaves_node (s : State) {n k : Nat} (h : n ≤ k) :
    Mem.find? (Build.firstLeaves s n).node k = Mem.find? s.node k := by
  induction n with
  | zero => rfl
  | succ n ih =>
    rw [Build.firstLeaves_succ]
    exact (Mem.find?_put_of_ne _ _ (by omega)).trans (ih (by omega))

theorem Build.find?_firstLeaves_heap (s : State) {n k : Nat} (hn : n ≤ 511) (h : n ≤ k) :
    Mem.find? (Build.firstLeaves s n).queue.heap k = Mem.find? s.heap k := by
  induction n with
  | zero => rfl
  | succ n ih =>
    have hsize := Build.firstLeaves_hsize s (n := n) (by omega)
    rw [Build.firstLeaves_succ]
    exact (pqInsert_find?_of_lt _ _ _ (by omega)).trans (ih (by omega) (by omega))

/-- While a tree is built from the table of `s`, sound or not: the sizes, the entry of the node made last, which is
still in the queue, the leaves, and the words of NODE and HEAP that no pass writes. -/
structure Build.Grown (s : State) (b : Build) : Prop where
  sized : b.Sized s.k.toNat
  newest : ∃ e ∈ b.queue.toList s.heapFill, e.node + 1 = b.nn
  leaves : ∀ j < s.k.toNat, (s.leafOf j).StandsIn b.node
  node : ∀ n, 2 * s.k.toNat - 1 ≤ n → Mem.find? b.node n = Mem.find? s.node n
  heap : ∀ i, s.k.toNat ≤ i → Mem.find? b.queue.heap i = Mem.find? s.heap i

section
variable {s : State}

theorem State.k_pos (hk : s.k ≠ 0) : 0 < s.k.toNat := Nat.pos_of_ne_zero fun h => hk (BitVec.eq_of_toNat_eq h)

/-- After step 1 the last leaf is the newest node. -/
theorem Build.leaves_grown (hk : s.k ≠ 0) : (Build.leaves s).Grown s where
  sized := Build.leaves_sized s
  newest := by
    have hpos := State.k_pos hk
    have hlt := s.k.isLt
    have hlast : (s.leafOf (s.k.toNat - 1)).entry ∈ (Build.leaves s).queue.toList s.heapFill :=
      (Build.firstLeaves_entries s (Nat.le_of_lt_succ hlt)).mem_iff.mpr
        (List.mem_map.mpr ⟨s.k.toNat - 1, List.mem_range.mpr (by omega), rfl⟩)
    refine ⟨_, hlast, BitVec.eq_of_toNat_eq ?_⟩
    show (BitVec.ofNat 9 (s.k.toNat - 1) + 1).toNat = s.k.toNat
    rw [BitVec.toNat_add, BitVec.toNat_ofNat]
    show ((s.k.toNat - 1) % 512 + 1) % 512 = s.k.toNat
    omega
  leaves := Build.firstLeaves_stand s _
  node n hn := Build.find?_firstLeaves_node s (by have := State.k_pos hk; omega)
  heap i hi := Build.find?_firstLeaves_heap s (Nat.le_of_lt_succ s.k.isLt) hi

/-- A merge writes node NN, which is no leaf and below 2K − 1, and entries of HEAP among the queue's own. -/
theorem Build.Grown.merge {b : Build} (h : b.Grown s) (hk : s.k.toNat ≤ numSymbols) (hsize : 1 < b.queue.hsize.toNat) :
    (b.merge s.cfg s.heapFill).Grown s := by
  have hsum := h.sized.sum
  have hle := h.sized.hsize_le
  have hx0 : b.queue.hsize ≠ 0 := Queue.hsize_ne_zero (by omega)
  have hx := pqExtractMin_hsize_toNat (fill := s.heapFill) hx0
  have hy0 : (pqExtractMin s.heapFill b.queue).2.hsize ≠ 0 := Queue.hsize_ne_zero (by omega)
  have hy := pqExtractMin_hsize_toNat (fill := s.heapFill) hy0
  refine
    { sized := h.sized.merge hk hsize
      newest := ⟨_, (pqInsert_perm _ _ _ ?_).mem_iff.mpr List.mem_cons_self, rfl⟩
      leaves := fun j hj => (h.leaves j hj).put ?_ _
      node := fun n hn => (Mem.find?_put_of_ne _ _ ?_).trans (h.node n hn)
      heap := fun i hi => ?_ }
  · unfold numSymbols at hk
    omega
  · simp only [State.leafOf, HTree.nums, List.mem_singleton]
    omega
  · omega
  · calc Mem.find? (b.merge s.cfg s.heapFill).queue.heap i
        = Mem.find? (pqExtractMin s.heapFill (pqExtractMin s.heapFill b.queue).2).2.heap i :=
          pqInsert_find?_of_lt _ _ _ (by omega)
      _ = Mem.find? (pqExtractMin s.heapFill b.queue).2.heap i := pqExtractMin_find?_of_le hy0 (by omega)
      _ = Mem.find? b.queue.heap i := pqExtractMin_find?_of_le hx0 (by omega)
      _ = Mem.find? s.heap i := h.heap i hi

/-- The one entry left is the newest node's. -/
theorem Build.Grown.root_node {b : Build} (h : b.Grown s) (hone : b.queue.hsize.toNat = 1) :
    (b.queue.at s.heapFill 0).node + 1 = b.nn := by
  obtain ⟨e, he, hnode⟩ := h.newest
  obtain rfl : e = b.queue.at s.heapFill 0 := by simpa [Queue.toList, hone] using he
  exact hnode

/-! ## The command -/

/-- NODE, NN and the queue after step 2. -/
def State.built (s : State) : Build := Build.mergeAll s.cfg s.heapFill s.k.toNat (Build.leaves s)

/-- The root of the queue after step 2, the entry of the whole tree. -/
def State.rootEntry (s : State) : HeapEntry := s.built.queue.at s.heapFill 0

/-- The queue TREE_BUILD leaves: the whole tree's entry is taken out. -/
def State.drained (s : State) : Queue := (pqExtractMin s.heapFill s.built.queue).2

theorem exec_treeBuild_of_eq_zero (hk : s.k = 0) :
    exec .treeBuild s = .next (((s.accept .tree).setTreeValid false).raise .emptyInput 0 0) := by
  refine exec_next_iff.mpr ?_
  rcases treeBuildBody_cases (s.accept .tree) with ⟨-, e⟩ | ⟨hne, -⟩
  · exact (congrArg Ran.complete e).symm
  · exact absurd hk hne

section
variable (hk : s.k ≠ 0) (hle : s.k.toNat ≤ numSymbols)
include hk hle

theorem State.built_grown : s.built.Grown s :=
  Build.mergeAll_induction (P := Build.Grown s) (fun _ h => h.merge hle) _ (Build.leaves_grown hk)

theorem State.built_hsize : s.built.queue.hsize.toNat = 1 := by
  have hpos := State.k_pos hk
  have hsize := Build.leaves_hsize s
  exact (Build.leaves_sized s).mergeAll_hsize hle _ (by omega) (by omega)

theorem exec_treeBuild_of_ne_zero :
    exec .treeBuild s =
      .next (((((s.accept .tree).setTree s.built.node s.built.nn s.rootEntry.node).setQueue s.drained.heap 0).setResult
        false s.rootEntry).setTreeValid true).finish := by
  have hone : s.built.queue.hsize = 1 := BitVec.eq_of_toNat_eq (State.built_hsize hk hle)
  refine exec_next_iff.mpr ?_
  rcases treeBuildBody_cases (s.accept .tree) with ⟨h0, -⟩ | ⟨-, b, x, hb, hx, e⟩
  · exact absurd h0 hk
  obtain rfl : b = s.built := hb
  obtain rfl : x = pqExtractMin s.heapFill s.built.queue := hx
  rcases pqExtractMin_cases s.heapFill s.built.queue with ⟨h0, -⟩ | ⟨-, hresult, hsize⟩
  · rw [hone] at h0
    cases h0
  rw [hone] at hsize
  refine .trans ?_ (congrArg Ran.complete e).symm
  rw [hresult, hsize]
  rfl

end

end

/-- Settles O30: acceptance and `raise` write only what every command writes, and TREE_VALID is cleared before. -/
theorem treeBuildOfAnEmptyTableFails : Obligations.TreeBuildOfAnEmptyTableFails := fun _ hk =>
  ⟨_, exec_treeBuild_of_eq_zero hk, ⟨rfl, rfl, rfl, rfl, rfl, Nat.zero_mod _⟩, rfl⟩

/-- Settles O31: the leaves and every merge keep Build.Grown, and one entry is left in the queue. -/
theorem treeBuildCompletes : Obligations.TreeBuildCompletes := by
  intro s hk hle
  have h := State.built_grown hk hle
  have hone := State.built_hsize hk hle
  have hsum := h.sized.sum
  have hnn : s.built.nn.toNat = 2 * s.k.toNat - 1 := by omega
  refine ⟨_, exec_treeBuild_of_ne_zero hk hle, ⟨rfl, rfl, rfl, rfl, rfl, rfl⟩, rfl, hnn, ?root, fun j hj => ?leaf,
    fun n hn => h.node n (hnn.symm.trans_le hn), fun i hi => ?heap⟩
  case root =>
    have hroot := congrArg BitVec.toNat (h.root_node hone)
    rw [BitVec.toNat_add] at hroot
    change (s.rootEntry.node.toNat + 1) % 512 = _ at hroot
    have hlt : s.rootEntry.node.toNat < 512 := s.rootEntry.node.isLt
    have hpos := State.k_pos hk
    show s.rootEntry.node.toNat = _
    omega
  case leaf => exact congrArg (Option.getD · _) (h.leaves j hj)
  case heap =>
    exact (pqExtractMin_find?_of_le (Queue.hsize_ne_zero (by omega)) (by omega)).trans (h.heap i hi)

/-! ## The tree of a sound table -/

/-- Each internal node on a longest path has a leaf off that path. -/
theorem HTree.depth_lt_leaves (t : HTree) : t.depth < t.leaves.length := by
  induction t with
  | leaf n sym f => exact Nat.zero_lt_one
  | node n f l r ihl ihr =>
    simp only [HTree.depth, HTree.leaves, List.length_append]
    omega

/-- Settles O32: the forest after the last merge is one tree. -/
theorem treeBuildBuildsAHuffmanTree : Obligations.TreeBuildBuildsAHuffmanTree := by
  intro s hok hk
  have htable : s.TableSound := (tableOk_iff s).mp hok
  have hle : s.k.toNat ≤ 256 := htable.k_le
  obtain ⟨T, hT, hnn, -⟩ := Build.mergeAll_tree htable hk (b := s.built) rfl
  have hone := State.built_hsize hk hle
  have hentry : s.rootEntry = T.entry := by
    simpa [State.rootEntry, Queue.toList, hone] using hT.entries
  have hnum := hT.root_num
  have hleaves : T.leaves.Perm ((List.range s.k.toNat).map fun j => (j, s.ordAt j)) := by simpa using hT.leaves
  have htotal : T.freq = s.totalCount := by simpa using hT.total
  refine ⟨_, T, exec_treeBuild_of_ne_zero hk hle, rfl, ?tree, hT.spans htable hnn, ?symbols, ?depth, htotal, ?sum⟩
  case tree =>
    have hroot : s.rootEntry.node.toNat = T.num := by
      rw [hentry]
      exact Nat.mod_eq_of_lt (show T.num < 512 by omega)
    show treeBelow _ nodeCap s.rootEntry.node.toNat = some T
    rw [hroot]
    exact (hT.stands T List.mem_cons_self).treeBelow_eq (fun n v hn => congrArg (Option.getD · _) hn)
      (show T.num < 511 by omega) (by omega)
  case symbols => simpa [State.tableSymbols, Function.comp_def] using hleaves.map Prod.snd
  case depth => simpa [hleaves.length_eq] using T.depth_lt_leaves
  case sum => exact (congrArg HeapEntry.freq hentry).trans htotal

/-- Settles O33: the one leaf is the whole tree, and nothing is merged. -/
theorem treeBuildOfOneSymbol : Obligations.TreeBuildOfOneSymbol := by
  intro s hk
  have hk1 : s.k.toNat = 1 := congrArg BitVec.toNat hk
  have hk0 : s.k ≠ 0 := by rw [hk]; decide
  have hle : s.k.toNat ≤ numSymbols := by rw [hk1]; decide
  have hsize := Build.leaves_hsize s
  have hbuilt : s.built = Build.leaves s := by
    rw [State.built, hk1]
    exact if_neg (by omega)
  have hentry : s.rootEntry = (s.leafOf 0).entry := by
    have hentries : ((Build.leaves s).queue.toList s.heapFill).Perm _ :=
      Build.firstLeaves_entries s (Nat.le_of_lt_succ s.k.isLt)
    simpa [State.rootEntry, hbuilt, Queue.toList, hsize, hk1] using hentries
  have hexec := exec_treeBuild_of_ne_zero hk0 hle
  have hleaf : (s.leafOf 0).StandsIn s.built.node := (State.built_grown hk0 hle).leaves 0 (by omega)
  rw [hentry] at hexec
  exact ⟨_, hexec, congrArg (Option.getD · _) hleaf, (congrArg Build.nn hbuilt).trans hk, rfl, rfl, rfl, rfl, rfl⟩

end Sys2Proof.Machine
end

section
/-! SUPPORT. CODE_ASSIGN (43_code_assigner.md R166 to R171): the walk writes the branch bits to each leaf as the code of
its symbol, and no path to a leaf begins the path to another. -/

namespace Sys2Proof.Machine

/-! ## Bit strings in the words of CLEN, CBITS and STK (10_state.md R39, R40, R42) -/

/-- The word of CBITS that holds a bit string, its first bit lowest. -/
def pathWord (bits : List Bool) : Path := (BitVec.ofBoolListLE bits).setWidth 255

/-- The word of CLEN for a bit string. -/
def lenWord (bits : List Bool) : Byte := BitVec.ofNat 8 bits.length

/-- The stack entry of a node reached by these branch bits. -/
def StkEntry.along (n : NodeNo) (bits : List Bool) : StkEntry :=
  { node := n, len := lenWord bits, path := pathWord bits }

theorem pathWord_getLsbD (bits : List Bool) (i : Nat) :
    (pathWord bits).getLsbD i = (decide (i < 255) && bits.getD i false) := by
  rw [pathWord, BitVec.getLsbD_setWidth, BitVec.getLsbD_ofBoolListLE]

theorem pathWord_toNat_lt (bits : List Bool) : (pathWord bits).toNat < 2 ^ bits.length := by
  rw [pathWord, BitVec.toNat_setWidth]
  exact (Nat.mod_le _ _).trans_lt (BitVec.isLt _)

theorem lenWord_toNat {bits : List Bool} (h : bits.length ≤ 255) : (lenWord bits).toNat = bits.length :=
  Nat.mod_eq_of_lt (Nat.lt_succ_of_le h)

theorem lenWord_append (bits : List Bool) (b : Bool) : lenWord (bits ++ [b]) = lenWord bits + 1 := by
  simp [lenWord, BitVec.ofNat_add]

/-- Descending left leaves the bit at the end of the path 0. -/
theorem pathWord_append_false (bits : List Bool) : pathWord (bits ++ [false]) = pathWord bits := by
  refine BitVec.eq_of_getLsbD_eq fun i _ => ?_
  rw [pathWord_getLsbD, pathWord_getLsbD]
  congr 1
  rcases Nat.lt_or_ge i bits.length with hi | hi
  · exact List.getD_append _ _ _ _ hi
  · rw [List.getD_append_right _ _ _ _ hi, List.getD_eq_default _ _ hi]
    cases i - bits.length <;> rfl

/-- Descending right sets it. -/
theorem pathWord_append_true {bits : List Bool} (h : bits.length < 255) :
    pathWord (bits ++ [true]) = pathRight (pathWord bits) (lenWord bits) := by
  refine BitVec.eq_of_getLsbD_eq fun i hi => ?_
  rw [pathRight, lenWord_toNat h.le, BitVec.getLsbD_or, pathWord_getLsbD, pathWord_getLsbD, BitVec.getLsbD_shiftLeft]
  rcases Nat.lt_trichotomy i bits.length with hlt | rfl | hgt
  · simp [hi, hlt, List.getElem?_append_left]
  · simp [h]
  · have hone : i - bits.length ≠ 0 := by omega
    simp [hi, hgt.not_gt, List.getElem?_append_right hgt.le, hone]

/-! ## The table being written -/

/-- CLEN and CBITS hold this bit string as the code of `b`. -/
def Walk.Holds (w : Walk) (b : Byte) (bits : List Bool) : Prop :=
  clenWord w.clen b.toNat = lenWord bits ∧ Mem.find? w.cbits b.toNat = some (pathWord bits)

/-- A symbol and its bit string written as the walk writes them. -/
def Walk.write (w : Walk) (p : Byte × List Bool) : Walk := w.assign p.1 (lenWord p.2) (pathWord p.2)

/-- Writing the table leaves the stack alone and does not look at it. -/
theorem Walk.foldl_write_stk (ps : List (Byte × List Bool)) (w : Walk) (stk : List StkEntry) :
    ps.foldl Walk.write { w with stk := stk } = { ps.foldl Walk.write w with stk := stk } := by
  induction ps generalizing w with
  | nil => rfl
  | cons p ps ih => exact ih (w.write p)

theorem Walk.holds_cleared (stk : List StkEntry) (b : Byte) : (Walk.cleared stk).Holds b [] := by
  obtain ⟨hsorted, -⟩ := Mem.wf_iff.mp (Walk.cleared_fits stk).cbits
  exact ⟨rfl, (Mem.find?_eq_some_iff hsorted).mpr (List.mem_map.mpr ⟨b.toNat, List.mem_range.mpr b.isLt, rfl⟩)⟩

theorem Walk.holds_write_self (w : Walk) (p : Byte × List Bool) : (w.write p).Holds p.1 p.2 :=
  ⟨(w.clen_assign ..).trans (if_pos rfl), (w.cbits_assign ..).trans (if_pos rfl)⟩

theorem Walk.Holds.write {w : Walk} {b : Byte} {bits : List Bool} (h : w.Holds b bits) {p : Byte × List Bool}
    (hb : b ≠ p.1) : (w.write p).Holds b bits := by
  obtain ⟨hlen, hbits⟩ := h
  have hne : b.toNat ≠ p.1.toNat := fun e => hb (BitVec.eq_of_toNat_eq e)
  exact ⟨(w.clen_assign ..).trans ((if_neg hne).trans hlen), (w.cbits_assign ..).trans ((if_neg hne).trans hbits)⟩

theorem Walk.Holds.foldl_write {b : Byte} {bits : List Bool} (ps : List (Byte × List Bool)) {w : Walk}
    (h : w.Holds b bits) (hb : b ∉ ps.map Prod.fst) : (ps.foldl Walk.write w).Holds b bits := by
  induction ps generalizing w with
  | nil => exact h
  | cons p ps ih =>
    obtain ⟨hne, hnot⟩ := not_or.mp (List.mem_cons.not.mp hb)
    exact ih (h.write hne) hnot

/-- Of distinct symbols each has the bit string it was written with. -/
theorem Walk.holds_foldl_write {ps : List (Byte × List Bool)} (hps : (ps.map Prod.fst).Nodup) (w : Walk)
    {p : Byte × List Bool} (hp : p ∈ ps) : (ps.foldl Walk.write w).Holds p.1 p.2 := by
  induction ps generalizing w with
  | nil => cases hp
  | cons q ps ih =>
    obtain ⟨hq, hps⟩ := List.nodup_cons.mp hps
    rcases List.mem_cons.mp hp with rfl | hp
    · exact (w.holds_write_self p).foldl_write ps hq
    · exact ih hps _ hp

/-! ## The paths of a tree -/

/-- The branch bits to each leaf of a tree that is reached by `pre`. -/
def HTree.pathsFrom (t : HTree) (pre : List Bool) : List (Byte × List Bool) :=
  t.paths.map fun p => (p.1, pre ++ p.2)

@[simp] theorem HTree.pathsFrom_nil (t : HTree) : t.pathsFrom [] = t.paths := List.map_id _

@[simp] theorem HTree.pathsFrom_leaf (n : Nat) (sym : Byte) (f : Nat) (pre : List Bool) :
    (HTree.leaf n sym f).pathsFrom pre = [(sym, pre)] := by simp [HTree.pathsFrom, HTree.paths]

@[simp] theorem HTree.pathsFrom_node (n f : Nat) (l r : HTree) (pre : List Bool) :
    (HTree.node n f l r).pathsFrom pre = l.pathsFrom (pre ++ [false]) ++ r.pathsFrom (pre ++ [true]) := by
  simp [HTree.pathsFrom, HTree.paths, Function.comp_def]

theorem HTree.paths_map_fst (t : HTree) : t.paths.map Prod.fst = t.leaves.map Prod.snd := by
  induction t with
  | leaf n sym f => rfl
  | node n f l r ihl ihr => simp [HTree.paths, HTree.leaves, Function.comp_def, ← ihl, ← ihr]

theorem HTree.length_le_depth {t : HTree} {p : Byte × List Bool} (hp : p ∈ t.paths) : p.2.length ≤ t.depth := by
  induction t generalizing p with
  | leaf n sym f => simp_all [HTree.paths]
  | node n f l r ihl ihr =>
    simp only [HTree.paths, List.mem_append, List.mem_map] at hp
    rcases hp with ⟨q, hq, rfl⟩ | ⟨q, hq, rfl⟩
    · exact Nat.succ_le_succ ((ihl hq).trans (le_max_left ..))
    · exact Nat.succ_le_succ ((ihr hq).trans (le_max_right ..))

/-- Two paths of which one begins the other end at one leaf: they part at no internal node, and below a leaf there is
nothing (43_code_assigner.md R171). -/
theorem HTree.symbol_eq_of_prefix {t : HTree} {a b : Byte} {p q : List Bool} (ha : (a, p) ∈ t.paths)
    (hb : (b, q) ∈ t.paths) (h : p <+: q) : a = b := by
  induction t generalizing p q with
  | leaf n sym f => simp_all [HTree.paths]
  | node n f l r ihl ihr =>
    simp only [HTree.paths, List.mem_append, List.mem_map] at ha hb
    rcases ha with ⟨⟨_, p⟩, ha, ⟨⟩⟩ | ⟨⟨_, p⟩, ha, ⟨⟩⟩ <;> rcases hb with ⟨⟨_, q⟩, hb, ⟨⟩⟩ | ⟨⟨_, q⟩, hb, ⟨⟩⟩
    · exact ihl ha hb (List.cons_prefix_cons.mp h).2
    · cases (List.cons_prefix_cons.mp h).1
    · cases (List.cons_prefix_cons.mp h).1
    · exact ihr ha hb (List.cons_prefix_cons.mp h).2

theorem HTree.codeTable_map_fst (t : HTree) : t.codeTable.map Prod.fst = t.leaves.map Prod.snd := by
  cases t with
  | leaf n sym f => rfl
  | node n f l r => exact HTree.paths_map_fst _

theorem HTree.code_length_le {t : HTree} (ht : t.depth ≤ 255) {p : Byte × List Bool} (hp : p ∈ t.codeTable) :
    p.2.length ≤ 255 := by
  cases t with
  | leaf n sym f =>
    obtain rfl := List.mem_singleton.mp hp
    exact Nat.one_le_ofNat
  | node n f l r => exact (HTree.length_le_depth hp).trans ht

theorem HTree.symbol_eq_of_code_prefix {t : HTree} {a b : Byte} {p q : List Bool} (ha : (a, p) ∈ t.codeTable)
    (hb : (b, q) ∈ t.codeTable) (h : p <+: q) : a = b := by
  cases t with
  | leaf n sym f => simp_all [HTree.codeTable]
  | node n f l r => exact HTree.symbol_eq_of_prefix ha hb h

/-! ## The walk -/

/-- What the tree below a node is, by the node's variant (10_state.md R37). -/
theorem treeBelow_cases {nodeAt : Nat → HuffNode} {depth n : Nat} {t : HTree}
    (h : treeBelow nodeAt (depth + 1) n = some t) :
    (∃ sym f, nodeAt n = .leaf sym f ∧ t = .leaf n sym f) ∨
      ∃ f left right l r, nodeAt n = .internal f left right ∧ t = .node n f l r ∧
        treeBelow nodeAt depth left.toNat = some l ∧ treeBelow nodeAt depth right.toNat = some r := by
  unfold treeBelow at h
  cases hn : nodeAt n with
  | leaf sym f =>
    rw [hn] at h
    exact .inl ⟨sym, f, rfl, (Option.some.inj h).symm⟩
  | internal f left right =>
    simp only [hn] at h
    split at h
    · split at h
      · exact .inr ⟨f, left, right, _, _, rfl, (Option.some.inj h).symm, ‹_›, ‹_›⟩
      · cases h
    · cases h

section
variable {nodeAt : Nat → HuffNode}

theorem Walk.run_of_stk_nil (pops : Nat) {w : Walk} (h : w.stk = []) : Walk.run nodeAt pops w = w := by
  cases pops with
  | zero => rfl
  | succ n => simp only [Walk.run, h]

/-- A popped leaf's symbol is written with the path to it. -/
theorem Walk.run_leaf {n : NodeNo} {sym : Byte} {f : Nat} (hn : nodeAt n.toNat = .leaf sym f) (pops : Nat)
    (bits : List Bool) (rest : List StkEntry) (w : Walk) :
    Walk.run nodeAt (pops + 1) { w with stk := .along n bits :: rest } =
      Walk.run nodeAt pops (Walk.write { w with stk := rest } (sym, bits)) :=
  congrArg (fun node => Walk.run nodeAt pops (Walk.visit node (.along n bits) { w with stk := rest })) hn

/-- A popped internal node's children are pushed with one branch bit more. -/
theorem Walk.run_internal {n left right : NodeNo} {f : Nat} (hn : nodeAt n.toNat = .internal f left right) (pops : Nat)
    {bits : List Bool} (hbits : bits.length < 255) (rest : List StkEntry) (w : Walk) :
    Walk.run nodeAt (pops + 1) { w with stk := .along n bits :: rest } =
      Walk.run nodeAt pops
        { w with stk := .along left (bits ++ [false]) :: .along right (bits ++ [true]) :: rest } := by
  simp only [StkEntry.along, lenWord_append, pathWord_append_false, pathWord_append_true hbits]
  exact congrArg (fun node => Walk.run nodeAt pops (Walk.visit node (.along n bits) { w with stk := rest })) hn

/-- The pops of a subtree write the paths to its leaves. -/
theorem Walk.run_subtree {depth : Nat} {n : NodeNo} {t : HTree} (ht : treeBelow nodeAt depth n.toNat = some t)
    (pops : Nat) {pre : List Bool} (hlen : pre.length + t.depth ≤ 255) (rest : List StkEntry) (w : Walk) :
    Walk.run nodeAt (t.nums.length + pops) { w with stk := .along n pre :: rest } =
      Walk.run nodeAt pops ((t.pathsFrom pre).foldl Walk.write { w with stk := rest }) := by
  induction depth generalizing n t pops pre rest w with
  | zero => cases ht
  | succ depth ih =>
    rcases treeBelow_cases ht with ⟨sym, f, hn, rfl⟩ | ⟨f, left, right, l, r, hn, rfl, hl, hr⟩
    · rw [HTree.pathsFrom_leaf, Nat.add_comm]
      exact Walk.run_leaf hn pops pre rest w
    · simp only [HTree.depth] at hlen
      have hpops : (HTree.node n.toNat f l r).nums.length + pops = l.nums.length + (r.nums.length + pops) + 1 := by
        simp only [HTree.nums, List.length_cons, List.length_append]
        omega
      rw [hpops, Walk.run_internal hn _ (by omega), ih hl _ (by simp; omega)]
      rw [HTree.pathsFrom_node, List.foldl_append, Walk.foldl_write_stk, ih hr _ (by simp; omega),
        ← Walk.foldl_write_stk]

/-- The whole table of a tree is written into a cleared one. -/
theorem Walk.table_eq {root : NodeNo} {t : HTree} (ht : treeBelow nodeAt nodeCap root.toNat = some t)
    (hdepth : t.depth ≤ 255) (hnums : t.nums.length ≤ nodeCap) :
    Walk.table nodeAt root = t.codeTable.foldl Walk.write (Walk.cleared []) := by
  obtain ⟨pops, hpops⟩ := Nat.exists_eq_add_of_le hnums
  unfold Walk.table
  rcases treeBelow_cases ht with ⟨sym, f, hn, rfl⟩ | ⟨f, left, right, l, r, hn, rfl, -⟩ <;> simp only [hn]
  · rfl
  · rw [hpops]
    have h := Walk.run_subtree ht pops (pre := []) (by simpa using hdepth) [] (Walk.cleared [])
    rw [HTree.pathsFrom_nil] at h
    exact h.trans (Walk.run_of_stk_nil _ (congrArg Walk.stk (Walk.foldl_write_stk ..)))

section
variable {root : NodeNo} {t : HTree} (ht : treeBelow nodeAt nodeCap root.toNat = some t) (hdepth : t.depth ≤ 255)
  (hnums : t.nums.length ≤ nodeCap)
include ht hdepth hnums

theorem Walk.holds_table (hsyms : (t.leaves.map Prod.snd).Nodup) {p : Byte × List Bool} (hp : p ∈ t.codeTable) :
    (Walk.table nodeAt root).Holds p.1 p.2 := by
  rw [Walk.table_eq ht hdepth hnums]
  exact Walk.holds_foldl_write (t.codeTable_map_fst ▸ hsyms) _ hp

theorem Walk.holds_nil_table {b : Byte} (hb : b ∉ t.leaves.map Prod.snd) : (Walk.table nodeAt root).Holds b [] := by
  rw [Walk.table_eq ht hdepth hnums]
  exact (Walk.holds_cleared [] b).foldl_write _ (t.codeTable_map_fst ▸ hb)

end

end

/-! ## The codes of a state -/

section
variable {t : State} {w : Walk} (ht : t.codes = (w.clen, w.cbits)) {b : Byte} {bits : List Bool} (h : w.Holds b bits)
include ht h

theorem State.cbitsAt_of_holds : t.cbitsAt b.toNat = pathWord bits := by
  obtain ⟨-, hbits⟩ := h
  rw [State.cbitsAt, show t.cbits = w.cbits from congrArg Prod.snd ht, hbits]
  rfl

variable (hlen : bits.length ≤ 255)
include hlen

theorem State.codeLen_of_holds : t.codeLen b = bits.length := by
  obtain ⟨hword, -⟩ := h
  rw [State.codeLen, State.clenAt, show t.clen = w.clen from congrArg Prod.fst ht, hword, lenWord_toNat hlen]

theorem State.code_of_holds : t.code b = bits := by
  have hcodeLen := State.codeLen_of_holds ht h hlen
  refine List.ext_getElem ((t.length_code b).trans hcodeLen) fun i hi hi' => ?_
  have hlt : i < 255 := hi'.trans_le hlen
  simp only [State.code, State.codeBit, List.getElem_map, List.getElem_range, State.cbitsAt_of_holds ht h,
    pathWord_getLsbD]
  simp [hlt, hi']

theorem State.cbitsAt_lt_of_holds : (t.cbitsAt b.toNat).toNat < 2 ^ t.codeLen b := by
  rw [State.codeLen_of_holds ht h hlen, State.cbitsAt_of_holds ht h]
  exact pathWord_toNat_lt bits

end

/-! ## The command -/

theorem exec_codeAssign_of_treeValid {s : State} (h : s.status.treeValid = true) :
    exec .codeAssign s =
      .next ((s.accept .code).setCodes (Walk.table s.nodeAt s.root).clen (Walk.table s.nodeAt s.root).cbits).finish := by
  refine exec_next_iff.mpr ?_
  rcases codeAssignBody_cases (s.accept .code) with ⟨hinvalid, -⟩ | ⟨-, e⟩
  · exact absurd (hinvalid.symm.trans h) (by decide)
  · exact (congrArg Ran.complete e).symm

theorem treeValid_of_exec_codeAssign {s t : State} (hexec : exec .codeAssign s = .next t)
    (herr : t.status.err = .noError) : s.status.treeValid = true := by
  rcases codeAssignBody_cases (s.accept .code) with ⟨-, e⟩ | ⟨hvalid, -⟩
  · rw [(exec_next_iff.mp hexec).trans (congrArg Ran.complete e)] at herr
    cases herr
  · exact hvalid

/-- A tree of NODE has at most 256 leaves, so the bounds of CBITS and of the walk hold. -/
theorem HTree.bounds_of_spans {t : HTree} {nn : BitVec 9} (h : t.spans nn.toNat = true) :
    t.depth ≤ 255 ∧ t.nums.length ≤ nodeCap ∧ (t.leaves.map Prod.snd).Nodup := by
  simp only [HTree.spans, Bool.and_eq_true, decide_eq_true_eq] at h
  obtain ⟨⟨⟨⟨⟨⟨hnums, -⟩, -⟩, hleaves⟩, -⟩, hsyms⟩, -⟩ := h
  have hlt := nn.isLt
  have hdepth := t.depth_lt_leaves
  exact ⟨by omega, by unfold nodeCap; omega, hsyms⟩

/-- Settles O35: the walk writes the code table of the tree into the cleared memories. -/
theorem codeAssignGivesRootToLeafPaths : Obligations.CodeAssignGivesRootToLeafPaths := by
  intro s T hvalid htree hspans
  obtain ⟨hdepth, hnums, hsyms⟩ := HTree.bounds_of_spans hspans
  refine ⟨_, exec_codeAssign_of_treeValid hvalid, ⟨rfl, rfl, rfl, rfl, rfl, rfl⟩, rfl, fun p hp => ?path,
    fun b hb => ?none, fun b => ?bits⟩
  case path =>
    exact State.code_of_holds rfl (Walk.holds_table htree hdepth hnums hsyms hp) (HTree.code_length_le hdepth hp)
  case none => exact State.codeLen_of_holds rfl (Walk.holds_nil_table htree hdepth hnums hb) (Nat.zero_le _)
  case bits =>
    by_cases hb : b ∈ T.leaves.map Prod.snd
    · rw [← T.codeTable_map_fst] at hb
      obtain ⟨p, hp, rfl⟩ := List.mem_map.mp hb
      have hholds := Walk.holds_table htree hdepth hnums hsyms hp
      exact State.cbitsAt_lt_of_holds rfl hholds (HTree.code_length_le hdepth hp)
    · exact State.cbitsAt_lt_of_holds rfl (Walk.holds_nil_table htree hdepth hnums hb) (Nat.zero_le _)

/-- Settles O36: the tree below ROOT is the leaf, whose code table is the one bit. -/
theorem codeAssignOfOneLeaf : Obligations.CodeAssignOfOneLeaf := by
  intro s sym f hvalid hleaf
  have htree : treeBelow s.nodeAt nodeCap s.root.toNat = some (.leaf s.root.toNat sym f) := by
    simp only [nodeCap, treeBelow, hleaf]
  have hdepth : (HTree.leaf s.root.toNat sym f).depth ≤ 255 := Nat.zero_le _
  have hnums : (HTree.leaf s.root.toNat sym f).nums.length ≤ nodeCap := Nat.one_le_ofNat
  have hsym : (Walk.table s.nodeAt s.root).Holds sym [false] :=
    Walk.holds_table htree hdepth hnums (List.nodup_singleton sym) List.mem_cons_self
  refine ⟨_, exec_codeAssign_of_treeValid hvalid, State.code_of_holds rfl hsym (by decide),
    (State.cbitsAt_of_holds rfl hsym).trans (by decide), fun b hb => ?_⟩
  have hnone := Walk.holds_nil_table htree hdepth hnums (b := b) fun h => hb (List.mem_singleton.mp h)
  exact State.codeLen_of_holds rfl hnone (Nat.zero_le _)

/-- Settles O37: the codes are paths to leaves, of which none begins another. -/
theorem assignedCodesArePrefixFree : Obligations.AssignedCodesArePrefixFree := by
  intro s t hok hexec herr
  have hvalid := treeValid_of_exec_codeAssign hexec herr
  obtain ⟨-, -, T, htree, hspans⟩ := (treeOk_iff s).mp hok hvalid
  obtain ⟨t', hexec', -, -, hcode, hnone, -⟩ := codeAssignGivesRootToLeafPaths s T hvalid htree hspans
  obtain rfl : t = t' := (exec_next_iff.mp hexec).trans (exec_next_iff.mp hexec').symm
  have hmem : ∀ b, t.code b ≠ [] → (b, t.code b) ∈ T.codeTable := fun b hb => by
    have hleaf : b ∈ T.codeTable.map Prod.fst := by
      rw [T.codeTable_map_fst]
      exact Decidable.byContradiction fun h => hb (List.eq_nil_of_length_eq_zero ((t.length_code b).trans (hnone b h)))
    obtain ⟨p, hp, rfl⟩ := List.mem_map.mp hleaf
    exact (hcode p hp).symm ▸ hp
  exact fun a b hab ha hb hprefix => hab (HTree.symbol_eq_of_code_prefix (hmem a ha) (hmem b hb) hprefix)

end Sys2Proof.Machine
end

section
/-! SUPPORT. PACK emits the container of its input (44_bit_packer.md R181 to R189): the header loop emits the header
string, and the bits shifted in come out as the bytes of the payload. -/

namespace Sys2Proof.Machine

/-! ## The header -/

theorem Packer.emitPair_of_nil {code : Byte → List Bool} {sym : Byte} (h : code sym = []) (acc : Bool × Packer) :
    Packer.emitPair code acc sym = acc := if_pos (List.length_eq_zero_iff.mpr h)

/-- A symbol with a code emits its pair, behind a comma unless it is the first. -/
theorem Packer.emitPair_of_ne_nil {code : Byte → List Bool} {sym : Byte} (h : code sym ≠ []) (first : Bool)
    (p : Packer) :
    Packer.emitPair code (first, p) sym =
      (false, p.emitAll ((if first then [] else [asciiComma]) ++ pairText code sym)) := by
  unfold Packer.emitPair
  rw [if_neg (mt List.length_eq_zero_iff.mp h), pairText, Packer.emitAll_append, Packer.emitAll_append]
  cases first <;> rfl

/-- The pairs of these symbols, in order (30_encoding.md R104). -/
def pairTexts (code : Byte → List Bool) (syms : List Byte) : List (List Byte) :=
  (syms.filter fun sym => code sym ≠ []).map (pairText code)

theorem pairTexts_cons_of_nil {code : Byte → List Bool} {sym : Byte} (h : code sym = []) (syms : List Byte) :
    pairTexts code (sym :: syms) = pairTexts code syms := by simp [pairTexts, h]

theorem pairTexts_cons_of_ne_nil {code : Byte → List Bool} {sym : Byte} (h : code sym ≠ []) (syms : List Byte) :
    pairTexts code (sym :: syms) = pairText code sym :: pairTexts code syms := by simp [pairTexts, h]

/-- Behind the first string, a separator stands before each. -/
theorem intercalate_cons_eq_flatMap {α : Type} (sep : α) (xs : List α) (xss : List (List α)) :
    [sep].intercalate (xs :: xss) = xs ++ xss.flatMap (sep :: ·) := by
  induction xss generalizing xs with
  | nil => simp
  | cons ys xss ih => simp [List.intercalate_cons_cons, ih]

/-- Behind the first pair, every further pair is emitted with a comma. -/
theorem Packer.foldl_emitPair_false (code : Byte → List Bool) (syms : List Byte) (p : Packer) :
    (syms.foldl (Packer.emitPair code) (false, p)).2 =
      p.emitAll ((pairTexts code syms).flatMap (asciiComma :: ·)) := by
  induction syms generalizing p with
  | nil => rfl
  | cons sym syms ih =>
    rw [List.foldl_cons]
    by_cases h : code sym = []
    · rw [Packer.emitPair_of_nil h, pairTexts_cons_of_nil h, ih]
    · rw [Packer.emitPair_of_ne_nil h, pairTexts_cons_of_ne_nil h, ih, ← Packer.emitAll_append, List.flatMap_cons,
        List.append_assoc]
      rfl

theorem Packer.foldl_emitPair_true (code : Byte → List Bool) (syms : List Byte) (p : Packer) :
    (syms.foldl (Packer.emitPair code) (true, p)).2 = p.emitAll ([asciiComma].intercalate (pairTexts code syms)) := by
  induction syms with
  | nil => rfl
  | cons sym syms ih =>
    rw [List.foldl_cons]
    by_cases h : code sym = []
    · rw [Packer.emitPair_of_nil h, pairTexts_cons_of_nil h, ih]
    · rw [Packer.emitPair_of_ne_nil h, pairTexts_cons_of_ne_nil h, Packer.foldl_emitPair_false,
        intercalate_cons_eq_flatMap, ← Packer.emitAll_append, List.append_assoc]
      rfl

/-- The header loop emits the header string (30_encoding.md R105). -/
theorem Packer.emitPairs_eq_header (code : Byte → List Bool) (p : Packer) :
    (allSymbols.foldl (Packer.emitPair code) (true, p)).2 = p.emitAll (header code) :=
  Packer.foldl_emitPair_true code allSymbols p

/-! ## Bit strings in groups of eight -/

/-- A bit string is shorter than a byte, or a byte and a bit string. -/
theorem bits_induction {P : List Bool → Prop} (short : ∀ bits, bits.length < 8 → P bits)
    (byte : ∀ bits rest, bits.length = 8 → P rest → P (bits ++ rest)) (bits : List Bool) : P bits := by
  by_cases h : bits.length < 8
  · exact short bits h
  · rw [← List.take_append_drop 8 bits]
    exact byte _ _ (List.length_take_of_le (Nat.le_of_not_lt h)) (bits_induction short byte _)
termination_by bits.length
decreasing_by rw [List.length_drop]; omega

theorem pack8_of_length_lt {bits : List Bool} (h : bits.length < 8) : pack8 bits = [] := by
  unfold pack8
  split
  · simp only [List.length_cons] at h
    omega
  · rfl

theorem pack8_append {bits : List Bool} (h : bits.length = 8) (rest : List Bool) :
    pack8 (bits ++ rest) = byteOfBits bits :: pack8 rest := by
  match bits, h with
  | [_, _, _, _, _, _, _, _], _ => rfl

theorem pack8_of_length_eq {bits : List Bool} (h : bits.length = 8) : pack8 bits = [byteOfBits bits] := by
  simpa [pack8_of_length_lt] using pack8_append h []

theorem length_pack8 (bits : List Bool) : (pack8 bits).length = bits.length / 8 := by
  induction bits using bits_induction with
  | short bits h => rw [pack8_of_length_lt h, Nat.div_eq_of_lt h, List.length_nil]
  | byte bits rest h ih => rw [pack8_append h, List.length_cons, ih, List.length_append, h]; omega

/-- A whole byte in front needs no padding. -/
theorem padded_append {bits : List Bool} (h : bits.length = 8) (rest : List Bool) :
    padded (bits ++ rest) = bits ++ padded rest := by
  rw [padded, padded, List.append_assoc, List.length_append, h, Nat.add_mod_left]

theorem length_padded (bits : List Bool) : (padded bits).length = bits.length + padCount bits.length := by
  rw [padded, List.length_append, List.length_replicate, padCount]

/-- The byte of a bit string and one bit more: the earlier bits move up (44_bit_packer.md R184). -/
theorem byteOfBits_append_singleton (bits : List Bool) (b : Bool) :
    byteOfBits (bits ++ [b]) = (byteOfBits bits <<< 1) ||| BitVec.setWidth 8 (BitVec.ofBool b) := by
  rw [byteOfBits, List.foldl_append, byteOfBits]
  generalize bits.foldl (fun n b => 2 * n + b.toNat) 0 = n
  have hhalf : (2 * n + b.toNat) / 2 = n := by have := b.toNat_lt; omega
  refine BitVec.eq_of_getLsbD_eq fun i hi => ?_
  rw [BitVec.getLsbD_or, BitVec.getLsbD_shiftLeft, BitVec.getLsbD_ofNat, BitVec.getLsbD_ofNat]
  cases i with
  | zero => cases b <;> simp
  | succ i => simp [Nat.testBit_succ, hhalf, hi, Nat.lt_of_succ_lt hi]

/-- Padding with zero bits is a shift (44_bit_packer.md R185). -/
theorem byteOfBits_append_replicate_false (bits : List Bool) (n : Nat) :
    byteOfBits (bits ++ List.replicate n false) = byteOfBits bits <<< n := by
  induction n with
  | zero => simp
  | succ n ih =>
    rw [List.replicate_succ', ← List.append_assoc, byteOfBits_append_singleton, ih, BitVec.shiftLeft_add]
    simp

/-! ## The payload -/

/-- No byte begun: ACC and ACCN are 0, as between header and payload. -/
def Packer.aligned (p : Packer) : Packer := { p with acc := 0, accn := 0 }

theorem Packer.emitAll_aligned (p : Packer) (xs : List Byte) : (p.emitAll xs).aligned = p.aligned.emitAll xs := by
  induction xs generalizing p with
  | nil => rfl
  | cons x xs ih => exact ih (p.emit x)

/-- Up to seven bits stand in ACC, and ACCN counts them. -/
theorem Packer.foldl_shiftBit_of_lt {bits : List Bool} (h : bits.length < 8) (p : Packer) :
    bits.foldl Packer.shiftBit p.aligned = { p with acc := byteOfBits bits, accn := bits.length } := by
  induction bits using List.reverseRecOn with
  | nil => rfl
  | append_singleton bits b ih =>
    rw [List.length_append, List.length_singleton] at h
    rw [List.foldl_append, ih (by omega), List.foldl_cons, List.foldl_nil, Packer.shiftBit,
      byteOfBits_append_singleton, List.length_append, List.length_singleton]
    exact if_neg (by simp; omega)

/-- The eighth bit completes a byte. -/
theorem Packer.foldl_shiftBit_of_eq {bits : List Bool} (h : bits.length = 8) (p : Packer) :
    bits.foldl Packer.shiftBit p.aligned = (p.emit (byteOfBits bits)).aligned := by
  rw [← bits.dropLast_append_getLast (List.ne_nil_of_length_pos (by omega)), List.foldl_append,
    Packer.foldl_shiftBit_of_lt (by rw [List.length_dropLast]; omega), byteOfBits_append_singleton]
  have hlast : bits.dropLast.length + 1 = 8 := by rw [List.length_dropLast]; omega
  exact if_pos hlast

/-- The bits shifted in come out as the bytes of the padded bit string. -/
theorem Packer.flush_foldl_shiftBit (bits : List Bool) (p : Packer) :
    (bits.foldl Packer.shiftBit p.aligned).flush.aligned = p.aligned.emitAll (pack8 (padded bits)) := by
  induction bits using bits_induction generalizing p with
  | short bits h =>
    rw [Packer.foldl_shiftBit_of_lt h, padded, Nat.mod_eq_of_lt h]
    rcases Nat.eq_zero_or_pos bits.length with h0 | hpos
    · obtain rfl := List.length_eq_zero_iff.mp h0
      rfl
    · rw [Nat.mod_eq_of_lt (by omega : 8 - bits.length < 8), pack8_of_length_eq (by simp; omega),
        byteOfBits_append_replicate_false, Packer.flush, if_neg hpos.ne']
      rfl
  | byte bits rest h ih =>
    rw [List.foldl_append, Packer.foldl_shiftBit_of_eq h, padded_append h, pack8_append h]
    exact ih (p.emit (byteOfBits bits))

theorem Packer.flush_foldl_shiftBits (code : Byte → List Bool) (input : List Byte) (p : Packer) :
    (input.foldl (fun p b => (code b).foldl Packer.shiftBit p) p.aligned).flush.aligned =
      p.aligned.emitAll (payload code input) := by
  rw [← List.foldl_flatMap]
  exact Packer.flush_foldl_shiftBit (bitBuffer code input) p

/-- PACK emits the length digits, `;`, the header string and the payload (44_bit_packer.md R181, R189). -/
theorem Packer.run_aligned (code : Byte → List Bool) (h : Nat) (input : List Byte) (obuf : List Host.Cell) :
    (Packer.run code h input obuf).aligned =
      Packer.emitAll { obuf := obuf, wp := 0, acc := 0, accn := 0 }
        (dec h ++ asciiSemicolon :: (header code ++ payload code input)) := by
  rw [Packer.emitAll_append, Packer.emitAll_cons, Packer.emitAll_append]
  refine (Packer.flush_foldl_shiftBits code input _).trans ?_
  rw [Packer.emitPairs_eq_header, Packer.emitAll_aligned]
  congr 2
  exact congrArg (Packer.emit · asciiSemicolon) (Packer.emitAll_aligned _ (dec h))

/-! ## The lengths -/

theorem length_bitBuffer (code : Byte → List Bool) (input : List Byte) :
    (bitBuffer code input).length = totalBits (fun b => (code b).length) input := by
  rw [bitBuffer, List.length_flatMap, totalBits_eq]

theorem length_payload (code : Byte → List Bool) (input : List Byte) :
    (payload code input).length = payloadLength (totalBits (fun b => (code b).length) input) := by
  rw [payload, length_pack8, length_padded, length_bitBuffer, payloadLength]

/-- TOTAL is the length of the container (44_bit_packer.md R181). -/
theorem length_container (code : Byte → List Bool) (input : List Byte) :
    (container code input).length =
      containerLength (headerLength fun b => (code b).length) (totalBits (fun b => (code b).length) input) := by
  rw [container, containerLength, List.length_append, List.length_cons, List.length_append, length_header,
    length_payload]
  omega

/-! ## The command

PACK computes its lengths from CLEN alone; they are those of the header, the code bits, the payload and the container of
the state's code table and input (44_bit_packer.md R181). -/

section
variable (s : State)

theorem State.headerLength_codeLen : headerLength s.codeLen = (header s.code).length := by
  simp [length_header]

theorem State.totalBits_codeLen : totalBits s.codeLen s.input = (bitBuffer s.code s.input).length := by
  simp [length_bitBuffer]

theorem State.payloadLength_codeLen :
    payloadLength (totalBits s.codeLen s.input) = (payload s.code s.input).length := by
  simp [length_payload]

theorem State.containerLength_codeLen :
    containerLength (headerLength s.codeLen) (totalBits s.codeLen s.input) = (container s.code s.input).length := by
  simp [length_container]

/-- The packer after pass 2. -/
def State.packer : Packer := Packer.run s.code (headerLength s.codeLen) s.input s.obuf

theorem State.packer_aligned :
    s.packer.aligned = Packer.emitAll { obuf := s.obuf, wp := 0, acc := 0, accn := 0 } (container s.code s.input) := by
  rw [State.packer, Packer.run_aligned, State.headerLength_codeLen, container]

theorem State.packer_wp : s.packer.wp = (container s.code s.input).length := by
  have h := congrArg Packer.wp s.packer_aligned
  rw [Packer.emitAll_wp, Nat.zero_add] at h
  exact h

/-- OBUF begins with the container and is as it was behind it. -/
theorem State.find?_packer_obuf (i : Nat) :
    Mem.find? s.packer.obuf i =
      if i < (container s.code s.input).length then (container s.code s.input)[i]? else Mem.find? s.obuf i := by
  have hobuf : s.packer.aligned.obuf = _ := congrArg Packer.obuf s.packer_aligned
  obtain ⟨-, -, -, hin, hout⟩ :=
    Packer.emitAll_eq { obuf := s.obuf, wp := 0, acc := 0, accn := 0 } (container s.code s.input)
  simp only [Nat.zero_add] at hin hout
  rw [show s.packer.obuf = _ from hobuf]
  split
  · exact hin i ‹_›
  · exact hout i (.inr (Nat.le_of_not_lt ‹_›))

/-- What PACK needs to succeed (44_bit_packer.md R181). -/
structure State.Packable : Prop where
  nonempty : 1 ≤ s.len
  fits : s.len ≤ s.cfg.ibufCap
  coded : ∀ b ∈ s.input, s.codeLen b ≠ 0
  room : (container s.code s.input).length ≤ s.cfg.obufCap

/-- What a successful PACK leaves. -/
def State.packed : State :=
  ((s.accept .pack).clearResults.setContainer s.packer.obuf (headerLength s.codeLen)
    (padCount (totalBits s.codeLen s.input)) (payloadLength (totalBits s.codeLen s.input)) s.packer.wp).finish

end

theorem exec_pack_of_body {s : State} {r : Ran} (h : packBody (s.accept .pack) = r) : exec .pack s = .next r.complete :=
  exec_next_iff.mpr (congrArg Ran.complete h.symm)

theorem exec_pack_of_packable {s : State} (h : s.Packable) : exec .pack s = .next s.packed := by
  rcases packBody_cases (s.accept .pack) with ⟨hlt, -⟩ | ⟨-, hzero, -⟩ | ⟨-, -, _, _, hmiss, -⟩ |
    ⟨-, -, -, _, _, rfl, rfl, ⟨hover, -⟩ | ⟨-, _, rfl, e⟩⟩
  · exact absurd h.fits (Nat.not_le.mpr hlt)
  · exact absurd hzero (Nat.ne_of_gt h.nonempty)
  · exact nomatch hmiss.symm.trans ((firstMissing_eq_none _ _ _).mpr h.coded)
  · exact absurd (s.containerLength_codeLen.trans_le h.room) (Nat.not_le.mpr hover)
  · exact exec_pack_of_body e

section
variable {s : State} (h : s.Packable)
include h

/-- The container fits OBUF, so its length fits OUT_LEN. -/
theorem State.outLen_packed : s.packed.outLen = (container s.code s.input).length :=
  (outTrunc_of_le (s.packer_wp.trans_le h.room)).trans s.packer_wp

theorem State.payLen_packed : s.packed.payLen = (payload s.code s.input).length := by
  have hle : (payload s.code s.input).length ≤ (container s.code s.input).length := by
    simp only [container, List.length_append, List.length_cons]
    omega
  exact (outTrunc_of_le (s.payloadLength_codeLen.trans_le (hle.trans h.room))).trans s.payloadLength_codeLen

/-- OBUF[0..OUT_LEN−1] after PACK. -/
theorem State.output_packed : s.packed.output = container s.code s.input := by
  have hlen := State.outLen_packed h
  refine List.ext_getElem (by simp [State.output, hlen]) fun i hi hi' => ?_
  have hword : Mem.find? s.packed.obuf i = _ := s.find?_packer_obuf i
  simp [State.output, State.obufAt, hword, hi']

end

theorem State.hdrLen_packed (s : State) : s.packed.hdrLen.toNat = (header s.code).length := by
  have hle : headerLength s.codeLen ≤ 66449 := headerLength_le s.codeLen_le
  exact (Nat.mod_eq_of_lt (by omega)).trans s.headerLength_codeLen

theorem State.padBits_packed (s : State) :
    s.packed.padBits.toNat = padCount (bitBuffer s.code s.input).length := by
  have hle := padCount_le (totalBits s.codeLen s.input)
  rw [← s.totalBits_codeLen]
  exact Nat.mod_eq_of_lt (by omega)

/-- Settles O38: what the packer emits is the container, and no result register is too narrow for its value. -/
theorem packWritesTheContainer : Obligations.PackWritesTheContainer := by
  intro s hpos hlen hcoded hroom
  have h : s.Packable := ⟨hpos, hlen, hcoded, hroom⟩
  have hout := State.outLen_packed h
  exact ⟨_, exec_pack_of_packable h, ⟨rfl, rfl, rfl, rfl, rfl, rfl⟩, State.output_packed h, hout, s.hdrLen_packed,
    s.padBits_packed, State.payLen_packed h, rfl,
    fun i hi => (s.find?_packer_obuf i).trans (if_neg (Nat.not_lt.mpr (hout.symm.trans_le hi)))⟩

theorem exists_missing_iff {codeLen : Byte → Nat} {input : List Byte} :
    (∃ b ∈ input, codeLen b = 0) ↔ firstMissing codeLen 0 input ≠ none := by
  simp [firstMissing_eq_none]

/-- Settles O39: the tests of pass 1 and of the sizes, in their order. -/
theorem packReportsTheFirstError : Obligations.PackReportsTheFirstError := by
  intro s
  rw [← s.containerLength_codeLen]
  rcases packBody_cases (s.accept .pack) with ⟨hlt, e⟩ | ⟨hle, hzero, e⟩ | ⟨hle, hne, _, _, hsome, e⟩ |
    ⟨hle, hne, hnone, _, _, rfl, rfl, ⟨hover, e⟩ | ⟨hfit, _, rfl, e⟩⟩
  · exact ⟨_, exec_pack_of_body e, .symm <| if_pos hlt⟩
  · exact ⟨_, exec_pack_of_body e, .symm <| (if_neg hle.not_gt).trans <| if_pos hzero⟩
  · have hmiss : ∃ b ∈ s.input, s.codeLen b = 0 := exists_missing_iff.mpr fun hnone => nomatch hsome.symm.trans hnone
    exact ⟨_, exec_pack_of_body e, .symm <| (if_neg hle.not_gt).trans <| (if_neg hne).trans <| if_pos hmiss⟩
  · exact ⟨_, exec_pack_of_body e, .symm <| (if_neg hle.not_gt).trans <| (if_neg hne).trans <|
      (if_neg (exists_missing_iff.not_left.mpr hnone)).trans <| if_pos hover⟩
  · exact ⟨_, exec_pack_of_body e, .symm <| (if_neg hle.not_gt).trans <| (if_neg hne).trans <|
      (if_neg (exists_missing_iff.not_left.mpr hnone)).trans <| if_neg hfit.not_gt⟩

/-! ## The smallest container (44_bit_packer.md R190) -/

/-- A PACK without an error met none of its four tests. -/
theorem packable_of_noError {s t : State} (hexec : exec .pack s = .next t) (herr : t.status.err = .noError) :
    s.Packable := by
  obtain ⟨t', hexec', herr'⟩ := packReportsTheFirstError s
  obtain rfl : t = t' := Host.Outcome.next.inj (hexec.symm.trans hexec')
  rw [herr] at herr'
  split_ifs at herr' with hlt hzero hmiss hover
  exact ⟨Nat.pos_of_ne_zero hzero, Nat.le_of_not_lt hlt, fun b hb hlen => hmiss ⟨b, hb, hlen⟩, Nat.le_of_not_lt hover⟩

theorem dec_length_pos (n : Nat) : 0 < (dec n).length := List.length_pos_iff.mpr (dec_ne_nil n)

/-- One coded symbol has a digit, a colon and a code bit in the header. -/
theorem three_le_headerLength {codeLen : Byte → Nat} {b : Byte} (h : codeLen b ≠ 0) : 3 ≤ headerLength codeLen := by
  have hpair : pairSize codeLen b ≤ (allSymbols.map (pairSize codeLen)).sum :=
    List.le_sum_of_mem (List.mem_map_of_mem (mem_allSymbols b))
  have hdigits := dec_length_pos b.toNat
  rw [pairSize, if_neg h] at hpair
  rw [headerLength_eq]
  omega

/-- A coded byte has a code bit in the payload. -/
theorem payloadLength_pos {codeLen : Byte → Nat} {input : List Byte} {b : Byte} (hb : b ∈ input)
    (h : codeLen b ≠ 0) : 0 < payloadLength (totalBits codeLen input) := by
  have hbits : codeLen b ≤ totalBits codeLen input := by
    rw [totalBits_eq]
    exact List.le_sum_of_mem (List.mem_map_of_mem hb)
  rw [payloadLength_eq]
  omega

/-- Settles O43: the first input byte has a pair in the header and a bit in the payload. -/
theorem smallestContainerHasSixBytes : Obligations.SmallestContainerHasSixBytes := by
  intro s t hexec herr
  obtain ⟨hpos, hlen, hcoded, hroom⟩ := packable_of_noError hexec herr
  obtain ⟨t', hexec', -, -, hout, hhdr, -⟩ := packWritesTheContainer s hpos hlen hcoded hroom
  obtain rfl : t = t' := Host.Outcome.next.inj (hexec.symm.trans hexec')
  obtain ⟨b, hb⟩ := List.exists_mem_of_length_pos (s.input_length.trans_ge hpos)
  have hheader := three_le_headerLength (hcoded b hb)
  have hpayload := payloadLength_pos hb (hcoded b hb)
  have hdigits := dec_length_pos (headerLength s.codeLen)
  rw [hout, hhdr, ← s.containerLength_codeLen, ← s.headerLength_codeLen, containerLength]
  omega

end Sys2Proof.Machine
end

section
/-! SUPPORT. Completion, NOP, and the errors of each command (45_compress.md R200, R203, R204). -/

namespace Sys2Proof.Machine

/-- Completion, reached either way, leaves an idle block that is done (45_compress.md R200). -/
theorem Ran.closed.complete_status {r : Ran} (h : r.closed) :
    r.complete.status.busy = false ∧ r.complete.status.done = true ∧ r.complete.status.phase = .idle := by
  cases r with
  | finished s => exact ⟨rfl, rfl, rfl⟩
  | raised s =>
    obtain ⟨_, _, _, _, rfl⟩ := h
    exact ⟨rfl, rfl, rfl⟩

/-- Settles O8: every body ends by falling off its end or by `raise`. -/
theorem everyCommandCompletes : Obligations.EveryCommandCompletes := fun i s =>
  ⟨_, exec_next_iff.mpr rfl, (bodyOf_closed i (s.accept (phaseOf i))).complete_status⟩

/-- Settles O19: acceptance and completion write only what every command writes. -/
theorem nopWritesOnlyTheReport : Obligations.NopWritesOnlyTheReport :=
  ⟨decode?_eq_some_iff.mpr (by decide), fun _ => ⟨_, rfl, ⟨rfl, rfl, rfl, rfl, rfl, rfl⟩, rfl⟩⟩

/-! ## The errors of PACK and COMPRESS -/

section
variable {s : State} {errs : List ErrCode} (h : s.status.err = .noError)
include h

theorem packBody_endsWithin (hl : .lenRange ∈ errs) (he : .emptyInput ∈ errs) (hm : .missingCode ∈ errs)
    (ho : .outOverflow ∈ errs) : (packBody s).endsWithin s.cfg errs := by
  rcases packBody_cases s with ⟨_, e⟩ | ⟨_, _, e⟩ | ⟨_, _, _, _, _, e⟩ |
    ⟨_, _, _, _, _, _, _, ⟨_, e⟩ | ⟨_, _, _, e⟩⟩ <;> rw [e]
  · exact Ran.endsWithin_raise _ hl ..
  · exact Ran.endsWithin_raise _ he ..
  · exact Ran.endsWithin_raise _ hm ..
  · exact Ran.endsWithin_raise _ ho ..
  · exact ⟨rfl, h⟩

/-- With TREE_VALID = 1 CODE_ASSIGN raises nothing. -/
theorem codeAssignBody_endsWithin_of_treeValid {c : Config} (hc : s.cfg = c) (hvalid : s.status.treeValid = true) :
    (codeAssignBody s).endsWithin c errs := by
  rcases codeAssignBody_cases s with ⟨hinvalid, _⟩ | ⟨_, e⟩
  · exact absurd (hinvalid.symm.trans hvalid) (by decide)
  · exact e ▸ ⟨hc, h⟩

/-- In COMPRESS, CODE_ASSIGN runs only after TREE_BUILD has set TREE_VALID. -/
theorem compressBody_endsWithin (hl : .lenRange ∈ errs) (he : .emptyInput ∈ errs) (hm : .missingCode ∈ errs)
    (ho : .outOverflow ∈ errs) : (compressBody s).endsWithin s.cfg errs := by
  have hfreq := freqCountBody_endsWithin (s := s.clearResults.enterPhase .freq) h hl
  refine Ran.endsWithin_andThen hfreq fun s1 c1 h1 => ?_
  rcases treeBuildBody_cases (s1.enterPhase .tree) with ⟨_, e⟩ | ⟨_, b, x, _, _, e⟩ <;> rw [e]
  · exact Ran.endsWithin_raise _ he ..
  rw [Ran.andThen_finished]
  refine Ran.endsWithin_andThen ?_ fun s3 c3 h3 => ?_
  · apply codeAssignBody_endsWithin_of_treeValid
    exacts [h1, c1, rfl]
  · exact c3 ▸ packBody_endsWithin (s := s3.enterPhase .pack) h3 hl he hm ho

end

/-- The errors of a command (45_compress.md R204). That COMPRESS misses no code is shown with its code table: here it
has the errors of PACK. -/
def errorsOf : Instr → List ErrCode
  | .nop | .pqClear | .pqExtractMin => []
  | .pqInsert => [.pqFull]
  | .freqCount => [.lenRange]
  | .treeBuild => [.emptyInput]
  | .codeAssign => [.noTree]
  | .pack | .compress => [.lenRange, .emptyInput, .missingCode, .outOverflow]

theorem bodyOf_endsWithin (i : Instr) {s : State} (h : s.status.err = .noError) :
    (bodyOf i s).endsWithin s.cfg (errorsOf i) := by
  cases i with
  | nop | pqClear | pqExtractMin => exact ⟨rfl, h⟩
  | compress => exact compressBody_endsWithin h (by decide) (by decide) (by decide) (by decide)
  | freqCount => exact freqCountBody_endsWithin h (by decide)
  | treeBuild => exact treeBuildBody_endsWithin h (by decide)
  | codeAssign => exact codeAssignBody_endsWithin h (by decide)
  | pack => exact packBody_endsWithin h (by decide) (by decide) (by decide) (by decide)
  | pqInsert => exact pqInsertBody_endsWithin h (by decide)

theorem exec_err_mem {i : Instr} {s t : State} (hexec : exec i s = .next t) :
    t.status.err ∈ ErrCode.noError :: errorsOf i := by
  obtain rfl := exec_next_iff.mp hexec
  exact List.mem_cons.mpr (Ran.err_complete (bodyOf_endsWithin i (s := s.accept (phaseOf i)) rfl))

/-- Settles O10: acceptance clears ERR, and each body raises only its own errors. -/
theorem errorsEachCommandCanReport : Obligations.ErrorsEachCommandCanReport := by
  intro i s t hexec
  have hmem := exec_err_mem hexec
  cases i with
  | nop | pqClear | pqExtractMin => exact List.mem_singleton.mp hmem
  | freqCount | treeBuild | codeAssign | pack | pqInsert => exact hmem
  | compress =>
    refine ⟨?_, ?_, ?_⟩ <;>
    · intro herr
      rw [herr] at hmem
      revert hmem
      decide

/-! ## The padding of PACK -/

/-- Settles O40: PAY_LEN counts the bytes of the padded bit string (44_bit_packer.md R185). -/
theorem paddingCompletesTheLastByte : Obligations.PaddingCompletesTheLastByte := by
  intro s t hexec herr
  have h := packable_of_noError hexec herr
  obtain rfl : t = s.packed := Host.Outcome.next.inj (hexec.symm.trans (exec_pack_of_packable h))
  rw [s.padBits_packed, State.payLen_packed h, ← s.payloadLength_codeLen, payloadLength_mul, s.totalBits_codeLen]
  exact ⟨padCount_le _, rfl⟩

end Sys2Proof.Machine
end

section
/-! SUPPORT. COMPRESS leaves what its four phases leave as commands of their own (45_compress.md R202): a body's run
does not depend on what is unspecified, and the first three leave the result registers alone. -/

namespace Sys2Proof.Machine

/-- The state without what is unspecified: fixed hidden registers and epoch (10_state.md R44, log entries 4 and 6). -/
def State.visible (s : State) : State :=
  { s with hidden := Hidden.any s.cfg 0, free := { s.free with epoch := 0 } }

/-- States alike in what is specified differ in the hidden registers and the counters at most. -/
theorem State.eq_of_visible {s t : State} (h : t.visible = s.visible) :
    t = { s with hidden := t.hidden, free := t.free } :=
  congrArg (fun u : State => { u with hidden := t.hidden, free := t.free }) h

/-- States that differ in the hidden registers and the epoch at most are alike in what is specified. -/
theorem State.visible_eq {s t : State} (h : t = { s with hidden := t.hidden, free := t.free })
    (hres : t.free.resets = s.free.resets) : t.visible = s.visible := by
  have hv := congrArg State.visible h
  simp only [State.visible, hres] at hv ⊢
  exact hv

/-- The end of a run with its state changed. -/
def Ran.map (f : State → State) : Ran → Ran
  | .finished s => .finished (f s)
  | .raised s => .raised (f s)

@[simp] theorem Ran.map_finished (f : State → State) (s : State) : (Ran.finished s).map f = .finished (f s) := rfl

@[simp] theorem Ran.map_raised (f : State → State) (s : State) : (Ran.raised s).map f = .raised (f s) := rfl

theorem Ran.map_congr {f : State → State} {r r' q q' : Ran} (h : r = q) (h' : r' = q') (hq : q.map f = q'.map f) :
    r.map f = r'.map f := by rw [h, h', hq]

/-- Runs alike in what is specified complete in states alike in it. -/
theorem Ran.visible_complete {r r' : Ran} (h : r.map State.visible = r'.map State.visible) :
    r.complete.visible = r'.complete.visible := by
  cases r <;> cases r' <;> simp only [Ran.map_finished, Ran.map_raised, Ran.finished.injEq, Ran.raised.injEq,
    reduceCtorEq] at h
  · exact congrArg (fun s => s.finish.visible) h
  · exact h

/-- A command's body is running, and has raised nothing. -/
structure State.Running (s : State) : Prop where
  busy : s.status.busy = true
  done : s.status.done = false
  err : s.status.err = .noError
  errSym : s.errSym = 0
  errIdx : s.errIdx = 0

theorem State.accept_running (s : State) (p : Phase) : (s.accept p).Running := ⟨rfl, rfl, rfl, rfl, rfl⟩

/-- Completion and the acceptance of the next command write back what a running body already holds. -/
theorem State.Running.accept_finish {s : State} (h : s.Running) (p : Phase) :
    (s.finish.accept p).visible = (s.enterPhase p).visible := by
  obtain ⟨hbusy, hdone, herr, hsym, hidx⟩ := h
  simp [State.visible, State.accept, State.finish, State.enterPhase, hbusy, hdone, herr, hsym, hidx]

/-! ## The bodies of the first three phases -/

/-- What FREQ_COUNT, TREE_BUILD and CODE_ASSIGN have in common as phases of COMPRESS. -/
structure PhaseBody (body : State → Ran) : Prop where
  visible : ∀ s, (body s.visible).map State.visible = (body s).map State.visible
  clearResults : ∀ s, body s.clearResults = (body s).map State.clearResults
  running : ∀ s, s.Running → (body s).Ends State.Running fun t => t.status.err ≠ .noError

theorem phaseBody_freqCount : PhaseBody freqCountBody where
  visible s := by
    rcases freqCountBody_cases s with ⟨h, e⟩ | ⟨h, t, ht, e⟩ <;>
      rcases freqCountBody_cases s.visible with ⟨h', e'⟩ | ⟨h', t', ht', e'⟩
    · rw [e, e']; rfl
    · exact absurd h (Nat.not_lt.mpr h')
    · exact absurd h' (Nat.not_lt.mpr h)
    · obtain rfl : t' = t := ht'.trans ht.symm
      rw [e, e']; rfl
  clearResults s := by
    rcases freqCountBody_cases s with ⟨h, e⟩ | ⟨h, _, rfl, e⟩ <;> rw [e]
    · exact if_pos h
    · exact if_neg h.not_gt
  running s h := by
    rcases freqCountBody_cases s with ⟨_, e⟩ | ⟨_, _, _, e⟩ <;> rw [e]
    · exact ErrCode.noConfusion
    · exact ⟨h.busy, h.done, h.err, h.errSym, h.errIdx⟩

theorem phaseBody_treeBuild : PhaseBody treeBuildBody where
  visible s := by
    rcases treeBuildBody_cases s with ⟨h, e⟩ | ⟨h, b, x, hb, hx, e⟩ <;>
      rcases treeBuildBody_cases s.visible with ⟨h', e'⟩ | ⟨h', b', x', hb', hx', e'⟩
    · rw [e, e']; rfl
    · exact absurd h h'
    · exact absurd h' h
    · obtain rfl : b' = b := hb'.trans hb.symm
      obtain rfl : x' = x := hx'.trans hx.symm
      rw [e, e']; rfl
  clearResults s := by
    rcases treeBuildBody_cases s with ⟨h, e⟩ | ⟨h, _, _, rfl, rfl, e⟩ <;> rw [e]
    · exact if_pos h
    · exact if_neg h
  running s h := by
    rcases treeBuildBody_cases s with ⟨_, e⟩ | ⟨_, _, _, _, _, e⟩ <;> rw [e]
    · exact ErrCode.noConfusion
    · exact ⟨h.busy, h.done, h.err, h.errSym, h.errIdx⟩

theorem phaseBody_codeAssign : PhaseBody codeAssignBody where
  visible s := by
    rcases codeAssignBody_cases s with ⟨h, e⟩ | ⟨h, e⟩ <;>
      rcases codeAssignBody_cases s.visible with ⟨h', e'⟩ | ⟨h', e'⟩
    · rw [e, e']; rfl
    · exact absurd (h.symm.trans h') (by decide)
    · exact absurd (h'.symm.trans h) (by decide)
    · have hat : s.visible.nodeAt = s.nodeAt := rfl
      rw [e, e', hat]; rfl
  clearResults s := by
    rcases codeAssignBody_cases s with ⟨h, e⟩ | ⟨h, e⟩ <;> rw [e]
    · exact if_neg (ne_true_of_eq_false h)
    · exact if_pos h
  running s h := by
    rcases codeAssignBody_cases s with ⟨_, e⟩ | ⟨_, e⟩ <;> rw [e]
    · exact ErrCode.noConfusion
    · exact ⟨h.busy, h.done, h.err, h.errSym, h.errIdx⟩

/-- One phase: `u` is COMPRESS's state and `s` that of the separate commands, which leave `s'`. Either both stop, or
both go on in states alike but for the result registers. -/
theorem PhaseBody.next {body : State → Ran} (hbody : PhaseBody body) {p : Phase} {u s : State}
    (hu : u.visible = (s.accept p).clearResults.visible) (rest : State → Ran) {s' t : State}
    (hs' : s' = (body (s.accept p)).complete) (ht : t = ((body u).andThen rest).complete) :
    (s'.status.err ≠ .noError → t.visible = s'.clearResults.visible) ∧
      (s'.status.err = .noError →
        ∃ u', (∀ q, (u'.enterPhase q).visible = (s'.accept q).clearResults.visible) ∧ t = (rest u').complete) := by
  have hrun := hbody.running _ (s.accept_running p)
  have hmap : (body u).map State.visible = ((body (s.accept p)).map State.clearResults).map State.visible := by
    rw [← hbody.visible, hu, hbody.visible, hbody.clearResults]
  cases hr : body (s.accept p) <;> cases hr' : body u <;> rw [hr, hr'] at hmap <;>
    simp only [Ran.map_finished, Ran.map_raised, Ran.finished.injEq, Ran.raised.injEq, reduceCtorEq] at hmap <;>
    rw [hr] at hrun hs' <;> rw [hr'] at ht <;> subst hs' ht
  case finished.finished r r' =>
    refine ⟨fun herr => absurd hrun.err herr, fun _ => ⟨r', fun q => ?_, rfl⟩⟩
    exact (congrArg (State.enterPhase q) hmap).trans (congrArg State.clearResults (hrun.accept_finish q).symm)
  case raised.raised => exact ⟨fun _ => hmap, fun herr => absurd herr hrun⟩

/-- PACK zeroes the result registers itself. -/
theorem packBody_clearResults (s : State) : packBody s.clearResults = packBody s := rfl

theorem packBody_visible (s : State) : (packBody s.visible).map State.visible = (packBody s).map State.visible := by
  have hmiss : firstMissing s.visible.clearResults.codeLen 0 s.visible.clearResults.input =
      firstMissing s.clearResults.codeLen 0 s.clearResults.input := rfl
  unfold packBody
  dsimp only
  rw [hmiss]
  by_cases h1 : s.cfg.ibufCap < s.len
  · exact Ran.map_congr (if_pos h1) (if_pos h1) rfl
  refine Ran.map_congr (if_neg h1) (if_neg h1) ?_
  by_cases h2 : s.len = 0
  · exact Ran.map_congr (if_pos h2) (if_pos h2) rfl
  refine Ran.map_congr (if_neg h2) (if_neg h2) ?_
  cases firstMissing s.clearResults.codeLen 0 s.clearResults.input with
  | some _ => rfl
  | none =>
    by_cases h3 : s.cfg.obufCap < containerLength (headerLength s.codeLen) (totalBits s.codeLen s.input)
    · exact Ran.map_congr (if_pos h3) (if_pos h3) rfl
    · exact Ran.map_congr (if_neg h3) (if_neg h3) rfl

/-- Settles O44: phase by phase. -/
theorem compressEqualsItsPhases : Obligations.CompressEqualsItsPhases := by
  intro s t s1 ht h1
  obtain ⟨stop1, next1⟩ :=
    phaseBody_freqCount.next (s := s) (p := .freq) rfl _ (exec_next_iff.mp h1) (exec_next_iff.mp ht)
  refine ⟨fun herr => State.eq_of_visible (stop1 herr), fun herr s2 h2 => ?_⟩
  obtain ⟨u1, hu1, ht⟩ := next1 herr
  obtain ⟨stop2, next2⟩ := phaseBody_treeBuild.next (hu1 .tree) _ (exec_next_iff.mp h2) ht
  refine ⟨fun herr => State.eq_of_visible (stop2 herr), fun herr s3 h3 => ?_⟩
  obtain ⟨u2, hu2, ht⟩ := next2 herr
  obtain ⟨stop3, next3⟩ := phaseBody_codeAssign.next (hu2 .code) _ (exec_next_iff.mp h3) ht
  refine ⟨fun herr => State.eq_of_visible (stop3 herr), fun herr s4 h4 => State.eq_of_visible ?_⟩
  obtain ⟨u3, hu3, rfl⟩ := next3 herr
  rw [exec_next_iff.mp h4]
  refine Ran.visible_complete ?_
  rw [← packBody_visible, hu3 .pack, packBody_visible, packBody_clearResults]
  rfl

/-! ## The inputs COMPRESS rejects (45_compress.md R201, R212) -/

theorem exec_compress_of_lt {s : State} (hlt : s.cfg.ibufCap < s.len) :
    exec .compress s = .next ((s.accept .freq).clearResults.raise .lenRange 0 0) := by
  refine exec_next_iff.mpr ?_
  have e : freqCountBody ((s.accept .freq).clearResults.enterPhase .freq) = _ := if_pos hlt
  show _ = (compressBody (s.accept .freq)).complete
  rw [compressBody, e]
  rfl

/-- The table of the empty input is empty. -/
theorem freqCountBody_of_len_eq_zero {s : State} (hlen : s.len = 0) :
    freqCountBody s = .finished (s.setTable [] s.ord 0) := by
  have hinput : s.input = [] := List.length_eq_zero_iff.mp (s.input_length.trans hlen)
  rcases freqCountBody_cases s with ⟨hlt, -⟩ | ⟨-, t, ht, e⟩
  · omega
  · rw [e, ht, hinput]
    rfl

theorem exec_compress_of_eq_zero {s : State} (hlen : s.len = 0) :
    exec .compress s =
      .next ((((s.accept .freq).clearResults.setTable [] s.ord 0).setTreeValid false).raise .emptyInput 0 0) := by
  refine exec_next_iff.mpr ?_
  have e := freqCountBody_of_len_eq_zero (s := (s.accept .freq).clearResults.enterPhase .freq) hlen
  show _ = (compressBody (s.accept .freq)).complete
  rw [compressBody, e]
  rfl

/-- Settles O46: FREQ_COUNT raises LEN_RANGE after the result registers are zeroed. -/
theorem compressRejectsALongInput : Obligations.CompressRejectsALongInput := fun _ hlt =>
  ⟨_, exec_compress_of_lt hlt, ⟨rfl, rfl, rfl, rfl, rfl, Nat.zero_mod _⟩, rfl⟩

/-- Settles O45: FREQ_COUNT leaves an empty table, from which TREE_BUILD makes no tree. -/
theorem compressRejectsTheEmptyInput : Obligations.CompressRejectsTheEmptyInput := fun _ hlen =>
  ⟨_, exec_compress_of_eq_zero hlen, ⟨rfl, rfl, rfl, rfl, rfl, Nat.zero_mod _⟩, rfl⟩

end Sys2Proof.Machine
end

section
/-! SUPPORT. COMPRESS of an input that fits IBUF (45_compress.md R204, R206, R208, R209): its first three phases give
a code to exactly the symbols of the input, none beginning another, and PACK writes the container with these codes or
reports OUT_OVERFLOW. -/

namespace Sys2Proof.Machine

/-! ## What the first three phases leave -/

theorem State.input_congr {s t : State} (h : t.inputs = s.inputs) : t.input = s.input := by
  have hlen : t.len = s.len := congrArg Inputs.len h
  rw [State.input, State.input, hlen, State.ibufAt_congr h]

/-- `t` holds a Huffman tree `T` of the input of `s` and the code table of that tree. -/
structure State.Coded (s t : State) (T : HTree) : Prop where
  inputs : t.inputs = s.inputs
  treeValid : t.status.treeValid = true
  tree : t.tree? = some T
  spans : T.spans t.nn.toNat = true
  symbols : ∀ b, b ∈ T.codeTable.map Prod.fst ↔ b ∈ s.input
  path : ∀ p ∈ T.codeTable, t.code p.1 = p.2
  coded : ∀ b : Byte, t.codeLen b ≠ 0 ↔ b ∈ s.input
  prefixFree : PrefixFree t.code
  resFreq : t.resFreq = s.len
  hsize : t.hsize = 0
  ord : ∀ j, t.k.toNat ≤ j → Mem.find? t.ord j = Mem.find? s.ord j
  node : ∀ n, t.nn.toNat ≤ n → Mem.find? t.node n = Mem.find? s.node n
  heap : ∀ i, t.k.toNat ≤ i → Mem.find? t.heap i = Mem.find? s.heap i

/-- The first three phases as commands, from `s` to `s3`, each without an error. -/
structure ThreePhases (s s1 s2 s3 : State) : Prop where
  freqCount : exec .freqCount s = .next s1
  treeBuild : exec .treeBuild s1 = .next s2
  codeAssign : exec .codeAssign s2 = .next s3
  err1 : s1.status.err = .noError
  err2 : s2.status.err = .noError
  err3 : s3.status.err = .noError

theorem exec_inj {i : Instr} {s t t' : State} (h : exec i s = .next t) (h' : exec i s = .next t') : t = t' :=
  Host.Outcome.next.inj (h.symm.trans h')

/-- No code is empty: the one leaf has the code `0`, and any other leaf lies below the root. -/
theorem HTree.code_ne_nil {t : HTree} {p : Byte × List Bool} (hp : p ∈ t.codeTable) : p.2 ≠ [] := by
  cases t with
  | leaf n sym f =>
    obtain rfl := List.mem_singleton.mp hp
    simp
  | node n f l r =>
    simp only [HTree.codeTable, HTree.paths, List.mem_append, List.mem_map] at hp
    rcases hp with ⟨_, -, rfl⟩ | ⟨_, -, rfl⟩ <;> simp

/-- No command writes what the host alone writes (70_reset_and_hazards.md R274). -/
theorem exec_inputs {i : Instr} {s t : State} (hexec : exec i s = .next t) : t.inputs = s.inputs :=
  exec_view State.inputs (fun _ _ => rfl) (fun _ => rfl) hexec (bodyOf_inputs i)

/-- Only FREQ_COUNT and COMPRESS write the table. -/
theorem exec_table {i : Instr} (hi : i ∉ [Instr.freqCount, .compress]) {s t : State} (hexec : exec i s = .next t) :
    t.table = s.table :=
  exec_view State.table (fun _ _ => rfl) (fun _ => rfl) hexec (bodyOf_table hi)

/-- Only PACK and COMPRESS write OBUF and the result registers. -/
theorem exec_containerRegs {i : Instr} (hi : i ∉ [Instr.pack, .compress]) {s t : State} (hexec : exec i s = .next t) :
    t.containerRegs = s.containerRegs :=
  exec_view State.containerRegs (fun _ _ => rfl) (fun _ => rfl) hexec (bodyOf_containerRegs hi)

section
variable {s s1 s2 s3 : State} (h : ThreePhases s s1 s2 s3)
include h

theorem ThreePhases.inputs : s3.inputs = s.inputs :=
  (exec_inputs h.codeAssign).trans ((exec_inputs h.treeBuild).trans (exec_inputs h.freqCount))

theorem ThreePhases.table : s3.table = s1.table :=
  (exec_table (by decide) h.codeAssign).trans (exec_table (by decide) h.treeBuild)

theorem ThreePhases.containerRegs : s3.containerRegs = s.containerRegs :=
  (exec_containerRegs (by decide) h.codeAssign).trans
    ((exec_containerRegs (by decide) h.treeBuild).trans (exec_containerRegs (by decide) h.freqCount))

end

section
variable {s : State} (hc : s.cfg.wf = true) (hpos : 1 ≤ s.len) (hlen : s.len ≤ s.cfg.ibufCap)
include hc hpos hlen

/-- FREQ_COUNT of an input that is not empty leaves a sound table of its symbols that is not empty. -/
theorem exists_freqCount : ∃ s1, exec .freqCount s = .next s1 ∧ s1.succeeds ∧
    s1 = (s.withCommon s1).setTable s1.freq s1.ord s1.k ∧ s1.TableSound ∧ (∀ b, b ∈ s1.tableSymbols ↔ b ∈ s.input) ∧
      s1.k ≠ 0 ∧ s1.totalCount = s.len ∧ ∀ j, s1.k.toNat ≤ j → Mem.find? s1.ord j = Mem.find? s.ord j := by
  obtain ⟨s1, h1, hok, hframe, hfreq, -, hnodup, hmem, -, htotal, hord⟩ := freqCountCountsTheInput s hc hlen
  obtain ⟨-, -, hcap, -⟩ := (configWf_iff _).mp hc
  have hcfg : s1.cfg = s.cfg := congrArg Inputs.cfg (exec_inputs h1)
  have hsyms : ∀ b, b ∈ s1.tableSymbols ↔ b ∈ s.input := fun b => by
    rw [hmem, hfreq, Nat.one_le_iff_ne_zero, ← Nat.pos_iff_ne_zero, List.count_pos_iff]
  refine ⟨s1, h1, hok, hframe, ⟨hnodup, fun b => ?_, ?_⟩, hsyms, fun hk => ?_, htotal, hord⟩
  · rw [hmem, Nat.one_le_iff_ne_zero]
  · rw [htotal, hcfg]
    omega
  · obtain ⟨b, hb⟩ := List.exists_mem_of_length_pos (s.input_length.trans_ge hpos)
    have hnil : s1.tableSymbols = [] := by simp [State.tableSymbols, hk]
    exact List.not_mem_nil (hnil ▸ (hsyms b).mpr hb)

theorem exists_coded : ∃ s1 s2 s3 T, ThreePhases s s1 s2 s3 ∧ s.Coded s3 T := by
  obtain ⟨s1, h1, ⟨-, -, -, err1, -⟩, f1, htable, hsyms, hk, htotal, hord⟩ := exists_freqCount hc hpos hlen
  obtain ⟨s2, T, h2, hvalid, htree, hspans, hleaves, -, -, hres⟩ :=
    treeBuildBuildsAHuffmanTree s1 ((tableOk_iff s1).mpr htable) hk
  obtain ⟨s2', h2', ⟨-, -, -, err2, -⟩, f2, hnn, hroot, -, hnode, hheap⟩ := treeBuildCompletes s1 hk htable.k_le
  obtain rfl := exec_inj h2 h2'
  obtain ⟨s3, h3, ⟨-, -, -, err3, -⟩, f3, hpath, hnone, -⟩ := codeAssignGivesRootToLeafPaths s2 T hvalid htree hspans
  have htreeOk : s2.treeOk = true := (treeOk_iff s2).mpr fun _ =>
    have := State.k_pos hk
    ⟨by omega, by omega, T, htree, hspans⟩
  have hmem : ∀ b, b ∈ T.codeTable.map Prod.fst ↔ b ∈ s.input := fun b => by
    rw [T.codeTable_map_fst, hleaves.mem_iff, hsyms]
  have h : ThreePhases s s1 s2 s3 := ⟨h1, h2, h3, err1, err2, err3⟩
  refine ⟨s1, s2, s3, T, h,
    { inputs := h.inputs
      treeValid := (congrArg (·.status.treeValid) f3 : s3.status.treeValid = s2.status.treeValid).trans hvalid
      tree := (congrArg (·.tree?) f3 : s3.tree? = s2.tree?).trans htree
      spans := (congrArg (·.nn) f3 : s3.nn = s2.nn) ▸ hspans
      symbols := hmem
      path := hpath
      coded := fun b => ?coded
      prefixFree := assignedCodesArePrefixFree s2 s3 htreeOk h3 err3
      resFreq := (congrArg (·.resFreq) f3 : s3.resFreq = s2.resFreq).trans (hres.trans htotal)
      hsize := (congrArg (·.hsize) f3 : s3.hsize = s2.hsize).trans (congrArg (·.hsize) f2)
      ord := ?ord
      node := ?node
      heap := ?heap }⟩
  case coded =>
    rw [← hmem]
    constructor
    · exact fun hlen => Decidable.byContradiction fun hb => hlen (hnone b (T.codeTable_map_fst ▸ hb))
    · intro hb
      obtain ⟨p, hp, rfl⟩ := List.mem_map.mp hb
      rw [← s3.length_code, hpath p hp]
      exact mt List.length_eq_zero_iff.mp (HTree.code_ne_nil hp)
  case ord =>
    obtain ⟨-, hord3, hk3⟩ : s3.freq = s1.freq ∧ s3.ord = s1.ord ∧ s3.k = s1.k := by simpa [State.table] using h.table
    rwa [hord3, hk3]
  case node =>
    have hnode1 : s1.node = s.node := congrArg (·.node) f1
    have hnn3 : s3.nn = s2.nn := congrArg (·.nn) f3
    have hnode3 : s3.node = s2.node := congrArg (·.node) f3
    rwa [hnode3, hnn3, ← hnode1]
  case heap =>
    have hheap1 : s1.heap = s.heap := congrArg (·.heap) f1
    have hk3 : s3.k = s1.k := congrArg FreqTable.k h.table
    have hheap3 : s3.heap = s2.heap := congrArg (·.heap) f3
    rwa [hheap3, hk3, ← hheap1]

end

/-! ## What PACK then leaves -/

/-- Whichever way PACK ends, it writes OBUF and the result registers at most. -/
theorem exec_pack_frame {s t : State} (hexec : exec .pack s = .next t) :
    t = { s.withCommon t with
      obuf := t.obuf, hdrLen := t.hdrLen, padBits := t.padBits, payLen := t.payLen, outLen := t.outLen } := by
  rw [exec_next_iff] at hexec
  rcases packBody_cases (s.accept .pack) with ⟨_, e⟩ | ⟨_, _, e⟩ | ⟨_, _, _, _, _, e⟩ |
    ⟨_, _, _, _, _, _, _, ⟨_, e⟩ | ⟨_, _, _, e⟩⟩ <;> rw [hexec.trans (congrArg Ran.complete e)] <;> rfl

theorem State.Coded.pack {s s3 s4 : State} {T : HTree} (h : s.Coded s3 T) (hexec : exec .pack s3 = .next s4) :
    s.Coded s4 T := by
  rw [exec_pack_frame hexec]
  exact { h with }

/-- `t` holds the container of the input of `s` under its own code table, and describes it; OBUF behind it is as in
`s`. -/
structure State.HoldsContainer (t s : State) : Prop where
  succeeds : t.succeeds
  output : t.output = container t.code s.input
  outLen : t.outLen = (container t.code s.input).length
  hdrLen : t.hdrLen.toNat = (header t.code).length
  padBits : t.padBits.toNat = padCount (bitBuffer t.code s.input).length
  payLen : t.payLen = (payload t.code s.input).length
  rest : ∀ i, t.outLen ≤ i → Mem.find? t.obuf i = Mem.find? s.obuf i

/-- `t` reports OUT_OVERFLOW, with the result registers zeroed. -/
structure State.Overflowed (t : State) : Prop where
  reports : t.reports .outOverflow 0 0
  outLen : t.outLen = 0
  hdrLen : t.hdrLen = 0
  padBits : t.padBits = 0
  payLen : t.payLen = 0

theorem State.holdsContainer_packed {s : State} (h : s.Packable) : s.packed.HoldsContainer s where
  succeeds := ⟨rfl, rfl, rfl, rfl, rfl, rfl⟩
  output := State.output_packed h
  outLen := State.outLen_packed h
  hdrLen := s.hdrLen_packed
  padBits := s.padBits_packed
  payLen := State.payLen_packed h
  rest i hi := (s.find?_packer_obuf i).trans (if_neg (Nat.not_lt.mpr ((State.outLen_packed h).symm.trans_le hi)))

/-- PACK of a coded input whose container is too long. -/
theorem exec_pack_of_overflow {s : State} (hpos : 1 ≤ s.len) (hlen : s.len ≤ s.cfg.ibufCap)
    (hcoded : ∀ b ∈ s.input, s.codeLen b ≠ 0) (hover : s.cfg.obufCap < (container s.code s.input).length) :
    exec .pack s = .next ((s.accept .pack).clearResults.raise .outOverflow 0 0) := by
  rcases packBody_cases (s.accept .pack) with ⟨hlt, -⟩ | ⟨-, hzero, -⟩ | ⟨-, -, _, _, hmiss, -⟩ |
    ⟨-, -, -, _, _, rfl, rfl, ⟨-, e⟩ | ⟨hfit, -⟩⟩
  · exact absurd hlen (Nat.not_le.mpr hlt)
  · exact absurd hzero (Nat.ne_of_gt hpos)
  · exact nomatch hmiss.symm.trans ((firstMissing_eq_none _ _ _).mpr hcoded)
  · exact exec_pack_of_body e
  · exact absurd (s.containerLength_codeLen.symm.trans_le hfit) (Nat.not_le.mpr hover)

/-! ## COMPRESS -/

/-- What COMPRESS leaves of an input that fits IBUF: its code table, and its container if that fits OBUF. -/
structure State.Compressed (s t : State) (T : HTree) : Prop where
  coded : s.Coded t T
  fits : (container t.code s.input).length ≤ s.cfg.obufCap → t.HoldsContainer s
  overflows : s.cfg.obufCap < (container t.code s.input).length → t.Overflowed

/-- The hidden registers and the epoch play no part in it. -/
theorem State.compressed_visible_iff {s t : State} {T : HTree} : s.Compressed t.visible T ↔ s.Compressed t T :=
  ⟨fun ⟨hcoded, hfits, hover⟩ =>
      ⟨{ hcoded with }, fun hle => { hfits hle with }, fun hlt => { hover hlt with }⟩,
    fun ⟨hcoded, hfits, hover⟩ =>
      ⟨{ hcoded with }, fun hle => { hfits hle with }, fun hlt => { hover hlt with }⟩⟩

/-- PACK with the table of the input of `s`. -/
theorem State.Coded.compressed {s s3 s4 : State} {T : HTree} (h : s.Coded s3 T) (hpos : 1 ≤ s.len)
    (hlen : s.len ≤ s.cfg.ibufCap) (hobuf : s3.obuf = s.obuf) (hexec : exec .pack s3 = .next s4) :
    s.Compressed s4 T := by
  have hinput : s3.input = s.input := State.input_congr h.inputs
  have hcfg : s3.cfg = s.cfg := congrArg Inputs.cfg h.inputs
  have hlen3 : s3.len = s.len := congrArg Inputs.len h.inputs
  have hcode : s4.code = s3.code := congrArg (·.code) (exec_pack_frame hexec)
  have hpos3 : 1 ≤ s3.len := hlen3 ▸ hpos
  have hfit3 : s3.len ≤ s3.cfg.ibufCap := by rwa [hlen3, hcfg]
  have hcoded : ∀ b ∈ s3.input, s3.codeLen b ≠ 0 := fun b hb => (h.coded b).mpr (hinput ▸ hb)
  refine ⟨h.pack hexec, fun hle => ?_, fun hlt => ?_⟩
  · rw [hcode, ← hinput, ← hcfg] at hle
    have hpack : s3.Packable := ⟨hpos3, hfit3, hcoded, hle⟩
    obtain rfl := exec_inj hexec (exec_pack_of_packable hpack)
    have hholds := State.holdsContainer_packed hpack
    exact { hholds with
      output := hinput ▸ hholds.output
      outLen := hinput ▸ hholds.outLen
      padBits := hinput ▸ hholds.padBits
      payLen := hinput ▸ hholds.payLen
      rest := hobuf ▸ hholds.rest }
  · rw [hcode, ← hinput, ← hcfg] at hlt
    obtain rfl := exec_inj hexec (exec_pack_of_overflow hpos3 hfit3 hcoded hlt)
    exact ⟨⟨rfl, rfl, rfl, rfl, rfl, Nat.zero_mod _⟩, rfl, rfl, rfl, rfl⟩

/-- COMPRESS ends as PACK does after the first three phases (45_compress.md R202). -/
theorem ThreePhases.compressed {s s1 s2 s3 t : State} {T : HTree} (h : ThreePhases s s1 s2 s3) (hcoded : s.Coded s3 T)
    (hpos : 1 ≤ s.len) (hlen : s.len ≤ s.cfg.ibufCap) (hexec : exec .compress s = .next t) : s.Compressed t T := by
  obtain ⟨s4, hs4, -⟩ := everyCommandCompletes .pack s3
  obtain ⟨-, h1⟩ := compressEqualsItsPhases s t s1 hexec h.freqCount
  obtain ⟨-, h2⟩ := h1 h.err1 s2 h.treeBuild
  obtain ⟨-, h3⟩ := h2 h.err2 s3 h.codeAssign
  have hinputs : t.inputs = s4.inputs := (exec_inputs hexec).trans ((exec_inputs hs4).trans h.inputs).symm
  have hvisible := State.visible_eq (h3 h.err3 s4 hs4) (congrArg Inputs.resets hinputs)
  have hpacked := hcoded.compressed hpos hlen (congrArg Prod.fst h.containerRegs) hs4
  exact State.compressed_visible_iff.mp (hvisible ▸ State.compressed_visible_iff.mpr hpacked)

theorem exists_compressed {s : State} (hc : s.cfg.wf = true) (hpos : 1 ≤ s.len) (hlen : s.len ≤ s.cfg.ibufCap) :
    ∃ t T, exec .compress s = .next t ∧ s.Compressed t T := by
  obtain ⟨s1, s2, s3, T, h, hcoded⟩ := exists_coded hc hpos hlen
  obtain ⟨t, hexec, -⟩ := everyCommandCompletes .compress s
  exact ⟨t, T, hexec, h.compressed hcoded hpos hlen hexec⟩

/-- Settles O47. -/
theorem compressWritesTheContainerOfItsInput : Obligations.CompressWritesTheContainerOfItsInput := by
  intro s hc hpos hlen
  obtain ⟨t, T, ht, h⟩ := exists_compressed hc hpos hlen
  have hcoded := h.coded
  refine ⟨t, ht, hcoded.coded, hcoded.prefixFree, ⟨T, hcoded.treeValid, hcoded.tree, hcoded.spans, hcoded.path⟩,
    hcoded.resFreq, hcoded.hsize, fun hle => ?_, fun hlt => (h.overflows hlt).reports⟩
  have hholds := h.fits hle
  exact ⟨hholds.succeeds, hholds.output, hholds.outLen⟩

/-- Settles O48: the container is never longer than such a buffer. -/
theorem compressSucceedsWithALargeOutputBuffer : Obligations.CompressSucceedsWithALargeOutputBuffer := by
  intro s hc hpos hlen hbuf
  obtain ⟨t, T, ht, h⟩ := exists_compressed hc hpos hlen
  have hcoded := h.coded
  have hroom : (container t.code s.input).length ≤ s.cfg.obufCap := by
    have hle := containerLength_le t
    have hlen' : t.len = s.len := congrArg Inputs.len hcoded.inputs
    rw [t.containerLength_codeLen, State.input_congr hcoded.inputs, hlen'] at hle
    omega
  have hholds := h.fits hroom
  exact ⟨t, ht, hholds.succeeds, hholds.output, hholds.outLen, hcoded.coded, hholds.rest, hcoded.ord, hcoded.node,
    hcoded.heap, congrArg Inputs.ibuf hcoded.inputs, congrArg Inputs.len hcoded.inputs,
    congrArg Inputs.argFreq hcoded.inputs, congrArg Inputs.argNode hcoded.inputs⟩

/-- Every way COMPRESS ends. -/
theorem exec_compress_cases {s t : State} (hc : s.cfg.wf = true) (hexec : exec .compress s = .next t) :
    (s.len = 0 ∧
      t = (((s.accept .freq).clearResults.setTable [] s.ord 0).setTreeValid false).raise .emptyInput 0 0) ∨
    (s.cfg.ibufCap < s.len ∧ t = (s.accept .freq).clearResults.raise .lenRange 0 0) ∨
    (1 ≤ s.len ∧ s.len ≤ s.cfg.ibufCap ∧ ∃ T, s.Compressed t T) := by
  rcases Nat.eq_zero_or_pos s.len with hzero | hpos
  · exact .inl ⟨hzero, exec_inj hexec (exec_compress_of_eq_zero hzero)⟩
  rcases Nat.lt_or_ge s.cfg.ibufCap s.len with hlt | hlen
  · exact .inr (.inl ⟨hlt, exec_inj hexec (exec_compress_of_lt hlt)⟩)
  obtain ⟨t', T, hexec', h⟩ := exists_compressed hc hpos hlen
  obtain rfl := exec_inj hexec hexec'
  exact .inr (.inr ⟨hpos, hlen, T, h⟩)

/-- With the table of the input, PACK ends without an error or with OUT_OVERFLOW. -/
theorem State.Compressed.cases {s t : State} {T : HTree} (h : s.Compressed t T) :
    t.HoldsContainer s ∨ t.Overflowed := by
  rcases Nat.lt_or_ge s.cfg.obufCap (container t.code s.input).length with hover | hfit
  · exact .inr (h.overflows hover)
  · exact .inl (h.fits hfit)

theorem State.HoldsContainer.noError {s t : State} (h : t.HoldsContainer s) : t.status.err = .noError := by
  obtain ⟨-, -, -, herr, -⟩ := h.succeeds
  exact herr

theorem State.Overflowed.outOverflow {t : State} (h : t.Overflowed) : t.status.err = .outOverflow := by
  obtain ⟨-, -, -, herr, -⟩ := h.reports
  exact herr

/-- Settles O51: every byte of the input has a code when PACK runs. -/
theorem compressReportsOnlyItsErrors : Obligations.CompressReportsOnlyItsErrors := by
  intro s t hc hexec
  rcases exec_compress_cases hc hexec with ⟨-, rfl⟩ | ⟨-, rfl⟩ | ⟨-, -, T, h⟩
  · simp
  · simp
  · rcases h.cases with hholds | hover
    · simp [hholds.noError]
    · simp [hover.outOverflow]

/-- Without an error, COMPRESS leaves the code table and the container of an input that is not empty. -/
theorem compressed_of_noError {s t : State} (hc : s.cfg.wf = true) (hexec : exec .compress s = .next t)
    (herr : t.status.err = .noError) : 1 ≤ s.len ∧ t.HoldsContainer s ∧ ∃ T, s.Coded t T := by
  rcases exec_compress_cases hc hexec with ⟨-, rfl⟩ | ⟨-, rfl⟩ | ⟨hpos, -, T, h⟩
  · cases herr
  · cases herr
  · rcases h.cases with hholds | hover
    · exact ⟨hpos, hholds, T, h.coded⟩
    · exact nomatch herr.symm.trans hover.outOverflow

end Sys2Proof.Machine
end

section
/-! SUPPORT. How the container is read back (30_encoding.md R107, R109, 45_compress.md R210): the digits up to the first
`;`, the pairs between the commas, the bits of the payload without its padding, and the codes in it, none of which
begins another. -/

namespace Sys2Proof.Machine

/-! ## Numbers and separators -/

/-- The number a string of decimal digits shows. -/
def digitsValue (digits : List Byte) : Nat := digits.foldl (fun n b => 10 * n + (b.toNat - 0x30)) 0

theorem asciiDigit_toNat {d : Nat} (hd : d < 10) : (asciiDigit d).toNat = 0x30 + d :=
  Nat.mod_eq_of_lt (show 0x30 + d < 256 by omega)

theorem digitsValue_dec (n : Nat) : digitsValue (dec n) = n := by
  induction n using Nat.strong_induction_on with
  | _ n ih =>
    rw [dec_eq]
    split
    · simp [digitsValue, asciiDigit_toNat ‹_›]
    · have hq : digitsValue (dec (n / 10)) = n / 10 := ih _ (by omega)
      unfold digitsValue at hq ⊢
      rw [List.foldl_append, hq, List.foldl_cons, List.foldl_nil, asciiDigit_toNat (by omega)]
      omega

theorem dec_injective : Function.Injective dec := Function.LeftInverse.injective digitsValue_dec

/-- Every byte of a decimal number is a digit. -/
theorem mem_dec {n : Nat} {b : Byte} (hb : b ∈ dec n) : ∃ d < 10, b = asciiDigit d := by
  induction n using Nat.strong_induction_on with
  | _ n ih =>
    rw [dec_eq] at hb
    split at hb
    · exact ⟨n, ‹_›, List.mem_singleton.mp hb⟩
    · rcases List.mem_append.mp hb with hb | hb
      · exact ih (n / 10) (by omega) hb
      · exact ⟨n % 10, by omega, List.mem_singleton.mp hb⟩

/-- No separator is a digit (30_encoding.md R101). -/
theorem asciiDigit_ne_separator :
    ∀ d < 10, asciiDigit d ≠ asciiComma ∧ asciiDigit d ≠ asciiColon ∧ asciiDigit d ≠ asciiSemicolon := by decide

theorem separator_notMem_dec (n : Nat) : asciiComma ∉ dec n ∧ asciiColon ∉ dec n ∧ asciiSemicolon ∉ dec n := by
  refine ⟨fun h => ?_, fun h => ?_, fun h => ?_⟩ <;>
  · obtain ⟨d, hd, e⟩ := mem_dec h
    obtain ⟨hcomma, hcolon, hsemicolon⟩ := asciiDigit_ne_separator d hd
    exact absurd e.symm ‹_›

/-- A string is split at the first separator in one way. -/
theorem append_separator_inj {α : Type} [DecidableEq α] {sep : α} {xs xs' ys ys' : List α} (hxs : sep ∉ xs)
    (hxs' : sep ∉ xs') (h : xs ++ sep :: ys = xs' ++ sep :: ys') : xs = xs' ∧ ys = ys' := by
  have hidx := congrArg (List.idxOf sep) h
  simp only [List.idxOf_append_of_notMem, hxs, hxs', not_false_eq_true, List.idxOf_cons_self] at hidx
  obtain ⟨hx, hy⟩ := List.append_inj h hidx
  exact ⟨hx, (List.cons.inj hy).2⟩

/-! ## The header -/

theorem asciiBit_injective : Function.Injective asciiBit := by
  intro a b
  cases a <;> cases b <;> decide

/-- A pair is read back at its one `:` (30_encoding.md R104). -/
theorem pairText_inj {code code' : Byte → List Bool} {a b : Byte} (h : pairText code a = pairText code' b) :
    a = b ∧ code a = code' b := by
  obtain ⟨-, ha, -⟩ := separator_notMem_dec a.toNat
  obtain ⟨-, hb, -⟩ := separator_notMem_dec b.toNat
  obtain ⟨hsym, hbits⟩ := append_separator_inj ha hb h
  exact ⟨BitVec.eq_of_toNat_eq (dec_injective hsym), List.map_injective_iff.mpr asciiBit_injective hbits⟩

theorem comma_notMem_pairText (code : Byte → List Bool) (b : Byte) : asciiComma ∉ pairText code b := by
  obtain ⟨hdec, -⟩ := separator_notMem_dec b.toNat
  have hbit : ∀ bit, asciiBit bit ≠ asciiComma := by decide
  intro h
  simp only [pairText, List.mem_append, List.mem_cons, List.mem_map] at h
  rcases h with h | h | ⟨bit, -, h⟩
  · exact hdec h
  · exact absurd h (by decide)
  · exact hbit bit h

theorem pairText_mem_pairTexts {code : Byte → List Bool} {b : Byte} (h : code b ≠ []) :
    pairText code b ∈ pairTexts code allSymbols :=
  List.mem_map_of_mem (List.mem_filter.mpr ⟨mem_allSymbols b, decide_eq_true h⟩)

/-- The pairs are read back between the commas (30_encoding.md R105). -/
theorem splitOn_header {code : Byte → List Bool} {b : Byte} (hb : code b ≠ []) :
    (header code).splitOn asciiComma = pairTexts code allSymbols := by
  refine List.splitOn_intercalate asciiComma (fun text htext => ?_) (List.ne_nil_of_mem (pairText_mem_pairTexts hb))
  obtain ⟨sym, -, rfl⟩ := List.mem_map.mp htext
  exact comma_notMem_pairText code sym

/-- A symbol with a code is read back from its pair. -/
theorem code_eq_of_pairTexts_eq {code code' : Byte → List Bool}
    (h : pairTexts code allSymbols = pairTexts code' allSymbols) {b : Byte} (hb : code b ≠ []) : code' b = code b := by
  have hmem := h ▸ pairText_mem_pairTexts hb
  obtain ⟨sym, -, hsym⟩ := List.mem_map.mp hmem
  obtain ⟨rfl, hcode⟩ := pairText_inj hsym
  exact hcode

/-- The header of a table that is not empty determines it (30_encoding.md R107). -/
theorem code_eq_of_header_eq {code code' : Byte → List Bool} {b b' : Byte} (hb : code b ≠ []) (hb' : code' b' ≠ [])
    (h : header code = header code') : code = code' := by
  have hpairs : pairTexts code allSymbols = pairTexts code' allSymbols := by
    rw [← splitOn_header hb, ← splitOn_header hb', h]
  funext a
  by_cases ha : code a = []
  · by_cases ha' : code' a = []
    · rw [ha, ha']
    · exact code_eq_of_pairTexts_eq hpairs.symm ha'
  · exact (code_eq_of_pairTexts_eq hpairs ha).symm

/-! ## The payload -/

/-- The bits of a byte, the most significant first (20_memory.md R66). -/
def bitsOfByte (b : Byte) : List Bool := (List.range 8).map fun i => b.getLsbD (7 - i)

theorem bitsOfByte_byteOfBits {bits : List Bool} (h : bits.length = 8) : bitsOfByte (byteOfBits bits) = bits := by
  match bits, h with
  | [b0, b1, b2, b3, b4, b5, b6, b7], _ =>
    revert b0 b1 b2 b3 b4 b5 b6 b7
    decide

theorem flatMap_bitsOfByte_pack8 {bits : List Bool} (h : 8 ∣ bits.length) : (pack8 bits).flatMap bitsOfByte = bits := by
  induction bits using bits_induction with
  | short bits hlt =>
    rw [pack8_of_length_lt hlt, List.eq_nil_of_length_eq_zero (Nat.eq_zero_of_dvd_of_lt h hlt)]
    rfl
  | byte bits rest hbits ih =>
    rw [List.length_append, hbits] at h
    rw [pack8_append hbits, List.flatMap_cons, bitsOfByte_byteOfBits hbits, ih ((Nat.dvd_add_right dvd_rfl).mp h)]

/-- The payload holds the bit buffer and its padding (30_encoding.md R100). -/
theorem flatMap_bitsOfByte_payload (code : Byte → List Bool) (input : List Byte) :
    (payload code input).flatMap bitsOfByte =
      bitBuffer code input ++ List.replicate (padCount (bitBuffer code input).length) false := by
  refine flatMap_bitsOfByte_pack8 ?_
  rw [length_padded, ← payloadLength_mul]
  exact Nat.dvd_mul_right 8 _

/-- Where no code begins another, one bit string begins with at most one code. -/
theorem PrefixFree.eq_of_append_eq {code : Byte → List Bool} (hcode : PrefixFree code) {a b : Byte} (ha : code a ≠ [])
    (hb : code b ≠ []) {xs ys : List Bool} (h : code a ++ xs = code b ++ ys) : a = b := by
  by_contra hab
  rcases List.prefix_or_prefix_of_prefix ⟨xs, h⟩ ⟨ys, rfl⟩ with hp | hp
  · exact hcode a b hab ha hb hp
  · exact hcode b a (Ne.symm hab) hb ha hp

/-- Where no code begins another, the bit buffer is split into codes in one way. -/
theorem bitBuffer_inj {code : Byte → List Bool} (hcode : PrefixFree code) {xs ys : List Byte}
    (hxs : ∀ b ∈ xs, code b ≠ []) (hys : ∀ b ∈ ys, code b ≠ []) (h : bitBuffer code xs = bitBuffer code ys) :
    xs = ys := by
  induction xs generalizing ys with
  | nil =>
    cases ys with
    | nil => rfl
    | cons b ys => exact absurd (List.append_eq_nil_iff.mp h.symm).1 (hys b List.mem_cons_self)
  | cons a xs ih =>
    obtain ⟨ha, hxs⟩ := List.forall_mem_cons.mp hxs
    cases ys with
    | nil => exact absurd (List.append_eq_nil_iff.mp h).1 ha
    | cons b ys =>
      obtain ⟨hb, hrest⟩ := List.forall_mem_cons.mp hys
      have hbits : code a ++ bitBuffer code xs = code b ++ bitBuffer code ys := h
      obtain rfl := hcode.eq_of_append_eq ha hb hbits
      rw [ih hxs hrest (List.append_cancel_left hbits)]

/-- The payload and the padding count determine the bit buffer (30_encoding.md R109). -/
theorem bitBuffer_eq_of_payload_eq {code : Byte → List Bool} {xs ys : List Byte} (h : payload code xs = payload code ys)
    (hpad : padCount (bitBuffer code xs).length = padCount (bitBuffer code ys).length) :
    bitBuffer code xs = bitBuffer code ys := by
  have hbits := flatMap_bitsOfByte_payload code xs
  rw [h, flatMap_bitsOfByte_payload, hpad] at hbits
  exact (List.append_cancel_right hbits).symm

/-! ## The container -/

/-- The digits up to the first `;` give the length of the header, and what follows it is the payload
(30_encoding.md R107). -/
theorem container_inj {code code' : Byte → List Bool} {xs ys : List Byte} (h : container code xs = container code' ys) :
    header code = header code' ∧ payload code xs = payload code' ys := by
  obtain ⟨-, -, hsep⟩ := separator_notMem_dec (header code).length
  obtain ⟨-, -, hsep'⟩ := separator_notMem_dec (header code').length
  obtain ⟨hlen, hrest⟩ := append_separator_inj hsep hsep' h
  exact List.append_inj hrest (dec_injective hlen)

theorem State.Coded.code_ne_nil {s t : State} {T : HTree} (h : s.Coded t T) : ∀ b ∈ s.input, t.code b ≠ [] := by
  intro b hb hnil
  exact (h.coded b).mpr hb (by rw [← t.length_code, hnil, List.length_nil])

/-- Settles O50: from the container the header, from it the table, from the payload and PAD_BITS the code bits, and from
these the input. -/
theorem containerAndPadBitsDetermineTheInput : Obligations.ContainerAndPadBitsDetermineTheInput := by
  intro s1 s2 t1 t2 hc1 hc2 hexec1 hexec2 herr1 herr2 hout hpad
  obtain ⟨hpos1, hholds1, T1, hcoded1⟩ := compressed_of_noError hc1 hexec1 herr1
  obtain ⟨hpos2, hholds2, T2, hcoded2⟩ := compressed_of_noError hc2 hexec2 herr2
  obtain ⟨b1, hb1⟩ := List.exists_mem_of_length_pos (s1.input_length.trans_ge hpos1)
  obtain ⟨b2, hb2⟩ := List.exists_mem_of_length_pos (s2.input_length.trans_ge hpos2)
  rw [hholds1.output, hholds2.output] at hout
  obtain ⟨hheader, hpayload⟩ := container_inj hout
  have hcode : t1.code = t2.code :=
    code_eq_of_header_eq (hcoded1.code_ne_nil b1 hb1) (hcoded2.code_ne_nil b2 hb2) hheader
  have hcount := congrArg BitVec.toNat hpad
  rw [hholds1.padBits, hholds2.padBits, ← hcode] at hcount
  rw [← hcode] at hpayload
  exact bitBuffer_inj hcoded1.prefixFree hcoded1.code_ne_nil (hcode ▸ hcoded2.code_ne_nil)
    (bitBuffer_eq_of_payload_eq hpayload hcount)

end Sys2Proof.Machine
end

section
/-! SUPPORT. COMPRESS depends on its input alone (45_compress.md R206, R207): queues with the same contents, whatever
their words from HSIZE on hold, give the same entries, so one table gives one tree, and one tree one code table. -/

namespace Sys2Proof.Machine

/-! ## Queues with the same contents -/

/-- The same contents HEAP[0..HSIZE−1]; `fill` and `fill'` are what unlisted words hold. -/
structure Queue.Alike (fill fill' : Nat → HeapEntry) (q q' : Queue) : Prop where
  hsize : q.hsize = q'.hsize
  entry : ∀ i < q.hsize.toNat, q.at fill i = q'.at fill' i

section
variable {fill fill' : Nat → HeapEntry} {q q' : Queue} (h : Queue.Alike fill fill' q q')
include h

theorem Queue.Alike.swap {i j : Nat} (hi : i < q.hsize.toNat) (hj : j < q.hsize.toNat) :
    Queue.Alike fill fill' (q.swap fill i j) (q'.swap fill' i j) where
  hsize := h.hsize
  entry k hk := by
    rw [Queue.at_swap, Queue.at_swap, h.entry i hi, h.entry j hj, h.entry k hk]

theorem Queue.Alike.siftUp (passes : Nat) {i : Nat} (hi : i < q.hsize.toNat) :
    Queue.Alike fill fill' (Queue.siftUp fill passes q i) (Queue.siftUp fill' passes q' i) := by
  induction passes generalizing q q' i with
  | zero => exact h
  | succ n ih =>
    have hp : (i - 1) / 2 < q.hsize.toNat := by omega
    unfold Queue.siftUp
    dsimp only
    rw [← h.entry i hi, ← h.entry _ hp]
    split
    · exact h
    · split
      · exact ih (h.swap hi hp) hp
      · exact h

theorem Queue.Alike.pqInsert (e : HeapEntry) (hlt : q.hsize.toNat < 511) :
    Queue.Alike fill fill' (pqInsert fill q e) (pqInsert fill' q' e) := by
  have hs : (q.hsize + 1).toNat = q.hsize.toNat + 1 := (pqInsert_hsize fill q e) ▸ pqInsert_hsize_toNat e hlt
  unfold Machine.pqInsert
  dsimp only
  rw [← h.hsize]
  have hput : Queue.Alike fill fill' { heap := Mem.put q.heap q.hsize.toNat e, hsize := q.hsize + 1 }
      { heap := Mem.put q'.heap q.hsize.toNat e, hsize := q.hsize + 1 } := by
    refine ⟨rfl, fun i hi => ?_⟩
    have hi : i < (q.hsize + 1).toNat := hi
    rw [Queue.at_put, Queue.at_put]
    split
    · rfl
    · exact h.entry i (by omega)
  exact hput.siftUp _ (show q.hsize.toNat < (q.hsize + 1).toNat by omega)

/-- A child is compared only if it is present. -/
theorem Queue.Alike.child_lt_iff {c m : Nat} (hm : m < q.hsize.toNat) :
    (c < q.hsize.toNat ∧ (q.at fill c).freq < (q.at fill m).freq) ↔
      (c < q'.hsize.toNat ∧ (q'.at fill' c).freq < (q'.at fill' m).freq) := by
  rw [← h.hsize]
  exact and_congr_right fun hc => by rw [h.entry c hc, h.entry m hm]

theorem Queue.Alike.smallest {i : Nat} (hi : i < q.hsize.toNat) : q.smallest fill i = q'.smallest fill' i := by
  unfold Queue.smallest
  dsimp only
  rw [if_congr (h.child_lt_iff hi) rfl rfl]
  refine if_congr (h.child_lt_iff ?_) rfl rfl
  split
  · rename_i hl
    exact h.hsize ▸ hl.1
  · exact hi

theorem Queue.Alike.siftDown (passes : Nat) {i : Nat} (hi : i < q.hsize.toNat) :
    Queue.Alike fill fill' (Queue.siftDown fill passes q i) (Queue.siftDown fill' passes q' i) := by
  induction passes generalizing q q' i with
  | zero => exact h
  | succ n ih =>
    unfold Queue.siftDown
    dsimp only
    rw [← h.smallest hi]
    split
    · exact h
    · rcases Queue.smallest_cases fill q i with hs | ⟨-, hm, -⟩
      · exact absurd hs ‹_›
      · exact ih (h.swap hi hm) hm

/-- An extraction returns the same entry and leaves the same contents. -/
theorem Queue.Alike.pqExtractMin (h0 : q.hsize ≠ 0) :
    (pqExtractMin fill q).1 = (pqExtractMin fill' q').1 ∧
      Queue.Alike fill fill' (pqExtractMin fill q).2 (pqExtractMin fill' q').2 := by
  have hpos : 0 < q.hsize.toNat := Nat.pos_of_ne_zero fun h' => h0 (BitVec.eq_of_toNat_eq h')
  have h0' : q'.hsize ≠ 0 := h.hsize ▸ h0
  constructor
  · rcases pqExtractMin_cases fill q with ⟨hzero, -⟩ | ⟨-, e, -⟩
    · exact absurd hzero h0
    rcases pqExtractMin_cases fill' q' with ⟨hzero, -⟩ | ⟨-, e', -⟩
    · exact absurd hzero h0'
    rw [e, e', h.entry 0 hpos]
  have hs := Queue.hsize_sub_one h0
  rcases pqExtractMin_queue_cases (fill := fill) h0 with ⟨h1, e⟩ | ⟨h1, e⟩ <;>
    rcases pqExtractMin_queue_cases (fill := fill') h0' with ⟨h1', e'⟩ | ⟨h1', e'⟩ <;> rw [← h.hsize] at h1' e'
  · rw [e, e', h1]
    exact ⟨rfl, fun i hi => absurd hi (Nat.not_lt_zero i)⟩
  · exact absurd h1 h1'
  · exact absurd h1' h1
  · rw [e, e']
    refine Queue.Alike.siftDown ⟨congrArg (· - 1) h.hsize, fun i hi => ?_⟩ _ ?_
    · have hi : i < (q.hsize - 1).toNat := hi
      rw [Queue.at_lastToRoot, Queue.at_lastToRoot, ← h.hsize, h.entry i (by omega), h.entry _ (by omega)]
    · show 0 < (q.hsize - 1).toNat
      exact Nat.pos_of_ne_zero fun h' => h1 (BitVec.eq_of_toNat_eq h')

end

/-! ## One table gives one tree -/

/-- The same parameters and the same table. -/
structure State.SameTable (s s' : State) : Prop where
  cfg : s.cfg = s'.cfg
  k : s.k = s'.k
  leaf : ∀ j < s.k.toNat, s.leafOf j = s'.leafOf j

/-- The same nodes below NN and the same contents of the queue, while a tree is built. -/
structure Build.Alike (fill fill' : Nat → HeapEntry) (b b' : Build) : Prop where
  nn : b.nn = b'.nn
  queue : Queue.Alike fill fill' b.queue b'.queue
  node : ∀ n < b.nn.toNat, ∃ v, Mem.find? b.node n = some v ∧ Mem.find? b'.node n = some v

theorem Build.Alike.merge {c : Config} {fill fill' : Nat → HeapEntry} {b b' : Build} (h : Build.Alike fill fill' b b')
    (hsize : 1 < b.queue.hsize.toNat) : Build.Alike fill fill' (b.merge c fill) (b'.merge c fill') := by
  have hx0 := Queue.hsize_ne_zero (q := b.queue) (by omega)
  have hxs := pqExtractMin_hsize_toNat (fill := fill) hx0
  have hy0 := Queue.hsize_ne_zero (q := (pqExtractMin fill b.queue).2) (by omega)
  have hys := pqExtractMin_hsize_toNat (fill := fill) hy0
  have hlt := b.queue.hsize.isLt
  obtain ⟨hx, hxq⟩ := h.queue.pqExtractMin hx0
  obtain ⟨hy, hyq⟩ := hxq.pqExtractMin hy0
  unfold Build.merge
  dsimp only
  rw [← hx, ← hy, ← h.nn]
  refine ⟨rfl, hyq.pqInsert _ (by omega), fun n hn => ?_⟩
  have hn : n < (b.nn + 1).toNat := hn
  simp only [Mem.find?_put]
  split
  · exact ⟨_, rfl, rfl⟩
  · refine h.node n ?_
    rw [BitVec.toNat_add] at hn
    have := Nat.mod_le (b.nn.toNat + 1) 512
    change n < (b.nn.toNat + 1) % 512 at hn
    omega

theorem Build.Alike.mergeAll {c : Config} {fill fill' : Nat → HeapEntry} (passes : Nat) {b b' : Build}
    (h : Build.Alike fill fill' b b') :
    Build.Alike fill fill' (Build.mergeAll c fill passes b) (Build.mergeAll c fill' passes b') := by
  induction passes generalizing b b' with
  | zero => exact h
  | succ n ih =>
    unfold Build.mergeAll
    rw [← h.queue.hsize]
    split
    · exact ih (h.merge ‹_›)
    · exact h

section
variable {s s' : State} (h : s.SameTable s')
include h

theorem State.SameTable.firstLeaves {n : Nat} (hn : n ≤ s.k.toNat) :
    Queue.Alike s.heapFill s'.heapFill (Build.firstLeaves s n).queue (Build.firstLeaves s' n).queue := by
  induction n with
  | zero => exact ⟨rfl, fun i hi => absurd hi (Nat.not_lt_zero i)⟩
  | succ n ih =>
    have hlt := s.k.isLt
    have hsize := Build.firstLeaves_hsize s (n := n) (by omega)
    rw [Build.firstLeaves_succ, Build.firstLeaves_succ]
    show Queue.Alike _ _ (pqInsert _ _ (s.leafOf n).entry) (pqInsert _ _ (s'.leafOf n).entry)
    rw [h.leaf n hn]
    exact (ih (by omega)).pqInsert _ (by omega)

theorem State.SameTable.leaves : Build.Alike s.heapFill s'.heapFill (Build.leaves s) (Build.leaves s') := by
  have hqueue := h.firstLeaves le_rfl
  refine ⟨h.k, ?_, fun n hn => ?_⟩
  · rw [Build.leaves_eq, Build.leaves_eq, ← h.k]
    exact hqueue
  · have hn : n < s.k.toNat := hn
    have hstand : (s.leafOf n).StandsIn (Build.leaves s).node := Build.firstLeaves_stand s _ n hn
    have hstand' : (s'.leafOf n).StandsIn (Build.leaves s').node := Build.firstLeaves_stand s' _ n (h.k ▸ hn)
    rw [← h.leaf n hn] at hstand'
    exact ⟨_, hstand, hstand'⟩

theorem State.SameTable.built : Build.Alike s.heapFill s'.heapFill s.built s'.built := by
  have hleaves := h.leaves
  rw [State.built, State.built, ← h.cfg, ← h.k]
  exact hleaves.mergeAll _

end

/-- The tree below a node depends on the nodes up to it alone. -/
theorem treeBelow_congr {nodeAt nodeAt' : Nat → HuffNode} {bound : Nat} (h : ∀ n < bound, nodeAt n = nodeAt' n)
    (depth : Nat) {n : Nat} (hn : n < bound) : treeBelow nodeAt depth n = treeBelow nodeAt' depth n := by
  induction depth generalizing n with
  | zero => rfl
  | succ depth ih =>
    simp only [treeBelow, h n hn]
    cases nodeAt' n with
    | leaf sym f => rfl
    | internal f l r =>
      by_cases hlr : l.toNat < n ∧ r.toNat < n
      · simp only [ih (hlr.1.trans hn), ih (hlr.2.trans hn)]
      · simp only [if_neg hlr]

theorem State.nodeAt_of_find? {s : State} {n : Nat} {v : HuffNode} (h : Mem.find? s.node n = some v) : s.nodeAt n = v :=
  congrArg (Option.getD · _) h

/-- TREE_BUILD makes one tree of one table. -/
theorem State.SameTable.tree?_eq {s s' t t' : State} (h : s.SameTable s') (hk : s.k ≠ 0) (hle : s.k.toNat ≤ numSymbols)
    (hexec : exec .treeBuild s = .next t) (hexec' : exec .treeBuild s' = .next t') : t.tree? = t'.tree? := by
  obtain ⟨u, hu, -, -, hnn, hroot, -⟩ := treeBuildCompletes s hk hle
  obtain rfl := exec_inj hexec hu
  obtain rfl := exec_inj hexec (exec_treeBuild_of_ne_zero hk hle)
  obtain rfl := exec_inj hexec' (exec_treeBuild_of_ne_zero (h.k ▸ hk) (h.k ▸ hle))
  have hbuilt := h.built
  have hone := State.built_hsize hk hle
  have hentry : s.rootEntry = s'.rootEntry := hbuilt.queue.entry 0 (by omega)
  have hpos := State.k_pos hk
  rw [State.tree?, State.tree?]
  show _ = treeBelow _ nodeCap s'.rootEntry.node.toNat
  rw [← hentry]
  refine treeBelow_congr (bound := s.built.nn.toNat) (fun n hn => ?_) _ (hroot.trans_lt ?_)
  · obtain ⟨v, hv, hv'⟩ := hbuilt.node n hn
    exact (State.nodeAt_of_find? hv).trans (State.nodeAt_of_find? hv').symm
  · exact (show 2 * s.k.toNat - 2 < 2 * s.k.toNat - 1 by omega).trans_eq hnn.symm

/-! ## One input gives one table -/

/-- The table FREQ_COUNT leaves, as its leaves show it. -/
theorem exec_freqCount_table {s t : State} (hc : s.cfg.wf = true) (hlen : s.len ≤ s.cfg.ibufCap)
    (hexec : exec .freqCount s = .next t) :
    t.tableSymbols = firstSeen s.input ∧ t.k.toNat = (firstSeen s.input).length ∧
      ∀ b : Byte, t.freqAt b.toNat = s.input.count b := by
  have h : s.inputTable.Counted s.input := counted_input hc hlen
  obtain rfl := exec_inj hexec (exec_freqCount_of_le hlen)
  exact ⟨tableSymbols_setTable h (s.accept .freq), h.k, h.freq⟩

/-- FREQ_COUNT leaves one table of one input. -/
theorem State.sameTable_of_sameInput {s s' t t' : State} (h : s.sameInput s') (hc : s.cfg.wf = true)
    (hlen : s.len ≤ s.cfg.ibufCap) (hexec : exec .freqCount s = .next t) (hexec' : exec .freqCount s' = .next t') :
    t.SameTable t' := by
  obtain ⟨hcfg, hlens, hinput⟩ := h
  obtain ⟨hsyms, hk, hfreq⟩ := exec_freqCount_table hc hlen hexec
  obtain ⟨hsyms', hk', hfreq'⟩ := exec_freqCount_table (hcfg ▸ hc) (hcfg ▸ hlens ▸ hlen) hexec'
  rw [← hinput] at hsyms' hk' hfreq'
  have hord : ∀ j < t.k.toNat, t.ordAt j = t'.ordAt j := fun j hj => by
    have h := congrArg (·[j]?) (hsyms.trans hsyms'.symm)
    simpa [State.tableSymbols, hj, hk'.trans hk.symm] using h
  refine ⟨?_, BitVec.eq_of_toNat_eq (hk.trans hk'.symm), fun j hj => ?_⟩
  · have hin := congrArg Inputs.cfg (exec_inputs hexec)
    exact hin.trans (hcfg.trans (congrArg Inputs.cfg (exec_inputs hexec')).symm)
  · rw [State.leafOf, State.leafOf, hord j hj, hfreq, hfreq']

/-! ## One tree gives one code table -/

/-- CODE_ASSIGN leaves the tree as it is. -/
theorem exec_codeAssign_tree? {s t : State} (hexec : exec .codeAssign s = .next t) : t.tree? = s.tree? := by
  rw [exec_next_iff] at hexec
  rcases codeAssignBody_cases (s.accept .code) with ⟨_, e⟩ | ⟨_, e⟩ <;>
    rw [hexec.trans (congrArg Ran.complete e)] <;> rfl

/-- A symbol that is not in the tree has no code. -/
theorem State.Coded.code_eq_nil {s t : State} {T : HTree} (h : s.Coded t T) {b : Byte}
    (hb : b ∉ T.codeTable.map Prod.fst) : t.code b = [] :=
  List.eq_nil_of_length_eq_zero ((t.length_code b).trans
    (Decidable.byContradiction fun hlen => hb ((h.symbols b).mpr ((h.coded b).mp hlen))))

theorem State.Coded.code_eq {s s' t t' : State} {T : HTree} (h : s.Coded t T) (h' : s'.Coded t' T) :
    t.code = t'.code := by
  funext b
  by_cases hb : b ∈ T.codeTable.map Prod.fst
  · obtain ⟨p, hp, rfl⟩ := List.mem_map.mp hb
    exact (h.path p hp).trans (h'.path p hp).symm
  · rw [h.code_eq_nil hb, h'.code_eq_nil hb]

/-- The code tables of one input are of one tree. -/
theorem compressed_of_sameInput {s s' t t' : State} (h : s.sameInput s') (hc : s.cfg.wf = true) (hpos : 1 ≤ s.len)
    (hlen : s.len ≤ s.cfg.ibufCap) (hexec : exec .compress s = .next t) (hexec' : exec .compress s' = .next t') :
    ∃ T, s.Compressed t T ∧ s'.Compressed t' T := by
  obtain ⟨hcfg, hlens, -⟩ := id h
  have hpos' : 1 ≤ s'.len := hlens ▸ hpos
  have hlen' : s'.len ≤ s'.cfg.ibufCap := hcfg ▸ hlens ▸ hlen
  obtain ⟨s1, s2, s3, T, hphases, hcoded⟩ := exists_coded hc hpos hlen
  obtain ⟨s1', s2', s3', T', hphases', hcoded'⟩ := exists_coded (hcfg ▸ hc) hpos' hlen'
  obtain ⟨-, hk, -⟩ := exec_freqCount_table hc hlen hphases.freqCount
  have hk0 : s1.k ≠ 0 := fun hzero => by
    obtain ⟨b, hb⟩ := List.exists_mem_of_length_pos (s.input_length.trans_ge hpos)
    rw [hzero] at hk
    exact List.not_mem_nil (List.eq_nil_of_length_eq_zero hk.symm ▸ mem_firstSeen.mpr hb)
  have htable := State.sameTable_of_sameInput h hc hlen hphases.freqCount hphases'.freqCount
  have htree := htable.tree?_eq hk0 (hk.trans_le (length_le_numSymbols (firstSeen_nodup _))) hphases.treeBuild
    hphases'.treeBuild
  rw [← exec_codeAssign_tree? hphases.codeAssign, ← exec_codeAssign_tree? hphases'.codeAssign, hcoded.tree,
    hcoded'.tree] at htree
  obtain rfl := Option.some.inj htree
  exact ⟨T, hphases.compressed hcoded hpos hlen hexec, hphases'.compressed hcoded' hpos' hlen' hexec'⟩

/-! ## The containers -/

/-- What the host sees of the container is the same in both states. -/
structure State.SameResult (t t' : State) : Prop where
  err : t.status.err = t'.status.err
  outLen : t.outLen = t'.outLen
  hdrLen : t.hdrLen = t'.hdrLen
  padBits : t.padBits = t'.padBits
  payLen : t.payLen = t'.payLen
  output : t.output = t'.output

theorem State.output_of_outLen {t : State} (h : t.outLen = 0) : t.output = [] := by simp [State.output, h]

theorem State.HoldsContainer.sameResult {s s' t t' : State} (h : t.HoldsContainer s) (h' : t'.HoldsContainer s')
    (hinput : s.input = s'.input) (hcode : t.code = t'.code) : t.SameResult t' where
  err := h.noError.trans h'.noError.symm
  outLen := by rw [h.outLen, h'.outLen, hinput, hcode]
  hdrLen := BitVec.eq_of_toNat_eq (by rw [h.hdrLen, h'.hdrLen, hcode])
  padBits := BitVec.eq_of_toNat_eq (by rw [h.padBits, h'.padBits, hinput, hcode])
  payLen := by rw [h.payLen, h'.payLen, hinput, hcode]
  output := by rw [h.output, h'.output, hinput, hcode]

theorem State.Overflowed.sameResult {t t' : State} (h : t.Overflowed) (h' : t'.Overflowed) : t.SameResult t' where
  err := h.outOverflow.trans h'.outOverflow.symm
  outLen := h.outLen.trans h'.outLen.symm
  hdrLen := h.hdrLen.trans h'.hdrLen.symm
  padBits := h.padBits.trans h'.padBits.symm
  payLen := h.payLen.trans h'.payLen.symm
  output := (State.output_of_outLen h.outLen).trans (State.output_of_outLen h'.outLen).symm

theorem exec_compress_sameResult {s s' t t' : State} (hc : s.cfg.wf = true) (h : s.sameInput s')
    (hexec : exec .compress s = .next t) (hexec' : exec .compress s' = .next t') : t.SameResult t' := by
  obtain ⟨hcfg, hlens, hinput⟩ := id h
  rcases exec_compress_cases hc hexec with ⟨hzero, rfl⟩ | ⟨hlt, rfl⟩ | ⟨hpos, hlen, -⟩
  · obtain rfl := exec_inj hexec' (exec_compress_of_eq_zero (hlens ▸ hzero))
    exact ⟨rfl, rfl, rfl, rfl, rfl, rfl⟩
  · obtain rfl := exec_inj hexec' (exec_compress_of_lt (hcfg ▸ hlens ▸ hlt))
    exact ⟨rfl, rfl, rfl, rfl, rfl, rfl⟩
  obtain ⟨T, hcomp, hcomp'⟩ := compressed_of_sameInput h hc hpos hlen hexec hexec'
  have hcode := hcomp.coded.code_eq hcomp'.coded
  have hcontainer : container t.code s.input = container t'.code s'.input := by rw [hcode, hinput]
  rcases Nat.lt_or_ge s.cfg.obufCap (container t.code s.input).length with hover | hfit
  · exact (hcomp.overflows hover).sameResult (hcomp'.overflows (hcfg ▸ hcontainer ▸ hover))
  · exact (hcomp.fits hfit).sameResult (hcomp'.fits (hcfg ▸ hcontainer ▸ hfit)) hinput hcode

/-- Settles O49: the same input gives the same code table, and so the same container or none. -/
theorem compressDependsOnItsInputAlone : Obligations.CompressDependsOnItsInputAlone := by
  intro s1 s2 t1 t2 hc h hexec1 hexec2
  obtain ⟨herr, hout, hhdr, hpad, hpay, hbytes⟩ := exec_compress_sameResult hc h hexec1 hexec2
  exact ⟨herr, hout, hhdr, hpad, hpay, hbytes⟩

end Sys2Proof.Machine
end

section
/-! SUPPORT. What a command leaves when it ends with an error (60_exceptions.md R234, R235, R239). -/

namespace Sys2Proof.Machine

/-! ## A full queue and a missing tree -/

theorem exec_pqInsert_of_full {s : State} (hfull : s.hsize.toNat = 256) :
    exec .pqInsert s = .next ((s.accept .pq).raise .pqFull 0 0) := by
  refine exec_next_iff.mpr ?_
  rcases pqInsertBody_cases (s.accept .pq) with ⟨-, e⟩ | ⟨hroom, -⟩
  · exact (congrArg Ran.complete e).symm
  · exact absurd hfull hroom

theorem exec_codeAssign_of_not_treeValid {s : State} (hinvalid : s.status.treeValid = false) :
    exec .codeAssign s = .next ((s.accept .code).raise .noTree 0 0) := by
  refine exec_next_iff.mpr ?_
  rcases codeAssignBody_cases (s.accept .code) with ⟨-, e⟩ | ⟨hvalid, -⟩
  · exact (congrArg Ran.complete e).symm
  · exact absurd (hinvalid.symm.trans hvalid) (by decide)

theorem exec_err_ne {e : ErrCode} {i : Instr} {s t : State} (he : e ∉ ErrCode.noError :: errorsOf i)
    (hexec : exec i s = .next t) : t.status.err ≠ e := fun herr => he (herr ▸ exec_err_mem hexec)

/-- Settles O23: PQ_INSERT tests HSIZE before it writes, and of all commands it alone raises PQ_FULL. -/
theorem pqInsertIntoAFullQueueFails : Obligations.PqInsertIntoAFullQueueFails := by
  refine ⟨fun s hfull => ⟨_, exec_pqInsert_of_full hfull, ⟨rfl, rfl, rfl, rfl, rfl, Nat.zero_mod _⟩, rfl⟩, rfl,
    fun i s t hi hexec => exec_err_ne ?_ hexec⟩
  cases i with
  | pqInsert => exact absurd rfl hi
  | nop | compress | freqCount | treeBuild | codeAssign | pack | pqClear | pqExtractMin => decide

/-- Settles O34: CODE_ASSIGN tests TREE_VALID before it writes, and of all commands it alone raises NO_TREE: COMPRESS
runs it after a TREE_BUILD that has set TREE_VALID. -/
theorem codeAssignWithoutATreeFails : Obligations.CodeAssignWithoutATreeFails := by
  refine ⟨fun s hinvalid => ⟨_, exec_codeAssign_of_not_treeValid hinvalid,
    ⟨rfl, rfl, rfl, rfl, rfl, Nat.zero_mod _⟩, rfl⟩, rfl, fun i s t hi hexec => exec_err_ne ?_ hexec⟩
  cases i with
  | codeAssign => exact absurd rfl hi
  | nop | compress | freqCount | treeBuild | pack | pqClear | pqInsert | pqExtractMin => decide

/-! ## The commands but COMPRESS -/

/-- A body that falls off its end leaves ERR clear, so a command that ends with an error leaves what was raised: `f` is
what the body has written before. -/
theorem exec_of_error (f : State → State) {i : Instr} {s t : State} (hexec : exec i s = .next t)
    (herr : t.status.err ≠ .noError) {r : Ran} (hr : bodyOf i (s.accept (phaseOf i)) = r)
    (hends : r.Ends (fun u => u.status.err = .noError) fun u => u = f (s.withCommon u)) : t = f (s.withCommon t) := by
  obtain rfl : t = r.complete := (exec_next_iff.mp hexec).trans (congrArg Ran.complete hr)
  cases r with
  | finished u => exact absurd hends herr
  | raised u => exact hends

section
variable {s t : State} (herr : t.status.err ≠ .noError)
include herr

theorem exec_pqInsert_of_error (hexec : exec .pqInsert s = .next t) : t = s.withCommon t := by
  rcases pqInsertBody_cases (s.accept .pq) with ⟨-, e⟩ | ⟨-, _, -, e⟩ <;> exact exec_of_error id hexec herr e rfl

theorem exec_codeAssign_of_error (hexec : exec .codeAssign s = .next t) : t = s.withCommon t := by
  rcases codeAssignBody_cases (s.accept .code) with ⟨-, e⟩ | ⟨-, e⟩ <;> exact exec_of_error id hexec herr e rfl

theorem exec_freqCount_of_error (hexec : exec .freqCount s = .next t) : t = s.withCommon t := by
  rcases freqCountBody_cases (s.accept .freq) with ⟨-, e⟩ | ⟨-, _, -, e⟩ <;> exact exec_of_error id hexec herr e rfl

theorem exec_treeBuild_of_error (hexec : exec .treeBuild s = .next t) : t = (s.withCommon t).setTreeValid false := by
  rcases treeBuildBody_cases (s.accept .tree) with ⟨-, e⟩ | ⟨-, _, _, -, -, e⟩ <;>
    exact exec_of_error (State.setTreeValid false) hexec herr e rfl

theorem exec_pack_of_error (hexec : exec .pack s = .next t) : t = (s.withCommon t).clearResults := by
  rcases packBody_cases (s.accept .pack) with ⟨-, e⟩ | ⟨-, -, e⟩ | ⟨-, -, _, _, -, e⟩ |
    ⟨-, -, -, _, _, -, -, ⟨-, e⟩ | ⟨-, _, -, e⟩⟩ <;> exact exec_of_error State.clearResults hexec herr e rfl

end

/-! ## COMPRESS -/

/-- A frame equation holds as well of a state that differs in the hidden registers and the epoch. -/
theorem State.eq_withCommon_clearResults {s t u : State} (ht : t = { u with hidden := t.hidden, free := t.free })
    (hresets : t.free.resets = s.free.resets) (hu : u = (s.withCommon u).clearResults) :
    t = (s.withCommon t).clearResults := by
  generalize t.hidden = hidden, t.free = free at ht hresets
  obtain ⟨resets, epoch⟩ := free
  obtain rfl : resets = s.free.resets := hresets
  subst ht
  exact congrArg (fun v : State => { v with hidden, free := { resets := s.free.resets, epoch } }) hu

/-- After three phases without an error COMPRESS ends as PACK does, which with an error has only zeroed the result
registers. -/
theorem ThreePhases.compress_of_error {s s1 s2 s3 t : State} (h : ThreePhases s s1 s2 s3)
    (hexec : exec .compress s = .next t) (herr : t.status.err ≠ .noError) : t = (s3.withCommon t).clearResults := by
  obtain ⟨s4, hs4, -⟩ := everyCommandCompletes .pack s3
  obtain ⟨-, h1⟩ := compressEqualsItsPhases s t s1 hexec h.freqCount
  obtain ⟨-, h2⟩ := h1 h.err1 s2 h.treeBuild
  obtain ⟨-, h3⟩ := h2 h.err2 s3 h.codeAssign
  have ht : t = { s4 with hidden := t.hidden, free := t.free } := h3 h.err3 s4 hs4
  have herr4 : t.status.err = s4.status.err := congrArg (·.status.err) ht
  exact State.eq_withCommon_clearResults ht (congrArg Inputs.resets ((exec_inputs hexec).trans h.inputs.symm))
    (exec_pack_of_error (herr4 ▸ herr) hs4)

section
variable {s t : State} (hc : s.cfg.wf = true) (herr : t.status.err ≠ .noError) (hexec : exec .compress s = .next t)
include hc herr hexec

/-- Each error of COMPRESS and what it leaves. -/
theorem exec_compress_of_error :
    (t.status.err = .lenRange ∧ t = (s.withCommon t).clearResults) ∨
    (t.status.err = .emptyInput ∧ t = (((s.withCommon t).clearResults).setTable [] s.ord 0).setTreeValid false) ∨
    (t.status.err = .outOverflow ∧ ∃ s1 s2 s3, ThreePhases s s1 s2 s3 ∧ t = (s3.withCommon t).clearResults) := by
  rcases exec_compress_cases hc hexec with ⟨-, rfl⟩ | ⟨-, rfl⟩ | ⟨hpos, hlen, T, h⟩
  · exact .inr (.inl ⟨rfl, rfl⟩)
  · exact .inl ⟨rfl, rfl⟩
  rcases h.cases with hholds | hover
  · exact absurd hholds.noError herr
  obtain ⟨s1, s2, s3, _, hphases, -⟩ := exists_coded hc hpos hlen
  exact .inr (.inr ⟨hover.outOverflow, s1, s2, s3, hphases, hphases.compress_of_error hexec herr⟩)

theorem exec_compress_obuf_of_error : t.obuf = s.obuf := by
  rcases exec_compress_of_error hc herr hexec with ⟨-, ht⟩ | ⟨-, ht⟩ | ⟨-, s1, s2, s3, h, ht⟩
  · exact congrArg (·.obuf) ht
  · exact congrArg (·.obuf) ht
  · exact (congrArg (·.obuf) ht : t.obuf = s3.obuf).trans (congrArg Prod.fst h.containerRegs)

end

/-- OBUF is written at the end of PACK, after its last test. -/
theorem exec_obuf_of_error {i : Instr} {s t : State} (hc : s.cfg.wf = true) (herr : t.status.err ≠ .noError)
    (hexec : exec i s = .next t) : t.obuf = s.obuf := by
  by_cases hi : i ∈ [Instr.pack, .compress]
  · obtain rfl | rfl : i = .pack ∨ i = .compress := by simpa using hi
    · exact congrArg (·.obuf) (exec_pack_of_error herr hexec)
    · exact exec_compress_obuf_of_error hc herr hexec
  · exact congrArg Prod.fst (exec_containerRegs hi hexec)

/-- Settles O13: what each command has written when it raises. -/
theorem stateLeftByAnError : Obligations.StateLeftByAnError := by
  intro s t hc herr
  refine ⟨fun hexec => ?illegal, exec_pqInsert_of_error herr, exec_codeAssign_of_error herr,
    exec_freqCount_of_error herr, exec_treeBuild_of_error herr, exec_pack_of_error herr, fun hexec he => ?lenRange,
    fun hexec he => ?emptyInput, fun hexec he => ?outOverflow, fun i hexec => exec_obuf_of_error hc herr hexec⟩
  case illegal =>
    obtain rfl := Host.Outcome.next.inj hexec
    rfl
  case lenRange => simpa [he] using exec_compress_of_error hc herr hexec
  case emptyInput => simpa [he] using exec_compress_of_error hc herr hexec
  case outOverflow =>
    obtain ⟨s1, s2, s3, h, ht⟩ : ∃ s1 s2 s3, ThreePhases s s1 s2 s3 ∧ t = (s3.withCommon t).clearResults := by
      simpa [he] using exec_compress_of_error hc herr hexec
    exact ⟨s1, s2, s3, h.freqCount, h.treeBuild, h.codeAssign, ht⟩

end Sys2Proof.Machine
end

section
/-! SUPPORT. The inputs no command writes, the block without an event, the accesses of a running command, and `rst`
(70_reset_and_hazards.md R260 to R263, R267, R274). -/

namespace Sys2Proof.Machine

/-- Settles O11: no body of a command writes the host's inputs, nor does acceptance or completion. -/
theorem noCommandWritesTheHostsInputs : Obligations.NoCommandWritesTheHostsInputs := by
  intro i s t hexec
  have hinputs := exec_inputs hexec
  exact ⟨congrArg Inputs.len hinputs, congrArg Inputs.argFreq hinputs, congrArg Inputs.argNode hinputs,
    congrArg Inputs.ibuf hinputs, congrArg Inputs.cfg hinputs, congrArg Inputs.host hinputs,
    congrArg Inputs.resets hinputs⟩

/-! ## No event, and accesses while BUSY = 1 -/

theorem step_of_no_pending {s : State} (h : s.host.pending = []) : step s = rest s := by
  simp only [step, serveFirst, h]

/-- Settles O7: without an event the step rests. -/
theorem idleBlockStaysPut : Obligations.IdleBlockStaysPut := by
  intro s hidle hpending
  rw [step_of_no_pending hpending, rest, hidle]
  rfl

theorem isStatus_eq_false_iff {sp i : Nat} : isStatus sp i = false ↔ (sp, i) ≠ (0, 1) := by simp [isStatus]

/-- STATUS is word 1 of space 0 whatever the parameters, and is answered whether BUSY is 1 or 0. -/
theorem serve_readStatus (s : State) : serve (.read 0 1) s = .next (s.answer s.status.word.toNat) := by
  simp only [serve, show isStatus 0 1 = true from rfl, Bool.not_true, Bool.and_false]
  rfl

section
variable {s : State} (hbusy : s.status.busy = true)
include hbusy

theorem serve_read_of_busy {sp i : Nat} (hstatus : (sp, i) ≠ (0, 1)) :
    serve (.read sp i) s = .refused .accessDuringCommand := by
  simp only [serve, hbusy, isStatus_eq_false_iff.mpr hstatus]
  rfl

theorem serve_write_of_busy (sp i v : Nat) : serve (.write sp i v) s = .refused .accessDuringCommand := if_pos hbusy

end

/-- Settles O57: the first pending event is served in a state that is as busy as the one before. -/
theorem accessDuringACommandIsRefused : Obligations.AccessDuringACommandIsRefused := by
  intro s es hbusy
  refine ⟨fun hpending => ?_, fun sp i hstatus hpending => ?_, fun sp i v hpending => ?_⟩ <;>
    rw [step_of_pending hpending]
  · exact serve_readStatus (s.withPending es)
  · exact serve_read_of_busy (s := s.withPending es) hbusy hstatus
  · exact serve_write_of_busy (s := s.withPending es) hbusy sp i v

/-! ## `rst` and the reset state -/

section
variable (c : Config) (resets epoch : Nat) (host : HostPort)

theorem resetOf_statusWord : (State.resetOf c resets epoch host).status.word = 0#16 := by
  simp only [State.resetOf]
  decide

theorem resetOf_readReg (r : Nat) : (State.resetOf c resets epoch host).readReg r = 0 := by
  unfold State.readReg
  split
  case h_2 => exact congrArg BitVec.toNat (resetOf_statusWord c resets epoch host)
  all_goals rfl

/-- HSIZE is 0, so no index of the queue is to be compared with its parent. -/
theorem resetOf_queueOrdered : (State.resetOf c resets epoch host).QueueOrdered :=
  fun _ _ hj => absurd hj (Nat.not_lt_zero _)

/-- TREE_VALID is 0. -/
theorem resetOf_treeSound : (State.resetOf c resets epoch host).TreeSound := fun hvalid => Bool.noConfusion hvalid

theorem resetOf_inv (hc : c.wf = true) : (State.resetOf c resets epoch host).inv = true := by
  simp only [State.inv, Bool.and_eq_true, wf_iff, heapOrdered_iff, tableOk_iff, treeOk_iff]
  exact ⟨⟨⟨⟨rfl, resetOf_fits hc resets epoch host⟩, resetOf_queueOrdered c resets epoch host⟩,
    resetOf_tableSound c resets epoch host⟩, resetOf_treeSound c resets epoch host⟩

end

/-- Settles O14: State.reset is the reset state of the suggested parameters, which are legal. -/
theorem resetMeetsTheInvariants : Obligations.ResetMeetsTheInvariants :=
  ⟨resetOf_inv Config.default 0 0 _ (by decide), resetOf_inv⟩

/-- Settles O58: both events leave the reset state of the same parameters, where FREQ and CLEN list no word. -/
theorem rstLeavesTheResetState : Obligations.RstLeavesTheResetState := by
  intro s e es he hpending
  have hstep : step s = .next (s.withPending es).afterRst := by
    rw [step_of_pending hpending]
    rcases he with rfl | ⟨v, rfl⟩ <;> rfl
  exact ⟨_, hstep, resetOf_readReg s.cfg _ _ _, fun _ => rfl, fun _ => rfl, rfl, rfl⟩

end Sys2Proof.Machine
end
